-- ==== Sys2Proof/Word.lean ====
section
/-! DEFINITION. The words of the block: a byte, a byte sequence, and the 32-bit words of the command port
(00_scope.md R10, 10_state.md R35). -/
namespace Sys2Proof

/-- An 8-bit unsigned value (R10). -/
abbrev Byte := BitVec 8

/-- A finite sequence of bytes (R10). -/
abbrev Bytes := List Byte

/-- A 32-bit word of the command port and the result port (R35, R36). -/
abbrev Word := BitVec 32

end Sys2Proof
end

