-- ==== Sys2Proof/Machine/ReferenceCodecs.lean ====
section
/-! DEFINITION. The two reference codecs of 93_implementation_defined.md G2 and G3, with the proofs that they meet the
codec contract P1 and P2 of 00_scope.md R8. They are NOT the block's codecs, which stay open (Config.lean): they make
up the instance in which the vectors of 95_test_vectors.md can be computed, and they show that the contract can be met. -/
namespace Sys2Proof.Machine

/-- Scheme B reference encoder, SLIP-like (G2). -/
def slipEnc : Bytes → Bytes
  | [] => []
  | b :: bs =>
    if b = 0xC0#8 then 0xDB#8 :: 0xDC#8 :: slipEnc bs
    else if b = 0xDB#8 then 0xDB#8 :: 0xDD#8 :: slipEnc bs
    else b :: slipEnc bs

/-- What the byte after an escape byte stands for (G2): `ESC x` is `x` where no encoder produces it. -/
def slipUnescape (b : Byte) : Byte :=
  if b = 0xDC#8 then 0xC0#8 else if b = 0xDD#8 then 0xDB#8 else b

/-- Scheme B reference decoder; `esc` says that the byte before was a pending escape byte. A trailing lone escape byte
is dropped (G2). -/
def slipDecFrom (esc : Bool) : Bytes → Bytes
  | [] => []
  | b :: bs =>
    match esc with
    | true => slipUnescape b :: slipDecFrom false bs
    | false => if b = 0xDB#8 then slipDecFrom true bs else b :: slipDecFrom false bs

/-- Scheme B reference decoder (G2). -/
def slipDec (x : Bytes) : Bytes := slipDecFrom false x

/-- The code byte of a COBS block: one more than its number of data bytes (G3). -/
def cobsCode (block : Bytes) : Byte := BitVec.ofNat 8 (block.length + 1)

/-- Scheme A reference encoder, COBS-like, with `block` the data bytes of the block whose code byte is pending (G3). -/
def cobsEncFrom (block : Bytes) : Bytes → Bytes
  | [] => cobsCode block :: block
  | b :: bs =>
    if b = 0x00#8 then cobsCode block :: (block ++ cobsEncFrom [] bs)
    else if block.length + 2 = 255 then 0xFF#8 :: (block ++ b :: cobsEncFrom [] bs)
    else cobsEncFrom (block ++ [b]) bs

/-- Scheme A reference encoder (G3). -/
def cobsEnc (p : Bytes) : Bytes := cobsEncFrom [] p

/-- Scheme A reference decoder on at most `fuel` blocks; `none` for an invalid or truncated block (G3). -/
def cobsDecFrom : Nat → Bytes → Option Bytes
  | _, [] => some []
  | 0, _ :: _ => none
  | fuel + 1, c :: xs =>
    if c = 0x00#8 ∨ xs.length < c.toNat - 1 then none
    else
      let rest := xs.drop (c.toNat - 1)
      let zero : Bytes := if c.toNat < 255 ∧ rest ≠ [] then [0x00#8] else []
      (cobsDecFrom fuel rest).map fun out => xs.take (c.toNat - 1) ++ (zero ++ out)

/-- Scheme A reference decoder: the empty sequence for invalid input (G3). -/
def cobsDec (x : Bytes) : Bytes := (cobsDecFrom x.length x).getD []

/-! The contract of R8 for the SLIP-like codec. -/

theorem slipEnc_delim_free (p : Bytes) : 0xC0#8 ∉ slipEnc p := by
  induction p with
  | nil => simp [slipEnc]
  | cons b bs ih =>
    unfold slipEnc
    split
    · simpa using ih
    · split
      · simpa using ih
      · simp only [List.mem_cons, not_or]
        exact ⟨fun h => ‹¬b = 0xC0#8› h.symm, ih⟩

theorem slipDecFrom_enc (p : Bytes) : slipDecFrom false (slipEnc p) = p := by
  induction p with
  | nil => rfl
  | cons b bs ih =>
    unfold slipEnc
    split
    · simp_all [slipDecFrom, slipUnescape]
    · split <;> simp_all [slipDecFrom, slipUnescape]

theorem slipDec_enc (p : Bytes) : slipDec (slipEnc p) = p := slipDecFrom_enc p

/-! The contract of R8 for the COBS-like codec. -/

theorem cobsCode_toNat {block : Bytes} (h : block.length ≤ 253) : (cobsCode block).toNat = block.length + 1 := by
  simp only [cobsCode, BitVec.toNat_ofNat]
  omega

theorem cobsCode_ne_zero {block : Bytes} (h : block.length ≤ 253) : cobsCode block ≠ 0x00#8 := fun hz => by
  have := cobsCode_toNat h
  rw [hz] at this
  simp at this

theorem cobsEncFrom_delim_free (p : Bytes) : ∀ block : Bytes, block.length ≤ 253 → 0x00#8 ∉ block →
    0x00#8 ∉ cobsEncFrom block p := by
  induction p with
  | nil =>
    intro block hl hb
    simp only [cobsEncFrom, List.mem_cons, not_or]
    exact ⟨fun h => cobsCode_ne_zero hl h.symm, hb⟩
  | cons b bs ih =>
    intro block hl hb
    have hnil : 0x00#8 ∉ cobsEncFrom [] bs := ih [] (by simp) (by simp)
    unfold cobsEncFrom
    split
    · simp only [List.mem_cons, List.mem_append, not_or]
      exact ⟨fun h => cobsCode_ne_zero hl h.symm, hb, hnil⟩
    · have hz : ¬0x00#8 = b := fun h => ‹¬b = 0x00#8› h.symm
      split
      · simp only [List.mem_cons, List.mem_append, not_or]
        exact ⟨by decide, hb, hz, hnil⟩
      · refine ih _ ?_ ?_
        · simp only [List.length_append, List.length_singleton]
          omega
        · simp only [List.mem_append, List.mem_singleton, not_or]
          exact ⟨hb, hz⟩

theorem cobsEncFrom_ne_nil (p block : Bytes) : cobsEncFrom block p ≠ [] := by
  induction p generalizing block with
  | nil => simp [cobsEncFrom]
  | cons b bs ih =>
    unfold cobsEncFrom
    split
    · simp
    · split
      · simp
      · exact ih _

/-- One block decodes to its data, with the zero byte it stands for where another block follows. -/
theorem cobsDecFrom_block {c : Byte} {data rest : Bytes} {fuel : Nat} (hc : c.toNat = data.length + 1) :
    cobsDecFrom (fuel + 1) (c :: (data ++ rest)) =
      (cobsDecFrom fuel rest).map fun out =>
        data ++ ((if c.toNat < 255 ∧ rest ≠ [] then [0x00#8] else []) ++ out) := by
  have h0 : ¬c = 0x00#8 := fun h => by simp [h] at hc
  have hlen : ¬(data ++ rest).length < c.toNat - 1 := by simp [hc]
  have ht : (data ++ rest).take (c.toNat - 1) = data := by simp [hc]
  have hd : (data ++ rest).drop (c.toNat - 1) = rest := by simp [hc]
  simp only [cobsDecFrom, h0, hlen, or_self, if_false, ht, hd]

theorem cobsDecFrom_enc (p : Bytes) : ∀ (block : Bytes) (fuel : Nat), block.length ≤ 253 →
    (cobsEncFrom block p).length ≤ fuel → cobsDecFrom fuel (cobsEncFrom block p) = some (block ++ p) := by
  induction p with
  | nil =>
    intro block fuel hl hf
    cases fuel with
    | zero => simp [cobsEncFrom] at hf
    | succ f =>
      have := cobsDecFrom_block (rest := []) (fuel := f) (cobsCode_toNat hl)
      simp only [List.append_nil] at this
      cases f <;> simp [cobsEncFrom, this, cobsDecFrom]
  | cons b bs ih =>
    intro block fuel hl hf
    unfold cobsEncFrom at hf ⊢
    split
    · rename_i hb
      simp only [hb, if_true, List.length_cons, List.length_append] at hf
      cases fuel with
      | zero => omega
      | succ f =>
        rw [cobsDecFrom_block (cobsCode_toNat hl), ih [] f (by simp) (by omega), hb]
        have : (cobsCode block).toNat < 255 := by rw [cobsCode_toNat hl]; omega
        simp [this, cobsEncFrom_ne_nil]
    · rename_i hb
      simp only [hb, if_false] at hf
      split
      · rename_i h255
        simp only [h255, if_true, List.length_cons, List.length_append] at hf
        cases fuel with
        | zero => omega
        | succ f =>
          have hsplit : block ++ b :: cobsEncFrom [] bs = (block ++ [b]) ++ cobsEncFrom [] bs := by simp
          have hc : (0xFF#8 : Byte).toNat = (block ++ [b]).length + 1 := by
            simp only [List.length_append, List.length_singleton]
            simp
            omega
          rw [hsplit, cobsDecFrom_block hc, ih [] f (by simp) (by omega)]
          simp
      · rename_i h255
        simp only [h255, if_false] at hf
        rw [ih (block ++ [b]) fuel (by simp; omega) hf]
        simp

theorem cobsEnc_delim_free (p : Bytes) : 0x00#8 ∉ cobsEnc p :=
  cobsEncFrom_delim_free p [] (by simp) (by simp)

theorem cobsDec_enc (p : Bytes) : cobsDec (cobsEnc p) = p := by
  simp only [cobsDec, cobsEnc, cobsDecFrom_enc p [] _ (by simp) (le_refl _)]
  rfl

end Sys2Proof.Machine
end

