-- ==== Sys2Proof/Config.lean ====
section
/-! DEFINITION. What an implementation fixes and what the spec leaves open: the synthesis parameters of 00_scope.md R7
with the codec contract of R8, and the draws (00_scope.md R12) an environment makes. The block's own configuration is one
constant with no body, so nothing proved of it can lean on a value the spec does not give. -/
namespace Sys2Proof

/-- One stuffing scheme: the delimiter and the codec that is its "matched pair", with the two properties, and only the
two, that R8 lets the block assume. What `dec` answers on a sequence no encoder makes is the codec's choice. -/
structure Codec where
  /-- `DELIM_S` (R7). -/
  delim : Byte
  /-- `ENC_S`, total (R8). -/
  enc : Bytes → Bytes
  /-- `DEC_S`, total (R8). -/
  dec : Bytes → Bytes
  /-- P1, delimiter-free (R8). -/
  delim_free : ∀ p, delim ∉ enc p
  /-- P2, round trip (R8). -/
  round_trip : ∀ p, dec (enc p) = p

/-- The open parameters of the block (R7) and the values the environment draws (R12 `Draw`). -/
structure Config where
  /-- `MAXP_MAX`: the largest max payload an INIT may configure; sizes every buffer (R7, D27). -/
  maxpMax : Nat
  maxpMax_ge : 64 ≤ maxpMax
  /-- `CFG_M` is 16 bits wide (R41; 92_eei_decisions.md, summary of the open parameters). -/
  maxpMax_le : maxpMax ≤ 65535
  /-- Scheme A, COBS-like (R7, R9). -/
  codecA : Codec
  /-- Scheme B, SLIP-like (R7, R9). -/
  codecB : Codec
  /-- `CLK_W`: the width in bits of the millisecond clock (R7, D16). -/
  clkW : Nat
  clkW_pos : 1 ≤ clkW
  /-- `T_PRE`: pre-transmit settle delay (R7, D25). -/
  tPre : Nat
  /-- `T_POST`: post-transmit tail delay (R7, D25). -/
  tPost : Nat
  /-- The `k`-th draw of one byte. -/
  drawByte : Nat → Byte
  /-- The `k`-th draw of a byte sequence; the rule that draws cuts it to the length it may have. -/
  drawBytes : Nat → Bytes
  /-- The `k`-th draw between the two outcomes of a tainted end of frame (40_phy_framer.md R142). -/
  drawFits : Nat → Bool

/-- `SCHEME_A_LIMIT`: the largest max payload for which scheme A may be used (R7). -/
def schemeALimit : Nat := 250

/-- `BCAST`: the broadcast node address (R7, 30_encoding.md R102). -/
def bcast : Byte := 0xFF#8

namespace Config

/-- Reference scheme A: delimiter `0x00`, COBS-like codec (93_implementation_defined.md G1, G3). -/
def referenceA : Codec where
  delim := 0x00#8
  enc := Machine.cobsEnc
  dec := Machine.cobsDec
  delim_free := Machine.cobsEnc_delim_free
  round_trip := Machine.cobsDec_enc

/-- Reference scheme B: delimiter `0xC0`, SLIP-like codec (93_implementation_defined.md G1, G2). -/
def referenceB : Codec where
  delim := 0xC0#8
  enc := Machine.slipEnc
  dec := Machine.slipDec
  delim_free := Machine.slipEnc_delim_free
  round_trip := Machine.slipDec_enc

/-- The instance in which 95_test_vectors.md states its vectors (its section 0), with some delays and some draws. It is
one implementation among all that R7 admits, used to compute examples; no meaning of an instruction refers to it. -/
def reference : Config where
  maxpMax := 300
  maxpMax_ge := by decide
  maxpMax_le := by decide
  codecA := referenceA
  codecB := referenceB
  clkW := 32
  clkW_pos := by decide
  tPre := 1
  tPost := 1
  drawByte := fun _ => 0#8
  drawBytes := fun _ => []
  drawFits := fun _ => false

/-- A configuration in a box of its own. The field's default shows Lean that the type is inhabited, which `opaque` asks
for; nothing else uses it, and the constant below has no value that a proof can see. -/
structure Box where
  config : Config := reference
  deriving Inhabited

/-- UNINTERPRETED: the block's configuration. Nothing is known of it but what the fields of `Config` say. -/
opaque box : Box

/-- The configuration of the block this package models: any one that R7 and R8 admit (assumption 1). -/
def chosen : Config := box.config

end Config
end Sys2Proof
end

