-- ==== Sys2Proof/Syntax.lean ====
section
/-! DEFINITION. The five commands (30_encoding.md R91, R97), one constructor per row of spec/opcode_table.json, with the
operands that `CMD` carries. `ARG0` and `ARG1` are ports of the block (10_state.md R35) and stand in the state. -/
namespace Sys2Proof

/-- A stuffing scheme: A is COBS-like, B is SLIP-like (00_scope.md R9). -/
inductive Scheme where
  | A
  | B
  deriving DecidableEq, Repr

/-- A blocking mode: `nb` non-blocking, `bl` blocking (30_encoding.md R95). -/
inductive Mode where
  | nb
  | bl
  deriving DecidableEq, Repr

/-- A decoded command (R97). -/
inductive Instr where
  /-- INIT: `SELF`, `DIRID`, `SCHREQ`, `DEFBLK` (R93). -/
  | init (self dirid : Byte) (schreq : Scheme) (defblk : Mode)
  /-- PHY_SEND: `SIZE` (R94). -/
  | phySend (size : BitVec 16)
  /-- PHY_RECV: `BLK` as encoded, and whether `TDEF` is set (R95, R96). -/
  | phyRecv (blk : BitVec 2) (tdef : Bool)
  /-- MAC_SEND: `DST`, `SIZE` (R94). -/
  | macSend (dst : Byte) (size : BitVec 16)
  /-- MAC_RECV: `BLK` as encoded, and whether `TDEF` is set (R95, R96). -/
  | macRecv (blk : BitVec 2) (tdef : Bool)
  deriving DecidableEq, Repr

end Sys2Proof
end

