-- ==== Sys2Proof/Machine/State.lean ====
section
/-! DEFINITION. The state of the block as plain data (10_state.md), the events it leaves behind, the inputs the
world outside gives it, and the state after reset (R59). -/
namespace Sys2Proof.Machine

/-- One byte array of the block (20_memory.md R71): pairs of an index and a byte, indices strictly rising, no pair with
the byte an unlisted index reads as (`Memory.wf` in Ops.lean). -/
abbrev Memory := List Host.Cell

/-- The status codes (30_encoding.md R104); `Status.code` gives their numbers. -/
inductive Status where
  | noError
  | oversize
  /-- Never produced by the block (R104). -/
  | crcError
  /-- Reserved, never produced (R104). -/
  | decodeError
  /-- Reserved, never produced (R104). -/
  | encodeError
  | timeout
  | writeError
  | readError
  | noData
  | errorData
  | readErrorSourceBroadcast
  | readErrorSourceSelf
  | unknownError
  deriving DecidableEq, Repr

/-- The values of the direction output (R33). -/
inductive Dir where
  | rx
  | tx
  deriving DecidableEq, Repr

/-- The two turnaround delays (00_scope.md R7, R12). -/
inductive Turnaround where
  | pre
  | post
  deriving DecidableEq, Repr

/-- The value of a draw (00_scope.md R12). -/
inductive Drawn where
  /-- Any contents of a byte array (40_phy_framer.md R141 and R142 (a), 42_control.md R202). -/
  | array (contents : Memory)
  /-- Any frame of at most `PHY_RX_MAX` bytes (40_phy_framer.md R142 (b)). -/
  | frame (g : Bytes)
  /-- Any byte (42_control.md R202, for `OUTSRC`). -/
  | byte (b : Byte)
  deriving DecidableEq, Repr

/-- One event of the block's trace: each of the primitives of 00_scope.md R12. The first six are the interface events of
20_memory.md R78, which the rules mean where they say that a command emits none (assumption 11). -/
inductive Event where
  /-- `RxPoll()` and its answer. -/
  | rxPoll (answer : Option Byte)
  /-- `Now()` and its answer. -/
  | now (answer : Nat)
  /-- `TxByte(b)`. -/
  | txByte (b : Byte)
  /-- `TxFlush()`. -/
  | txFlush
  /-- `DirSet(d)`. -/
  | dirSet (d : Dir)
  /-- `Wait(T_PRE)` or `Wait(T_POST)`, with the duration of the parameter. -/
  | wait (which : Turnaround) (duration : Nat)
  /-- `Draw(X)` and the value drawn. -/
  | draw (value : Drawn)
  /-- `finish(ret, st)`: the end of a command, with the mathematical integer `ret` (00_scope.md R10). -/
  | finish (ret : Int) (st : Status)
  deriving DecidableEq, Repr

/-- The reset input during one step (70_reset_and_hazards.md R245; assumption 6). -/
inductive ResetInput where
  /-- Not asserted. -/
  | released
  /-- Asserted when the step begins: nothing else happens in it. -/
  | atStart
  /-- Asserted after that many of the step's events, or after all of them where it has fewer. -/
  | after (events : Nat)
  deriving DecidableEq, Repr

/-- What the host does between commands: it presents a command (R35) or writes `INBUF` (R38). -/
inductive HostAction where
  | command (cmd arg0 arg1 : Word)
  /-- `INBUF[0..len) <- bytes` (30_encoding.md R99). -/
  | writeInbuf (bytes : Bytes)
  deriving DecidableEq, Repr

/-- The buffer a receive delivers into (40_phy_framer.md R144). -/
inductive Dest where
  | outbuf
  | frm
  deriving DecidableEq, Repr

/-- What one poll iteration met (40_phy_framer.md R134, R135): the five cases of a byte, with the end of a frame split by
its outcome (R141, R142), and no byte. -/
inductive PollCase where
  | noByte
  | startOfFrame
  | resync
  | accumulate
  | noise
  | overflow
  /-- End of frame, delivered with this length. -/
  | frame (length : Nat)
  /-- End of frame, too long. -/
  | tooLong
  deriving DecidableEq, Repr

/-- The blocking receive in progress, with its working values `T` and `t0`, which exist only while the command runs
(R58). `idle`: no command runs and the command port is open (R35). -/
inductive Run where
  | idle
  /-- PHY_RECV: before a deadline check of 40_phy_framer.md R153. -/
  | phyRecv (tmo : Word) (t0 : Nat)
  /-- MAC_RECV at the top of a MAC iteration: before the deadline check of 41_mac_layer.md R183. -/
  | macTop (tmo : Word) (t0 : Nat)
  /-- MAC_RECV inside `phy_receive`: before a deadline check of 40_phy_framer.md R153. -/
  | macPhy (tmo : Word) (t0 : Nat)
  deriving DecidableEq, Repr

/-- Why the machine stops with a fault. There is no constructor: no rule gives the block a fault or a stuck state
(60_exceptions.md R232), so nothing raises one. Safe. -/
inductive Fault where
  deriving DecidableEq, Repr

/-- Why a step is refused. -/
inductive Refusal where
  /-- An instruction without a meaning in this model, raised by exec's arm only; no arm raises it. Safe. -/
  | notModelled (mnemonic : String)
  deriving DecidableEq, Repr

/-- The state of the machine: the architectural state of 10_state.md, the ports, the receive in progress, and the inputs
and outputs of the environment (00_scope.md R6), which are the model's own. -/
structure State where
  /-- `CFG_SELF`, 8 bits (R40). -/
  cfgSelf : Byte
  /-- `CFG_M`, 16 bits (R41). -/
  cfgM : BitVec 16
  /-- `CFG_SCHEME_REQ`, 1 bit (R42). -/
  cfgSchemeReq : Scheme
  /-- `CFG_DIRID`, 8 bits (R43). -/
  cfgDirid : Byte
  /-- `CFG_DEFBLK`, 1 bit (R44). -/
  cfgDefblk : Mode
  /-- `CFG_DEFTMO`, 32 bits (R45). -/
  cfgDeftmo : Word
  /-- `PHY_ST`, 8 bits (R49). -/
  phySt : Status
  /-- `MAC_ST`, 8 bits (R50). -/
  macSt : Status
  /-- `SYNC`, 1 bit (R52). -/
  sync : Bool
  /-- `LEN`, a natural number `0..CAP` (R53). -/
  len : Nat
  /-- `ACC`, the accumulator (R54). -/
  acc : Memory
  /-- `TAINT`, 1 bit (R55). -/
  taint : Bool
  /-- `FRM`, internal (R57); it keeps its bytes between commands (assumption 21). -/
  frm : Memory
  /-- The transmit scratch; empty between commands (20_memory.md R71). -/
  txScratch : Memory
  /-- `INBUF`, written by the host only (R38). -/
  inbuf : Memory
  /-- `OUTBUF`, read by the host (R37). -/
  outbuf : Memory
  /-- `OUTSRC`, 8 bits (R37). -/
  outsrc : Byte
  /-- `CMD` of the command port (R35). -/
  cmd : Word
  /-- `ARG0` of the command port (R35). -/
  arg0 : Word
  /-- `ARG1` of the command port (R35). -/
  arg1 : Word
  /-- `RET`, 32-bit two's complement (R36). -/
  ret : Word
  /-- `RSTAT`, an 8-bit status code (R36). -/
  rstat : Status
  /-- `DIR`, the direction output (R33). -/
  dir : Dir
  /-- The blocking receive in progress (R35, R58). -/
  run : Run
  /-- Input: the answers of the coming `RxPoll()`s; where it ends, no byte is available (R31). -/
  rx : List (Option Byte)
  /-- Input: the millisecond clock, not reduced modulo `2^CLK_W` (R34). -/
  clock : Nat
  /-- Input: by how much the clock advances before each coming `Now()`; where it ends, the clock stands (R34). -/
  ticks : List Nat
  /-- Input: what the host does next, each once the block is idle (R35, R38). -/
  host : List HostAction
  /-- Input: the reset input during each coming step; where it ends, not asserted (70_reset_and_hazards.md R245). -/
  resetIn : List ResetInput
  /-- Output: the events so far, oldest first (00_scope.md R12, 20_memory.md R78). -/
  trace : List Event
  /-- The model's own: how many draws have been made (00_scope.md R12). -/
  draws : Nat
  deriving DecidableEq, Repr

/-- The state after power-on reset (R59). `ACC`, `FRM`, `OUTBUF`, `OUTSRC`, which R59 leaves at any value, and `INBUF` and
the command port, for which the spec states none, are zero (assumption 2); the inputs are empty. -/
def State.reset : State where
  cfgSelf := 0x00#8
  cfgM := 64#16
  cfgSchemeReq := .B
  cfgDirid := 0#8
  cfgDefblk := .nb
  cfgDeftmo := 1000#32
  phySt := .noError
  macSt := .noError
  sync := false
  len := 0
  acc := []
  taint := false
  frm := []
  txScratch := []
  inbuf := []
  outbuf := []
  outsrc := 0#8
  cmd := 0#32
  arg0 := 0#32
  arg1 := 0#32
  ret := 0#32
  rstat := .noError
  dir := .rx
  run := .idle
  rx := []
  clock := 0
  ticks := []
  host := []
  resetIn := []
  trace := []
  draws := 0

end Sys2Proof.Machine
end

