-- ==== Sys2Proof/Machine/Operands.lean ====
section
/-! DEFINITION. What the commands read besides plain registers: the values derived from the configuration (10_state.md R46
to R48), the sizes of the byte arrays (20_memory.md R71), and the resolved receive operands (30_encoding.md R95, R96). -/
namespace Sys2Proof.Machine

/-- `SCHEME` from `CFG_M` and `CFG_SCHEME_REQ` (R46). -/
def effectiveScheme (m : BitVec 16) (req : Scheme) : Scheme :=
  if schemeALimit < m.toNat then .B else req

/-- `CAP` from `CFG_M` and `SCHEME` (R47). -/
def capacity (m : BitVec 16) : Scheme → Nat
  | .A => m.toNat + 5
  | .B => (m.toNat + 4) * 2

/-- The codec of a scheme (R47). -/
def schemeCodec (C : Config) : Scheme → Codec
  | .A => C.codecA
  | .B => C.codecB

/-- `SCHEME`, the effective scheme (R46). -/
def State.scheme (s : State) : Scheme := effectiveScheme s.cfgM s.cfgSchemeReq

/-- `CAP`, the send-size bound and the accumulator's capacity (R47). -/
def State.cap (s : State) : Nat := capacity s.cfgM s.scheme

/-- The effective codec: `DELIM`, `ENC`, `DEC` (R47). -/
def State.codec (C : Config) (s : State) : Codec := schemeCodec C s.scheme

/-- `PHY_RX_MAX`, the longest destuffed frame a receive delivers (R48). -/
def State.phyRxMax (s : State) : Nat := s.cfgM.toNat

/-- `MAC_TX_MAX`, the longest payload MAC_SEND accepts (R48). -/
def State.macTxMax (s : State) : Nat := s.cfgM.toNat

/-- The size of `INBUF`, `ACC` and the transmit scratch (R71). -/
def rawSize (C : Config) : Nat := 2 * (C.maxpMax + 4)

/-- The size of `FRM` and `OUTBUF` (R71). -/
def frameSize (C : Config) : Nat := C.maxpMax

/-- `resolve_blk`: `00` non-blocking, `01` blocking, `10` the configured default, `11` illegal (R95). -/
def resolveBlk (blk : BitVec 2) (s : State) : Option Mode :=
  if blk = 0b00#2 then some .nb
  else if blk = 0b01#2 then some .bl
  else if blk = 0b10#2 then some s.cfgDefblk
  else none

/-- `resolve_tmo`: the configured default, or `ARG1` (R96). -/
def resolveTmo (tdef : Bool) (s : State) : Word := if tdef then s.cfgDeftmo else s.arg1

/-- The time since `t0`, modulo `2^CLK_W` (40_phy_framer.md R151). -/
def elapsed (C : Config) (now t0 : Nat) : Nat :=
  (now + (2 ^ C.clkW - t0 % 2 ^ C.clkW)) % 2 ^ C.clkW

end Sys2Proof.Machine
end

