-- ==== Sys2Proof/Machine/Flags.lean ====
section
/-! DEFINITION. The status codes and how they come about: their numbers (30_encoding.md R104), the outcome of a poll
iteration in each mode (40_phy_framer.md R146), and the source flags (41_mac_layer.md R187). -/
namespace Sys2Proof.Machine

/-- The 8-bit code of a status (R104). -/
def Status.code : Status → BitVec 8
  | .noError => 0x00#8
  | .oversize => 0x01#8
  | .crcError => 0x02#8
  | .decodeError => 0x03#8
  | .encodeError => 0x04#8
  | .timeout => 0x05#8
  | .writeError => 0x06#8
  | .readError => 0x07#8
  | .noData => 0x08#8
  | .errorData => 0x09#8
  | .readErrorSourceBroadcast => 0x0A#8
  | .readErrorSourceSelf => 0x0B#8
  | .unknownError => 0x63#8

/-- The statuses that come with `RET >= 0` (60_exceptions.md R217). -/
def Status.isSuccess : Status → Bool
  | .noError => true
  | .noData => true
  | .readErrorSourceBroadcast => true
  | .readErrorSourceSelf => true
  | .oversize => false
  | .crcError => false
  | .decodeError => false
  | .encodeError => false
  | .timeout => false
  | .writeError => false
  | .readError => false
  | .errorData => false
  | .unknownError => false

/-- The non-blocking column of R146: every case ends the receive. -/
def PollCase.nonBlocking : PollCase → Int × Status
  | .noByte => (0, .noData)
  | .startOfFrame => (0, .noError)
  | .resync => (0, .noError)
  | .accumulate => (0, .noError)
  | .noise => (-1, .errorData)
  | .overflow => (-1, .oversize)
  | .frame n => (n, .noError)
  | .tooLong => (-1, .oversize)

/-- The blocking column of R146: `none` is "continue". -/
def PollCase.blocking : PollCase → Option (Int × Status)
  | .noByte => none
  | .startOfFrame => none
  | .resync => none
  | .accumulate => none
  | .noise => none
  | .overflow => some (-1, .oversize)
  | .frame n => some (n, .noError)
  | .tooLong => some (-1, .oversize)

/-- The status of an accepted frame from its source address; `Self` is tested first (R187). -/
def sourceStatus (self src : Byte) : Status :=
  if src = self then .readErrorSourceSelf
  else if src = bcast then .readErrorSourceBroadcast
  else .noError

end Sys2Proof.Machine
end

