-- ==== Sys2Proof/Machine/Ops.lean ====
section
/-! DEFINITION. The operations every command is made of: byte arrays (20_memory.md R71), the interface primitives of
00_scope.md R12, the draws, and the one way a command ends, `finish`. The block has no exceptions to take (60_exceptions.md
R218): an illegal command ends through `illegal` below, a failed one through `finish(-1, st)`. -/
namespace Sys2Proof.Machine

/-! Byte arrays. -/

/-- What an index of a byte array that nothing has written reads as (assumption 2). -/
def Memory.unlisted : Byte := 0#8

/-- `A[i]` (R11). -/
def Memory.read : Memory → Nat → Byte
  | [], _ => Memory.unlisted
  | (k, v) :: m, i => if k = i then v else Memory.read m i

/-- `A[i] <- b` (R11), in canonical form. -/
def Memory.write : Memory → Nat → Byte → Memory
  | [], i, b => if b = Memory.unlisted then [] else [(i, b)]
  | (k, v) :: m, i, b =>
    if i < k then (if b = Memory.unlisted then (k, v) :: m else (i, b) :: (k, v) :: m)
    else if i = k then (if b = Memory.unlisted then m else (i, b) :: m)
    else (k, v) :: Memory.write m i b

/-- `A[i..i+n)` (R10). -/
def Memory.readBytes (m : Memory) : Nat → Nat → Bytes
  | _, 0 => []
  | i, n + 1 => m.read i :: Memory.readBytes m (i + 1) n

/-- `A[i..i+len(bs)) <- bs`; every other index keeps its byte. -/
def Memory.writeBytes : Memory → Nat → Bytes → Memory
  | m, _, [] => m
  | m, i, b :: bs => Memory.writeBytes (m.write i b) (i + 1) bs

/-- Canonical from index `lo` up: indices strictly rising, no byte equal to what an unlisted index reads as. -/
def Memory.wfFrom : Nat → Memory → Bool
  | _, [] => true
  | lo, (k, v) :: m => decide (lo ≤ k) && v != Memory.unlisted && Memory.wfFrom (k + 1) m

/-- The canonical form of a byte array. -/
def Memory.wf (m : Memory) : Bool := Memory.wfFrom 0 m

/-- Nothing is listed at or past `size`. -/
def Memory.within (size : Nat) (m : Memory) : Bool := m.all fun c => decide (c.1 < size)

/-! The primitives of R12. Each leaves its event at the end of the trace (R78). -/

/-- Leave an event in the trace. -/
def emit (e : Event) (s : State) : State := { s with trace := s.trace ++ [e] }

/-- `RxPoll()`: no byte, or the oldest byte not yet consumed, which it consumes (R12, R31, R76). -/
def rxPoll (s : State) : Option Byte × State :=
  match s.rx with
  | [] => (none, emit (.rxPoll none) s)
  | a :: rest => (a, emit (.rxPoll a) { s with rx := rest })

/-- The clock when it is next read. -/
def State.clockNext (s : State) : Nat := s.clock + s.ticks.headD 0

/-- What the next `Now()` answers (R34). -/
def State.nowNext (C : Config) (s : State) : Nat := s.clockNext % 2 ^ C.clkW

/-- `Now()`: the millisecond clock modulo `2^CLK_W` (R12, R34). -/
def now (C : Config) (s : State) : Nat × State :=
  (s.nowNext C, emit (.now (s.nowNext C)) { s with clock := s.clockNext, ticks := s.ticks.tail })

/-- `TxByte(b)` (R12, R32). -/
def txByte (b : Byte) (s : State) : State := emit (.txByte b) s

/-- `TxByte` for each byte, in index order (R72, R75). -/
def txBytes : Bytes → State → State
  | [], s => s
  | b :: bs, s => txBytes bs (txByte b s)

/-- `TxFlush()` (R12, R79). -/
def txFlush (s : State) : State := emit .txFlush s

/-- `DirSet(d)` drives the direction output (R12, R33). -/
def dirSet (d : Dir) (s : State) : State := emit (.dirSet d) { s with dir := d }

/-- `Wait(T_PRE)` and `Wait(T_POST)` (R12). -/
def wait (C : Config) (which : Turnaround) (s : State) : State :=
  match which with
  | .pre => emit (.wait .pre C.tPre) s
  | .post => emit (.wait .post C.tPost) s

/-! The end of a command. -/

/-- `finish(ret, st)`: the result is presented and the block is idle again (R12, R36). DESIGN CHOICE: `FRM` keeps its bytes
until it is written again, where R57 leaves its contents between commands unspecified (assumption 21). -/
def finish (ret : Int) (st : Status) (s : State) : State :=
  emit (.finish ret st) { s with ret := BitVec.ofInt 32 ret, rstat := st, run := .idle }

/-- The end of an illegal command: `-1`, `UnknownError`, and no other state changed (42_control.md R205). -/
def illegal (s : State) : State := finish (-1) .unknownError s

/-- The end of a MAC command: its status, then the result with that status (R36, R50). -/
def macFinish (ret : Int) (st : Status) (s : State) : State := finish ret st { s with macSt := st }

/-! The buffer a receive delivers into. -/

/-- `dest` (40_phy_framer.md R144). -/
def State.dest (s : State) : Dest → Memory
  | .outbuf => s.outbuf
  | .frm => s.frm

/-- `dest`, given new contents (40_phy_framer.md R144). -/
def State.setDest (d : Dest) (m : Memory) (s : State) : State :=
  match d with
  | .outbuf => { s with outbuf := m }
  | .frm => { s with frm := m }

/-! Draws (R12): the value is the configuration's uninterpreted answer for the number of draws made so far. -/

/-- The contents of a byte array of `size` bytes after the `k`-th draw of it: any contents. -/
def drawnArray (C : Config) (size k : Nat) : Memory := Memory.writeBytes [] 0 ((C.drawBytes k).take size)

/-- `dest[0..len(dest)) <- Draw` (40_phy_framer.md R141). -/
def drawDest (C : Config) (d : Dest) (s : State) : State :=
  let contents := drawnArray C (frameSize C) s.draws
  emit (.draw (.array contents)) { s.setDest d contents with draws := s.draws + 1 }

/-- `ACC`, `FRM`, `OUTBUF` and `OUTSRC` with any value (42_control.md R202, 10_state.md R59). -/
def drawBuffers (C : Config) (s : State) : State :=
  { s with
    acc := drawnArray C (rawSize C) s.draws
    frm := drawnArray C (frameSize C) (s.draws + 1)
    outbuf := drawnArray C (frameSize C) (s.draws + 2)
    outsrc := C.drawByte (s.draws + 3)
    draws := s.draws + 4 }

/-- The events of `ACC, FRM, OUTBUF, OUTSRC <- Draw(any)` (42_control.md R206, R12), with the values just drawn. -/
def emitBufferDraws (s : State) : State :=
  { s with trace := s.trace ++
      [.draw (.array s.acc), .draw (.array s.frm), .draw (.array s.outbuf), .draw (.byte s.outsrc)] }

end Sys2Proof.Machine
end

