-- ==== Sys2Proof/Machine/Control.lean ====
section
/-! DEFINITION. INIT (42_control.md) and the reset input (70_reset_and_hazards.md R245, R246). -/
namespace Sys2Proof.Machine

/-- The dynamic state as INIT and reset leave it: accumulation and both statuses cleared, the buffers drawn (R202). -/
def clearDynamic (C : Config) (s : State) : State :=
  drawBuffers C { s with
    sync := false
    len := 0
    taint := false
    txScratch := []
    phySt := .noError
    macSt := .noError }

/-- INIT: the value check, the configuration, the dynamic state, the result (R201 to R206). -/
def initCommand (C : Config) (self dirid : Byte) (schreq : Scheme) (defblk : Mode) (s : State) : State :=
  if C.maxpMax < s.arg0.toNat then illegal s
  else
    finish 0 .noError (emitBufferDraws (clearDynamic C { s with
      cfgSelf := self
      cfgM := s.arg0.setWidth 16
      cfgSchemeReq := schreq
      cfgDirid := dirid
      cfgDefblk := defblk
      cfgDeftmo := s.arg1 }))

/-- INIT (R206). -/
def execInit (self dirid : Byte) (schreq : Scheme) (defblk : Mode) (s : State) : Host.Outcome State Fault Refusal :=
  .next (initCommand Config.chosen self dirid schreq defblk s)

/-- The reset input asserted: every piece of state at its reset value, the buffers at any value; no event, no byte
consumed; a command in progress is abandoned (R245, R246, 10_state.md R59). The inputs, the command port and `INBUF` are
the environment's and the host's and stay (DESIGN CHOICE, assumption 6). -/
def resetBlock (C : Config) (s : State) : State :=
  clearDynamic C { s with
    cfgSelf := State.reset.cfgSelf
    cfgM := State.reset.cfgM
    cfgSchemeReq := State.reset.cfgSchemeReq
    cfgDirid := State.reset.cfgDirid
    cfgDefblk := State.reset.cfgDefblk
    cfgDeftmo := State.reset.cfgDeftmo
    ret := State.reset.ret
    rstat := State.reset.rstat
    dir := State.reset.dir
    run := State.reset.run }

end Sys2Proof.Machine
end

