-- ==== Sys2Proof/Machine/Phy.lean ====
section
/-! DEFINITION. The PhyFramer (40_phy_framer.md): `phy_send` and PHY_SEND, the poll iteration, `phy_receive` one iteration
at a time, and PHY_RECV. -/
namespace Sys2Proof.Machine

/-! ## Sending -/

/-- Direction to transmit and settle, where direction control is on (R126). -/
def turnToTransmit (C : Config) (s : State) : State :=
  if s.cfgDirid = 0#8 then s else wait C .pre (dirSet .tx s)

/-- Tail delay and direction back to receive, where direction control is on (R126). -/
def turnToReceive (C : Config) (s : State) : State :=
  if s.cfgDirid = 0#8 then s else dirSet .rx (wait C .post s)

/-- `emit(E)` of R126, with `E` in the first `n` bytes of the transmit scratch (R71). -/
def emitFrame (C : Config) (n : Nat) (s : State) : State :=
  let s := txByte (s.codec C).delim (turnToTransmit C s)
  let s := txBytes (s.txScratch.readBytes 0 n) s
  turnToReceive C (txFlush (txByte (s.codec C).delim s))

/-- `TAINT <- 1` where a frame is being accumulated (R128). -/
def taintIfSynced (s : State) : State := if s.sync then { s with taint := true } else s

/-- `phy_send` after both checks: taint, the encoding into the scratch, emission, status; the scratch holds nothing
afterwards (R122 to R128, R71). -/
def phyTransmit (C : Config) (e : Bytes) (s : State) : State :=
  let s := taintIfSynced s
  let s := emitFrame C e.length { s with txScratch := Memory.writeBytes [] 0 e }
  { s with txScratch := [], phySt := .noError }

/-- `phy_send(P)` with its result (R129). -/
def phySend (C : Config) (p : Bytes) (s : State) : (Int × Status) × State :=
  if s.cap < p.length then ((-1, .oversize), { s with phySt := .oversize })
  else
    let e := (s.codec C).enc p
    if s.cap < e.length then ((-1, .oversize), { s with phySt := .oversize })
    else ((e.length, .noError), phyTransmit C e s)

/-- PHY_SEND: the size check on `SIZE` comes before `INBUF` is read (R120, R129). -/
def phySendCommand (C : Config) (size : BitVec 16) (s : State) : State :=
  if s.cap < size.toNat then finish (-1) .oversize { s with phySt := .oversize }
  else
    let r := phySend C (s.inbuf.readBytes 0 size.toNat) s
    finish r.1.1 r.1.2 r.2

/-- PHY_SEND (R129). -/
def execPhySend (size : BitVec 16) (s : State) : Host.Outcome State Fault Refusal :=
  .next (phySendCommand Config.chosen size s)

/-! ## Receiving -/

/-- `SYNC`, `LEN` and `TAINT` cleared, as end of frame and overflow leave them (R139, R141, R142). -/
def dropFrame (s : State) : State := { s with sync := false, len := 0, taint := false }

/-- A delimiter that opens a frame: `SYNC` set, nothing accumulated (R136, R137). -/
def openFrame (s : State) : State := { s with sync := true, len := 0, taint := false }

/-- Deliver a frame `F` into `dest`, where it is not too long (R141). -/
def deliver (C : Config) (d : Dest) (f : Bytes) (s : State) : PollCase × State :=
  if s.phyRxMax < f.length then (.tooLong, drawDest C d s)
  else (.frame f.length, s.setDest d ((s.dest d).writeBytes 0 f))

/-- End of frame, untainted (R141). -/
def endOfFrame (C : Config) (d : Dest) (s : State) : PollCase × State :=
  deliver C d ((s.codec C).dec (s.acc.readBytes 0 s.len)) (dropFrame s)

/-- End of frame, tainted: a draw between `Oversize` and any frame that fits (R142). -/
def endOfFrameTainted (C : Config) (d : Dest) (s : State) : PollCase × State :=
  let s := dropFrame s
  match C.drawFits s.draws with
  | true =>
    let g := (C.drawBytes s.draws).take s.phyRxMax
    (.frame g.length,
      emit (.draw (.frame g)) { s.setDest d ((s.dest d).writeBytes 0 g) with draws := s.draws + 1 })
  | false => (.tooLong, drawDest C d s)

/-- What a received byte does (R135 to R143). -/
def classify (C : Config) (d : Dest) (b : Byte) (s : State) : PollCase × State :=
  if b = (s.codec C).delim then
    if s.sync = false then (.startOfFrame, openFrame s)
    else if s.len = 0 then (.resync, openFrame s)
    else if s.taint = true then endOfFrameTainted C d s
    else endOfFrame C d s
  else if s.sync = false then (.noise, s)
  else if s.cap ≤ s.len then (.overflow, dropFrame s)
  else (.accumulate, { s with acc := s.acc.write s.len b, len := s.len + 1 })

/-- One poll iteration, `phy_poll` (R133, R148). -/
def phyPoll (C : Config) (d : Dest) (s : State) : PollCase × State :=
  match (rxPoll s).1 with
  | none => (.noByte, (rxPoll s).2)
  | some b => classify C d b (rxPoll s).2

/-- `phy_receive` in non-blocking mode: one poll iteration, and the status of its outcome (R131, R145, R153). -/
def phyReceiveNb (C : Config) (d : Dest) (s : State) : (Int × Status) × State :=
  let r := phyPoll C d s
  (r.1.nonBlocking, { r.2 with phySt := r.1.nonBlocking.2 })

/-- One round of the loop of `phy_receive` in blocking mode: the deadline check, then a poll iteration. `none` where the
loop goes on (R132, R145, R152, R153). -/
def phyReceiveRound (C : Config) (d : Dest) (tmo : Word) (t0 : Nat) (s : State) : Option (Int × Status) × State :=
  let n := now C s
  if tmo.toNat < elapsed C n.1 t0 then (some (-1, .timeout), { n.2 with phySt := .timeout })
  else
    let r := phyPoll C d n.2
    match r.1.blocking with
    | some out => (some out, { r.2 with phySt := out.2 })
    | none => (none, r.2)

/-- PHY_RECV: a non-blocking call ends at once; a blocking one reads `t0` and enters its loop (R150, R153). -/
def phyRecvCommand (C : Config) (blk : BitVec 2) (tdef : Bool) (s : State) : State :=
  match resolveBlk blk s with
  | none => illegal s
  | some .nb =>
    let r := phyReceiveNb C .outbuf s
    finish r.1.1 r.1.2 r.2
  | some .bl =>
    let n := now C s
    { n.2 with run := .phyRecv (resolveTmo tdef s) n.1 }

/-- PHY_RECV (R156). -/
def execPhyRecv (blk : BitVec 2) (tdef : Bool) (s : State) : Host.Outcome State Fault Refusal :=
  .next (phyRecvCommand Config.chosen blk tdef s)

/-- One round of a blocking PHY_RECV in progress (R153). -/
def phyRecvRound (C : Config) (tmo : Word) (t0 : Nat) (s : State) : State :=
  let r := phyReceiveRound C .outbuf tmo t0 s
  match r.1 with
  | some out => finish out.1 out.2 r.2
  | none => r.2

end Sys2Proof.Machine
end

