-- ==== Sys2Proof/Machine/Mac.lean ====
section
/-! DEFINITION. The MacLayer (41_mac_layer.md): MAC_SEND, the destination filter and the source flags, and MAC_RECV, whose
blocking loop is one deadline check or one PHY round a step. -/
namespace Sys2Proof.Machine

/-! ## Sending -/

/-- The body of MAC_SEND: `[DST, CFG_SELF] ++ INBUF[0..SIZE)` (R172). -/
def macBody (dst : Byte) (size : BitVec 16) (s : State) : Bytes :=
  dst :: s.cfgSelf :: s.inbuf.readBytes 0 size.toNat

/-- MAC_SEND (R171 to R175). -/
def macSendCommand (C : Config) (dst : Byte) (size : BitVec 16) (s : State) : State :=
  if s.macTxMax < size.toNat then macFinish (-1) .oversize s
  else
    let r := phySend C (macBody dst size s) s
    if r.1.1 ≤ 0 then macFinish (-1) .writeError r.2
    else macFinish size.toNat .noError r.2

/-- MAC_SEND (R175). -/
def execMacSend (dst : Byte) (size : BitVec 16) (s : State) : Host.Outcome State Fault Refusal :=
  .next (macSendCommand Config.chosen dst size s)

/-! ## Receiving -/

/-- The runt test and the destination filter on a frame of `r` bytes in `FRM` (R185, R186). -/
def macAccepts (r : Nat) (s : State) : Bool :=
  decide (2 ≤ r) && (s.frm.read 0 == s.cfgSelf || s.frm.read 0 == bcast)

/-- An accepted frame of `r` bytes: payload, source, source flags (R187, R188). -/
def macAccept (r : Nat) (s : State) : State :=
  let src := s.frm.read 1
  let s := { s with
    outbuf := s.outbuf.writeBytes 0 (s.frm.readBytes 2 (r - 2))
    outsrc := src }
  macFinish ((r - 2 : Nat) : Int) (sourceStatus s.cfgSelf src) s

/-- What a non-blocking MAC_RECV makes of the outcome `r` of its PHY receive (R182, R185 to R188). -/
def macOutcomeNb (r : Int) (s : State) : State :=
  if r ≤ 0 then macFinish (-1) .readError s
  else if macAccepts r.toNat s then macAccept r.toNat s
  else macFinish 0 .noData s

/-- What a blocking MAC_RECV makes of the outcome `(r, pst)` of a PHY receive: `again` is the state in which its loop goes
on (R184 to R188). -/
def macOutcomeBl (again : State) (r : Int) (pst : Status) (s : State) : State :=
  if r < 0 then macFinish (-1) pst s
  else if r = 0 then again
  else if macAccepts r.toNat s then macAccept r.toNat s
  else again

/-- MAC_RECV: a non-blocking call ends at once; a blocking one reads `t0` and enters its loop (R181, R183, R189). -/
def macRecvCommand (C : Config) (blk : BitVec 2) (tdef : Bool) (s : State) : State :=
  match resolveBlk blk s with
  | none => illegal s
  | some .nb =>
    let r := phyReceiveNb C .frm s
    macOutcomeNb r.1.1 r.2
  | some .bl =>
    let n := now C s
    { n.2 with run := .macTop (resolveTmo tdef s) n.1 }

/-- MAC_RECV (R189). -/
def execMacRecv (blk : BitVec 2) (tdef : Bool) (s : State) : Host.Outcome State Fault Refusal :=
  .next (macRecvCommand Config.chosen blk tdef s)

/-- The top of a MAC iteration of a blocking MAC_RECV in progress: its own deadline check (R183). -/
def macTopRound (C : Config) (tmo : Word) (t0 : Nat) (s : State) : State :=
  let n := now C s
  if tmo.toNat < elapsed C n.1 t0 then macFinish (-1) .timeout n.2
  else { n.2 with run := .macPhy tmo t0 }

/-- One round of the PHY receive of a blocking MAC_RECV in progress (R181, R184 to R189). -/
def macPhyRound (C : Config) (tmo : Word) (t0 : Nat) (s : State) : State :=
  let r := phyReceiveRound C .frm tmo t0 s
  match r.1 with
  | some out => macOutcomeBl { r.2 with run := .macTop tmo t0 } out.1 out.2 r.2
  | none => r.2

end Sys2Proof.Machine
end

