-- ==== Sys2Proof/Machine/Dispatch.lean ====
section
/-! DEFINITION. The one dispatch from a command to its meaning (30_encoding.md R91). -/
namespace Sys2Proof.Machine

def exec (i : Instr) (s : State) : Host.Outcome State Fault Refusal :=
  match i with
  | .init self dirid schreq defblk => Sys2Proof.Machine.execInit self dirid schreq defblk s
  | .phySend size => Sys2Proof.Machine.execPhySend size s
  | .phyRecv blk tdef => Sys2Proof.Machine.execPhyRecv blk tdef s
  | .macSend dst size => Sys2Proof.Machine.execMacSend dst size s
  | .macRecv blk tdef => Sys2Proof.Machine.execMacRecv blk tdef s

end Sys2Proof.Machine
end

