-- ==== Sys2Proof/WellFormed.lean ====
section
/-! DEFINITION. Which terms of `Instr` are commands: `BLK = 0b11` is illegal on a receive (30_encoding.md R92, R95);
every other operand value is legal (R93, R94). -/
namespace Sys2Proof

/-- `BLK` is a legal encoding of a blocking mode (R95). -/
def blkLegal (blk : BitVec 2) : Bool := blk != 0b11#2

/-- The command is one that R97 decodes a word to. -/
def Instr.wellFormed : Instr → Bool
  | .init _ _ _ _ => true
  | .phySend _ => true
  | .phyRecv blk _ => blkLegal blk
  | .macSend _ _ => true
  | .macRecv blk _ => blkLegal blk

end Sys2Proof
end

