-- ==== Sys2Proof/Decode.lean ====
section
/-! DEFINITION. Decoding of the command word (30_encoding.md R90 to R98), total on every 32-bit word and refusing by
name, and the encoder written from the same field table. -/
namespace Sys2Proof

/-- Why a word is illegal (R98). -/
inductive DecodeError where
  /-- `OP` is 0 or 6 to 15 (R91). -/
  | reservedOp
  /-- A bit that R90 marks "must be 0" for the operation is set (R92). -/
  | mustBeZero
  /-- `BLK = 0b11` on a receive operation (R95). -/
  | illegalBlk
  deriving DecidableEq, Repr

/-- The scheme a `SCHREQ` bit requests: 0 is A, 1 is B (R93). -/
def Scheme.ofBit (b : BitVec 1) : Scheme := if b = 0#1 then .A else .B

/-- The `SCHREQ` bit of a scheme (R93). -/
def Scheme.bit : Scheme → BitVec 1
  | .A => 0#1
  | .B => 1#1

/-- The mode a `DEFBLK` bit names: 0 is non-blocking, 1 is blocking (R93). -/
def Mode.ofBit (b : BitVec 1) : Mode := if b = 0#1 then .nb else .bl

/-- The `DEFBLK` bit of a mode (R93). -/
def Mode.bit : Mode → BitVec 1
  | .nb => 0#1
  | .bl => 1#1

/-- The `TDEF` bit (R96). -/
def tdefBit (tdef : Bool) : BitVec 1 := if tdef then 1#1 else 0#1

/-- `CMD[31:28]` (R90). -/
def fieldOp (w : Word) : BitVec 4 := w.extractLsb' 28 4
/-- `CMD[27:26]` (R90). -/
def fieldBlk (w : Word) : BitVec 2 := w.extractLsb' 26 2
/-- `CMD[25]` (R90). -/
def fieldTdef (w : Word) : BitVec 1 := w.extractLsb' 25 1
/-- `CMD[23:16]` (R90). -/
def fieldAddr (w : Word) : Byte := w.extractLsb' 16 8
/-- `CMD[15:0]` (R90). -/
def fieldSize (w : Word) : BitVec 16 := w.extractLsb' 0 16
/-- `CMD[15:8]` (R90). -/
def fieldDirid (w : Word) : Byte := w.extractLsb' 8 8
/-- `CMD[1]` (R90). -/
def fieldSchreq (w : Word) : BitVec 1 := w.extractLsb' 1 1
/-- `CMD[0]` (R90). -/
def fieldDefblk (w : Word) : BitVec 1 := w.extractLsb' 0 1

/-- Decoding of an INIT word: `CMD[27:24]` and `CMD[7:2]` must be 0 (R97). -/
def decodeInit (w : Word) : Except DecodeError Instr :=
  if w.extractLsb' 24 4 = 0#4 ∧ w.extractLsb' 2 6 = 0#6 then
    .ok (.init (fieldAddr w) (fieldDirid w) (Scheme.ofBit (fieldSchreq w)) (Mode.ofBit (fieldDefblk w)))
  else .error .mustBeZero

/-- Decoding of a PHY_SEND word: `CMD[27:16]` must be 0 (R97). -/
def decodePhySend (w : Word) : Except DecodeError Instr :=
  if w.extractLsb' 16 12 = 0#12 then .ok (.phySend (fieldSize w)) else .error .mustBeZero

/-- Decoding of a MAC_SEND word: `CMD[27:24]` must be 0 (R97). -/
def decodeMacSend (w : Word) : Except DecodeError Instr :=
  if w.extractLsb' 24 4 = 0#4 then .ok (.macSend (fieldAddr w) (fieldSize w)) else .error .mustBeZero

/-- Decoding of a receive word: `CMD[24:0]` must be 0 and `BLK` must be legal (R97). -/
def decodeRecv (make : BitVec 2 → Bool → Instr) (w : Word) : Except DecodeError Instr :=
  if w.extractLsb' 0 25 = 0#25 then
    if blkLegal (fieldBlk w) then .ok (make (fieldBlk w) (fieldTdef w == 1#1)) else .error .illegalBlk
  else .error .mustBeZero

/-- The decoder (R97): exactly one of the five commands with its operands, or the reason the word is illegal. -/
def decode (w : Word) : Except DecodeError Instr :=
  if fieldOp w = 0x1#4 then decodeInit w
  else if fieldOp w = 0x2#4 then decodePhySend w
  else if fieldOp w = 0x3#4 then decodeRecv .phyRecv w
  else if fieldOp w = 0x4#4 then decodeMacSend w
  else if fieldOp w = 0x5#4 then decodeRecv .macRecv w
  else .error .reservedOp

/-- The command word of a command, field by field from bit 31 down (R90, R91). -/
def encode : Instr → Word
  | .init self dirid schreq defblk => 0x1#4 ++ 0#4 ++ self ++ dirid ++ 0#6 ++ schreq.bit ++ defblk.bit
  | .phySend size => 0x2#4 ++ 0#12 ++ size
  | .phyRecv blk tdef => 0x3#4 ++ blk ++ tdefBit tdef ++ 0#25
  | .macSend dst size => 0x4#4 ++ 0#4 ++ dst ++ size
  | .macRecv blk tdef => 0x5#4 ++ blk ++ tdefBit tdef ++ 0#25

/-- What the decoder reads from a word given as the opcode table numbers its bits; bits from `nbits` up are 0. -/
def decodeTableWord (nbits w : Nat) : Option Instr :=
  match decode (BitVec.ofNat 32 (w % 2 ^ nbits)) with
  | .ok i => some i
  | .error _ => none

end Sys2Proof
end

