-- ==== Sys2Proof/Machine/Engine.lean ====
section
/-! DEFINITION. One step of the machine around a command's meaning: the reset input, the receive in progress, the host's
next action, and the decoding of a presented command (10_state.md R35, 70_reset_and_hazards.md R245, R249). Everything is
a function of the configuration, so that the same machine runs in the reference instance too. -/
namespace Sys2Proof.Machine

/-- A command's effect in a block built with the configuration `C`. -/
def command (C : Config) (i : Instr) (s : State) : State :=
  match i with
  | .init self dirid schreq defblk => initCommand C self dirid schreq defblk s
  | .phySend size => phySendCommand C size s
  | .phyRecv blk tdef => phyRecvCommand C blk tdef s
  | .macSend dst size => macSendCommand C dst size s
  | .macRecv blk tdef => macRecvCommand C blk tdef s

/-- `exec` in a block built with the configuration `C`. -/
def execWith (C : Config) (i : Instr) (s : State) : Host.Outcome State Fault Refusal := .next (command C i s)

/-- One round of the blocking receive in progress; an idle block has none. -/
def receiveRound (C : Config) (s : State) : State :=
  match s.run with
  | .idle => s
  | .phyRecv tmo t0 => phyRecvRound C tmo t0 s
  | .macTop tmo t0 => macTopRound C tmo t0 s
  | .macPhy tmo t0 => macPhyRound C tmo t0 s

/-- The command port takes a command and its argument words (R35). -/
def latch (cmd arg0 arg1 : Word) (s : State) : State := { s with cmd := cmd, arg0 := arg0, arg1 := arg1 }

/-- The host writes the beginning of `INBUF`, as far as the array goes (R38, R71). -/
def hostWrite (C : Config) (bytes : Bytes) (s : State) : State :=
  { s with inbuf := s.inbuf.writeBytes 0 (bytes.take (rawSize C)) }

/-- What an idle block does: it waits where the host does nothing, lets the host write, or takes the presented command,
which it decodes and runs with `run`, or ends as illegal (R35, R97, R205). -/
def idleStep (C : Config) (run : Instr → State → Host.Outcome State Fault Refusal) (s : State) :
    Host.Outcome State Fault Refusal :=
  match s.host with
  | [] => .next s
  | .writeInbuf bytes :: rest => .next (hostWrite C bytes { s with host := rest })
  | .command cmd arg0 arg1 :: rest =>
    match decode cmd with
    | .ok i => run i (latch cmd arg0 arg1 { s with host := rest })
    | .error _ => .next (illegal (latch cmd arg0 arg1 { s with host := rest }))

/-- The reset input during this step. -/
def State.resetNow (s : State) : ResetInput := s.resetIn.headD .released

/-- Whether the reset input is asserted in this step. -/
def State.resetAsserted (s : State) : Bool := s.resetNow != .released

/-- The state once this step has sampled the reset input. -/
def State.sampled (s : State) : State := { s with resetIn := s.resetIn.tail }

/-- One step without reset, with `run` for the meaning of a command: a command in progress goes on, and no other is looked
at before it has ended (R249). -/
def unresetStep (C : Config) (run : Instr → State → Host.Outcome State Fault Refusal) (s : State) :
    Host.Outcome State Fault Refusal :=
  match s.run with
  | .idle => idleStep C run s
  | .phyRecv _ _ => .next (receiveRound C s)
  | .macTop _ _ => .next (receiveRound C s)
  | .macPhy _ _ => .next (receiveRound C s)

/-- The environment once the block has performed these events: each poll has consumed its answer, each clock read has
advanced the clock, and every event is in the trace. -/
def replay : List Event → State → State
  | [], s => s
  | .rxPoll a :: es, s => replay es (emit (.rxPoll a) { s with rx := s.rx.tail })
  | .now n :: es, s => replay es (emit (.now n) { s with clock := s.clockNext, ticks := s.ticks.tail })
  | .txByte b :: es, s => replay es (emit (.txByte b) s)
  | .txFlush :: es, s => replay es (emit .txFlush s)
  | .dirSet d :: es, s => replay es (emit (.dirSet d) s)
  | .wait which duration :: es, s => replay es (emit (.wait which duration) s)
  | .draw value :: es, s => replay es (emit (.draw value) s)
  | .finish ret st :: es, s => replay es (emit (.finish ret st) s)

/-- The state that reset finds after `k` events of the step that leads from `s` to `t` without it. The host's action has
been taken; what the block's own registers hold does not matter, since reset overwrites them. -/
def interrupted (k : Nat) (s t : State) : State :=
  { replay ((t.trace.drop s.trace.length).take k) s with
    host := t.host, cmd := t.cmd, arg0 := t.arg0, arg1 := t.arg1, inbuf := t.inbuf, draws := t.draws }

/-- A step in which reset comes after `k` events: a send, a receive or an INIT is cut there, and no later event of it
happens (70_reset_and_hazards.md R245, R246). -/
def resetAfter (C : Config) (k : Nat) (s : State) (o : Host.Outcome State Fault Refusal) :
    Host.Outcome State Fault Refusal :=
  match o with
  | .next t => .next (resetBlock C (interrupted k s t))
  | .fault r => .fault r
  | .refused r => .refused r

/-- One step: reset whenever it is asserted, before the step or after any of its events (R245). -/
def stepVia (C : Config) (run : Instr → State → Host.Outcome State Fault Refusal) (s : State) :
    Host.Outcome State Fault Refusal :=
  match s.resetNow with
  | .released => unresetStep C run s.sampled
  | .atStart => .next (resetBlock C s.sampled)
  | .after k => resetAfter C k s.sampled (unresetStep C run s.sampled)

/-- `step` in a block built with the configuration `C`. -/
def stepWith (C : Config) (s : State) : Host.Outcome State Fault Refusal := stepVia C (execWith C) s

/-- `n` steps in a block built with the configuration `C`, stopping at the first fault or refusal. -/
def runWith (C : Config) : Nat → State → Host.Outcome State Fault Refusal
  | 0, s => .next s
  | n + 1, s =>
    match stepWith C s with
    | .next t => runWith C n t
    | .fault r => .fault r
    | .refused r => .refused r

/-- The block idle, with the command word `w` presented (`ARG0` and `ARG1` zero) before what the host does next, and the
reset input not asserted at the next step. -/
def presentWord (w : Word) (s : State) : State :=
  { s with run := .idle, host := .command w 0#32 0#32 :: s.host, resetIn := .released :: s.resetIn }

end Sys2Proof.Machine
end

