-- ==== Sys2Proof/Machine/Step.lean ====
section
/-! DEFINITION. One step of the block, and how the next command is put before it. -/
namespace Sys2Proof.Machine

/-- One step of the block of this package: `exec` inside what Engine.lean puts around a command. -/
def step (s : State) : Host.Outcome State Fault Refusal := stepVia Config.chosen exec s

/-- `s` with a command word, given as the opcode table numbers its bits, presented at the command port. -/
def State.withFetchWord (s : State) (nbits w : Nat) : State := presentWord (BitVec.ofNat 32 (w % 2 ^ nbits)) s

end Sys2Proof.Machine
end

