-- ==== Sys2Proof/Machine/Assembler.lean ====
section
/-! DEFINITION. The assembler syntax of 30_encoding.md R99 as a type of lines, and what each line gives the host to do:
the words of one command, or a write of `INBUF`. -/
namespace Sys2Proof.Machine

/-- `NB`, `BL` or `DEF` in a receive (R99). -/
inductive AsmMode where
  | nb
  | bl
  | dflt
  deriving DecidableEq, Repr

/-- The timeout of a receive: omitted, `DEF`, or a number of milliseconds (R99). -/
inductive AsmTimeout where
  | omitted
  | dflt
  | ms (n : Word)
  deriving DecidableEq, Repr

/-- One line of the assembler (R99), the pseudo-commands among them. -/
inductive AsmLine where
  | init (self dir : Byte) (scheme : Scheme) (defblk : Mode) (maxp deftmo : Word)
  | phySend (size : BitVec 16)
  | phyRecv (mode : AsmMode) (tmo : AsmTimeout)
  | macSend (dst : Byte) (size : BitVec 16)
  | macRecv (mode : AsmMode) (tmo : AsmTimeout)
  /-- `INBUF <- [b0, b1, ...]`. -/
  | inbuf (bytes : Bytes)
  | phyPoll
  | macPoll
  | macBcast (size : BitVec 16)
  | reset
  deriving DecidableEq, Repr

/-- `BLK` of a mode word (R99). -/
def AsmMode.blk : AsmMode → BitVec 2
  | .nb => 0b00#2
  | .bl => 0b01#2
  | .dflt => 0b10#2

/-- Whether a timeout sets `TDEF` (R99). -/
def AsmTimeout.tdef : AsmTimeout → Bool
  | .omitted => true
  | .dflt => true
  | .ms _ => false

/-- `ARG1` of a timeout; ignored, and 0 here, where `TDEF` is set (R99). -/
def AsmTimeout.arg1 : AsmTimeout → Word
  | .omitted => 0#32
  | .dflt => 0#32
  | .ms n => n

/-- The pseudo-commands expanded; every other line stays (R99). -/
def AsmLine.expand : AsmLine → AsmLine
  | .phyPoll => .phyRecv .nb .omitted
  | .macPoll => .macRecv .nb .omitted
  | .macBcast size => .macSend 0xFF#8 size
  | .reset => .init 0#8 0#8 .B .nb 64#32 1000#32
  | .init self dir scheme defblk maxp deftmo => .init self dir scheme defblk maxp deftmo
  | .phySend size => .phySend size
  | .phyRecv mode tmo => .phyRecv mode tmo
  | .macSend dst size => .macSend dst size
  | .macRecv mode tmo => .macRecv mode tmo
  | .inbuf bytes => .inbuf bytes

/-- The command of a basic line with its two argument words; none for an `INBUF` line and for a pseudo-command, which is
expanded first. -/
def AsmLine.basic : AsmLine → Option (Instr × Word × Word)
  | .init self dir scheme defblk maxp deftmo => some (.init self dir scheme defblk, maxp, deftmo)
  | .phySend size => some (.phySend size, 0#32, 0#32)
  | .phyRecv mode tmo => some (.phyRecv mode.blk tmo.tdef, 0#32, tmo.arg1)
  | .macSend dst size => some (.macSend dst size, 0#32, 0#32)
  | .macRecv mode tmo => some (.macRecv mode.blk tmo.tdef, 0#32, tmo.arg1)
  | .inbuf _ => none
  | .phyPoll => none
  | .macPoll => none
  | .macBcast _ => none
  | .reset => none

/-- What the host does for one line (R99). -/
def AsmLine.assemble (l : AsmLine) : List HostAction :=
  match l with
  | .inbuf bytes => [.writeInbuf bytes]
  | _ =>
    match l.expand.basic with
    | some (i, a0, a1) => [.command (encode i) a0 a1]
    | none => []

/-- What the host does for a program: its lines in order (95_test_vectors.md section 3). -/
def assembleProgram (ls : List AsmLine) : List HostAction := (ls.map AsmLine.assemble).flatten

end Sys2Proof.Machine
end

