-- ==== Sys2Proof/Machine/Pseudocode.lean ====
section
/-! DEFINITION. The loops of a blocking receive as the spec writes them (40_phy_framer.md R153, 41_mac_layer.md R189), with
a bound on the rounds in place of "loop". The step does not use them: it runs one round at a time, and a statement holds
the two against each other. -/
namespace Sys2Proof.Machine

/-- `phy_receive(BL, T, t0, dest)` (R153); none where the bound ends it. -/
def phyReceiveLoop (C : Config) (d : Dest) (tmo : Word) (t0 : Nat) : Nat → State → Option ((Int × Status) × State)
  | 0, _ => none
  | bound + 1, s =>
    let n := now C s
    if tmo.toNat < elapsed C n.1 t0 then some ((-1, .timeout), { n.2 with phySt := .timeout })
    else
      let r := phyPoll C d n.2
      match r.1.blocking with
      | some (ret, st) => some ((ret, st), { r.2 with phySt := st })
      | none => phyReceiveLoop C d tmo t0 bound r.2

/-- The loop of MAC_RECV in blocking mode (R189), each `phy_receive` bounded by `inner`; none where a bound ends it. -/
def macReceiveLoop (C : Config) (tmo : Word) (t0 : Nat) (inner : Nat) : Nat → State → Option State
  | 0, _ => none
  | bound + 1, s =>
    let n := now C s
    if tmo.toNat < elapsed C n.1 t0 then some (finish (-1) .timeout { n.2 with macSt := .timeout })
    else
      match phyReceiveLoop C .frm tmo t0 inner n.2 with
      | none => none
      | some ((r, pst), u) =>
        if r ≤ 0 then
          if r < 0 then some (finish (-1) pst { u with macSt := pst })
          else macReceiveLoop C tmo t0 inner bound u
        else if 2 ≤ r ∧ (u.frm.read 0 = u.cfgSelf ∨ u.frm.read 0 = 0xFF#8) then
          let src := u.frm.read 1
          let st := if src = u.cfgSelf then .readErrorSourceSelf
            else if src = 0xFF#8 then .readErrorSourceBroadcast
            else .noError
          some (finish (r - 2) st { u with
            outbuf := u.outbuf.writeBytes 0 (u.frm.readBytes 2 (r.toNat - 2)), outsrc := src, macSt := st })
        else macReceiveLoop C tmo t0 inner bound u

end Sys2Proof.Machine
end

