-- ==== Sys2Proof/Safety.lean ====
section
/-! DEFINITION. What a safe run of the block is, and the terms claims are made in: the invariants of 10_state.md R56 and of
the byte arrays, the statuses each register can hold (30_encoding.md R104), the bytes no rule reads (10_state.md R54,
R57), and what a block answers, for the block of this package and for a block built with any configuration. -/
namespace Sys2Proof.Machine

/-! ## What a block answers -/

/-- A block built with `C` answers the command `i` in the state `s` with the next state `t`; where `C` is the
configuration of the block of this package, that is what `exec` answers. -/
def Answers (C : Config) (i : Instr) (s t : State) : Prop :=
  execWith C i s = .next t ∧ (C = Config.chosen → exec i s = .next t)

/-- A block built with `C` steps from `s` to `t`; where `C` is the configuration of the block of this package, that is
what `step` answers. -/
def StepsTo (C : Config) (s t : State) : Prop :=
  stepWith C s = .next t ∧ (C = Config.chosen → step s = .next t)

/-! ## Invariants -/

/-- The invariants of the receive accumulation state (R56). -/
structure AccumulationInv (s : State) : Prop where
  len_le_cap : s.len ≤ s.cap
  sync_of_len : 0 < s.len → s.sync = true
  sync_of_taint : s.taint = true → s.sync = true

/-- A byte array is in canonical form and inside its size (20_memory.md R71). -/
structure ArrayInv (size : Nat) (m : Memory) : Prop where
  wf : m.wf = true
  within : m.within size = true

/-- What holds of a block whenever a step begins: the accumulation state, the byte arrays inside their sizes, the legal
range of `CFG_M` (R41), nothing in the transmit scratch (20_memory.md R71), and `DIR = RX` between commands (R33). -/
structure Inv (C : Config) (s : State) : Prop where
  accumulation : AccumulationInv s
  cfgM_le : s.cfgM.toNat ≤ C.maxpMax
  acc : ArrayInv (rawSize C) s.acc
  inbuf : ArrayInv (rawSize C) s.inbuf
  frm : ArrayInv (frameSize C) s.frm
  outbuf : ArrayInv (frameSize C) s.outbuf
  txScratch : s.txScratch = []
  dir : s.dir = .rx

/-- The codes the block writes to `PHY_ST` (R104). -/
def phyStatuses : List Status := [.noError, .oversize, .timeout, .noData, .errorData]

/-- The codes the block writes to `MAC_ST` (R104). -/
def macStatuses : List Status :=
  [.noError, .oversize, .timeout, .writeError, .readError, .noData, .readErrorSourceBroadcast, .readErrorSourceSelf]

/-- Every status register holds a code the block produces in it (R104). -/
structure StatusInv (s : State) : Prop where
  phySt : s.phySt ∈ phyStatuses
  macSt : s.macSt ∈ macStatuses
  rstat : s.rstat ∈ phyStatuses ++ macStatuses ++ [.unknownError]

/-! ## Bytes no rule reads -/

/-- Two states that differ at most in bytes no rule reads: `ACC[i]` for `i >= LEN` (R54), and `FRM` and the transmit
scratch, which hold nothing across commands (R57, 20_memory.md R71). -/
def SameButDeadBytes (s t : State) : Prop :=
  t = { s with acc := t.acc, frm := t.frm, txScratch := t.txScratch } ∧
    ∀ i, i < s.len → t.acc.read i = s.acc.read i

/-! ## What a PHY command leaves alone -/

/-- What belongs to the MacLayer, the host and the configuration is the same in `t` as in `s`: `MAC_ST` (R50), `OUTSRC`
(R37), `INBUF` (R38), the configuration registers (R40 to R45), and `FRM`, which keeps its bytes by the model's choice
(R57, assumption 21). -/
structure SameMacSide (s t : State) : Prop where
  macSt : t.macSt = s.macSt
  frm : t.frm = s.frm
  outsrc : t.outsrc = s.outsrc
  inbuf : t.inbuf = s.inbuf
  cfgSelf : t.cfgSelf = s.cfgSelf
  cfgM : t.cfgM = s.cfgM
  cfgSchemeReq : t.cfgSchemeReq = s.cfgSchemeReq
  cfgDirid : t.cfgDirid = s.cfgDirid
  cfgDefblk : t.cfgDefblk = s.cfgDefblk
  cfgDeftmo : t.cfgDeftmo = s.cfgDeftmo

/-! ## Events -/

/-- The interface events of 20_memory.md R78: all but a draw and the end of a command. -/
def Event.isInterface : Event → Bool
  | .rxPoll _ => true
  | .now _ => true
  | .txByte _ => true
  | .txFlush => true
  | .dirSet _ => true
  | .wait _ _ => true
  | .draw _ => false
  | .finish _ _ => false

/-- The events by which a send puts the encoding `e` on the wire (40_phy_framer.md R126). -/
def frameEvents (C : Config) (s : State) (e : Bytes) : List Event :=
  (if s.cfgDirid = 0#8 then [] else [.dirSet .tx, .wait .pre C.tPre]) ++
  [.txByte (s.codec C).delim] ++ e.map .txByte ++ [.txByte (s.codec C).delim, .txFlush] ++
  (if s.cfgDirid = 0#8 then [] else [.wait .post C.tPost, .dirSet .rx])

/-- The bytes a list of events hands to the Transport, in order. -/
def sentBytes : List Event → Bytes
  | [] => []
  | .txByte b :: es => b :: sentBytes es
  | .rxPoll _ :: es => sentBytes es
  | .now _ :: es => sentBytes es
  | .txFlush :: es => sentBytes es
  | .dirSet _ :: es => sentBytes es
  | .wait _ _ :: es => sentBytes es
  | .draw _ :: es => sentBytes es
  | .finish _ _ :: es => sentBytes es

/-- The answers a list of events got from the receive interface, in order. -/
def polledAnswers : List Event → List (Option Byte)
  | [] => []
  | .rxPoll a :: es => a :: polledAnswers es
  | .txByte _ :: es => polledAnswers es
  | .now _ :: es => polledAnswers es
  | .txFlush :: es => polledAnswers es
  | .dirSet _ :: es => polledAnswers es
  | .wait _ _ :: es => polledAnswers es
  | .draw _ :: es => polledAnswers es
  | .finish _ _ :: es => polledAnswers es

/-- How often a list of events read the clock. -/
def clockReads : List Event → Nat
  | [] => 0
  | .now _ :: es => clockReads es + 1
  | .rxPoll _ :: es => clockReads es
  | .txByte _ :: es => clockReads es
  | .txFlush :: es => clockReads es
  | .dirSet _ :: es => clockReads es
  | .wait _ _ :: es => clockReads es
  | .draw _ :: es => clockReads es
  | .finish _ _ :: es => clockReads es

/-- An event of the transmit interface or of the direction output (R32, R33). -/
def Event.isTransmit : Event → Bool
  | .txByte _ => true
  | .txFlush => true
  | .dirSet _ => true
  | .wait _ _ => true
  | .rxPoll _ => false
  | .now _ => false
  | .draw _ => false
  | .finish _ _ => false

/-! ## The end of a command -/

/-- The state with a command ended by `finish(ret, st)`: the result presented (10_state.md R36), the block idle, and the
event last in the trace (00_scope.md R12). -/
def State.ended (ret : Int) (st : Status) (s : State) : State :=
  { s with ret := BitVec.ofInt 32 ret, rstat := st, run := .idle, trace := s.trace ++ [.finish ret st] }

/-- `t` is what MAC_RECV makes of a frame `g` that its PHY receive delivered, leaving `s`: it accepts a frame of at least
two bytes for this node or for all, and drops any other, which leads to `dropped` (41_mac_layer.md R185 to R188). -/
def FilteredFrame (g : Bytes) (s dropped t : State) : Prop :=
  match g with
  | dst :: src :: payload =>
    (dst ≠ s.cfgSelf ∧ dst ≠ 0xFF#8 ∧ t = dropped) ∨
    ((dst = s.cfgSelf ∨ dst = 0xFF#8) ∧
      ∃ (out : Memory) (st : Status),
        st = (if src = s.cfgSelf then .readErrorSourceSelf else if src = 0xFF#8 then .readErrorSourceBroadcast
          else .noError) ∧
        out.readBytes 0 payload.length = payload ∧ (∀ i, payload.length ≤ i → out.read i = s.outbuf.read i) ∧
        t = State.ended payload.length st { s with outbuf := out, outsrc := src, macSt := st })
  | [_] => t = dropped
  | [] => t = dropped

/-! ## A blocking receive in progress -/

/-- The time since `t0` that a deadline check made now would see (40_phy_framer.md R151). -/
def State.elapsedNext (C : Config) (t0 : Nat) (s : State) : Nat := elapsed C (s.nowNext C) t0

/-- The state after a step has sampled the reset input, not asserted, and read the clock for a deadline check. -/
def State.checked (C : Config) (s : State) : State :=
  { s with
    resetIn := s.resetIn.tail
    clock := s.clockNext
    ticks := s.ticks.tail
    trace := s.trace ++ [.now (s.nowNext C)] }

/-- The state after one more poll of the receive interface. -/
def State.polled (s : State) : State :=
  { s with rx := s.rx.tail, trace := s.trace ++ [.rxPoll (s.rx.headD none)] }

end Sys2Proof.Machine
end

