-- ==== Sys2Proof/Certificates/Slice0/Obligations.lean ====
section
/-! DEFINITION. The statements for the provers. `Answers C i s t` and `StepsTo C s t` (Safety.lean) speak of a block built
with any configuration `C` and, where `C` is `Config.chosen`, of `Sys2Proof.Machine.exec` and `Sys2Proof.Machine.step`.
Every statement holds for every configuration, so for every codec that meets R8 and for every draw (00_scope.md R12).
`State.ended ret st s` (Safety.lean) is `s` with the result `ret`, `st` presented, the block idle and the event
`finish(ret, st)` last in the trace (R12). The interface events of which a rule says that none is emitted are the six of
20_memory.md R78, so a draw or an end may be left (assumption 11). Where a statement says what the whole next state is, the
bytes of `FRM` that it keeps are the model's choice between commands (R57, assumption 21). -/
open Sys2Proof Sys2Proof.Machine

/-! ## Encoding -/

/-- Words written out from the fields of 30_encoding.md R90 and R91, one or more for each command
(95_test_vectors.md section 2.6). -/
def Obligations.WrittenWordsDecodeToTheirCommands : Prop :=
  decode 0x10010501#32 = .ok (.init 0x01#8 0x05#8 .A .bl) ∧
  decode 0x10020002#32 = .ok (.init 0x02#8 0x00#8 .B .nb) ∧
  decode 0x2000FFFF#32 = .ok (.phySend 65535#16) ∧
  decode 0x34000000#32 = .ok (.phyRecv 0b01#2 false) ∧
  decode 0x3A000000#32 = .ok (.phyRecv 0b10#2 true) ∧
  decode 0x40030002#32 = .ok (.macSend 0x03#8 2#16) ∧
  decode 0x52000000#32 = .ok (.macRecv 0b00#2 true)

/-- Decoding inverts encoding on every well-formed command, every operand at every value (R90, R97). -/
def Obligations.DecodeInvertsEncode : Prop :=
  ∀ i : Instr, i.wellFormed = true → decode (encode i) = .ok i

/-- A word that decodes has exactly one meaning: it is the encoding of the command it decodes to, which is well formed, so
no bit of it is dropped (R97). -/
def Obligations.EncodeInvertsDecode : Prop :=
  ∀ (w : Word) (i : Instr), decode w = .ok i → i.wellFormed = true ∧ encode i = w

/-- R92: the legal words are exactly those of the five masks, and every other word is illegal. -/
def Obligations.LegalWordsAreThoseOfTheMasks : Prop :=
  ∀ w : Word,
    (∃ i, decode w = .ok i) ↔
      (w &&& 0xFF0000FC#32 = 0x10000000#32 ∨
       w &&& 0xFFFF0000#32 = 0x20000000#32 ∨
       (w &&& 0xF1FFFFFF#32 = 0x30000000#32 ∧ w &&& 0x0C000000#32 ≠ 0x0C000000#32) ∨
       w &&& 0xFF000000#32 = 0x40000000#32 ∨
       (w &&& 0xF1FFFFFF#32 = 0x50000000#32 ∧ w &&& 0x0C000000#32 ≠ 0x0C000000#32))

/-- R99: what the pseudo-commands stand for, and the words of some lines (95_test_vectors.md section 2.6). Where that table
says that an argument word is ignored, its zero is the model's choice (assumption 15). -/
def Obligations.AssemblerLinesHaveTheirWords : Prop :=
  AsmLine.phyPoll.assemble = (AsmLine.phyRecv .nb .omitted).assemble ∧
  AsmLine.macPoll.assemble = (AsmLine.macRecv .nb .omitted).assemble ∧
  (∀ size, (AsmLine.macBcast size).assemble = (AsmLine.macSend 0xFF#8 size).assemble) ∧
  AsmLine.reset.assemble = (AsmLine.init 0#8 0#8 .B .nb 64#32 1000#32).assemble ∧
  AsmLine.phyPoll.assemble = [.command 0x32000000#32 0#32 0#32] ∧
  (AsmLine.phyRecv .bl (.ms 100#32)).assemble = [.command 0x34000000#32 0#32 100#32] ∧
  (AsmLine.phyRecv .dflt .omitted).assemble = [.command 0x3A000000#32 0#32 0#32] ∧
  (AsmLine.macSend 3#8 2#16).assemble = [.command 0x40030002#32 0#32 0#32] ∧
  AsmLine.reset.assemble = [.command 0x10000002#32 64#32 1000#32]

/-! ## The step around a command -/

/-- R35 and R97: when the presented word decodes to `i`, a step of an idle block is `exec` of `i` on the state in which
the command port holds the presented words; the step itself only takes the host's action and samples the reset input. -/
def Obligations.StepRunsTheDecodedCommand : Prop :=
  ∀ (s : State) (cmd arg0 arg1 : Word) (rest : List HostAction) (i : Instr),
    s.resetAsserted = false → s.run = .idle → s.host = .command cmd arg0 arg1 :: rest → decode cmd = .ok i →
    step s = exec i { s with
      resetIn := s.resetIn.tail, host := rest, cmd := cmd, arg0 := arg0, arg1 := arg1 } ∧
    ∀ C : Config, stepWith C s = execWith C i { s with
      resetIn := s.resetIn.tail, host := rest, cmd := cmd, arg0 := arg0, arg1 := arg1 }

/-- R205: a word that decodes to no command, and an INIT with `ARG0 > MAXP_MAX`, end with `-1` and `UnknownError`, change
no other state and leave no event but that end, which is no interface event (assumption 11). The seven words of R207 are such words. -/
def Obligations.IllegalCommandsEndWithUnknownError : Prop :=
  (∀ (C : Config) (s : State) (cmd arg0 arg1 : Word) (rest : List HostAction) (e : DecodeError),
    s.resetAsserted = false → s.run = .idle → s.host = .command cmd arg0 arg1 :: rest → decode cmd = .error e →
    StepsTo C s (State.ended (-1) .unknownError { s with
      resetIn := s.resetIn.tail, host := rest, cmd := cmd, arg0 := arg0, arg1 := arg1 })) ∧
  (∀ (C : Config) (self dirid : Byte) (schreq : Scheme) (defblk : Mode) (s : State),
    C.maxpMax < s.arg0.toNat →
    Answers C (.init self dirid schreq defblk) s (State.ended (-1) .unknownError s)) ∧
  ∀ cmd ∈ [0x00000000#32, 0x60000000#32, 0x3C000000#32, 0x30000001#32, 0x20010000#32, 0x11000000#32, 0x10000004#32],
    ∃ e, decode cmd = .error e

/-- An idle block to which the host presents nothing waits: a step changes no state (R246, R39). That such a wait is a step
at all is the model's choice (assumption 4). -/
def Obligations.IdleBlockWaitsForTheHost : Prop :=
  ∀ (C : Config) (s : State), s.resetAsserted = false → s.run = .idle → s.host = [] →
    StepsTo C s { s with resetIn := s.resetIn.tail }

/-- R38: the host writes the beginning of `INBUF`, and nothing else changes; bytes past the array's end do not exist
(assumption 5). -/
def Obligations.HostWriteFillsInbufOnly : Prop :=
  ∀ (C : Config) (s : State) (bytes : Bytes) (rest : List HostAction),
    s.resetAsserted = false → s.run = .idle → s.host = .writeInbuf bytes :: rest → s.inbuf.wf = true →
    ∃ t, StepsTo C s t ∧ t = { s with resetIn := s.resetIn.tail, host := rest, inbuf := t.inbuf } ∧
      t.inbuf.wf = true ∧
      (bytes.length ≤ 2 * (C.maxpMax + 4) → t.inbuf.readBytes 0 bytes.length = bytes) ∧
      ∀ i, (bytes.length ≤ i ∨ 2 * (C.maxpMax + 4) ≤ i) → t.inbuf.read i = s.inbuf.read i

/-- R249 and R35: while a blocking receive runs no command is taken; and, by R36, `RET` and `RSTAT` keep their values until
it completes. That an early command waits rather than being lost is the model's choice (assumption 9), and so is that a
write of `INBUF` waits too (assumption 5). -/
def Obligations.NoCommandIsTakenWhileOneRuns : Prop :=
  ∀ (C : Config) (s : State), s.resetAsserted = false → s.run ≠ .idle →
    ∃ t, StepsTo C s t ∧ t.host = s.host ∧ t.cmd = s.cmd ∧ t.arg0 = s.arg0 ∧ t.arg1 = s.arg1 ∧ t.inbuf = s.inbuf ∧
      (t.run ≠ .idle → t.ret = s.ret ∧ t.rstat = s.rstat)

/-! ## Reset and configuration -/

/-- R59: the values the spec gives for reset. The byte arrays and `OUTSRC`, to which it gives any value, are not
claimed. -/
def Obligations.ResetStateHoldsTheResetValues : Prop :=
  State.reset.cfgSelf = 0x00#8 ∧ State.reset.cfgM = 64#16 ∧ State.reset.cfgSchemeReq.bit = 1#1 ∧
  State.reset.cfgDirid = 0#8 ∧ State.reset.cfgDefblk.bit = 0#1 ∧ State.reset.cfgDeftmo = 1000#32 ∧
  State.reset.scheme = .B ∧ State.reset.phySt.code = 0#8 ∧ State.reset.macSt.code = 0#8 ∧
  State.reset.sync = false ∧ State.reset.len = 0 ∧ State.reset.taint = false ∧
  State.reset.ret = 0#32 ∧ State.reset.rstat.code = 0#8 ∧ State.reset.dir = .rx

/-- R245 and R246: the reset input, whenever it is asserted, puts every register at its reset value, leaves the byte arrays
and `OUTSRC` at any value, emits no event and consumes no byte, even where a receive was in progress. Asserted as a step
begins, it is all that happens. Asserted after `k` events of a step, it cuts that step there, in the middle of a send too:
the environment has seen those events and no others. That the command port, `INBUF` and the inputs stay, and that a host
action counts as taken once the step has begun, is the model's choice (assumption 6). -/
def Obligations.ResetInputRestoresTheResetValues : Prop :=
  (∀ (C : Config) (s : State), s.resetNow = .atStart →
    ∃ t, StepsTo C s t ∧
      t = { State.reset with
        acc := t.acc, frm := t.frm, outbuf := t.outbuf, outsrc := t.outsrc, draws := t.draws
        inbuf := s.inbuf, cmd := s.cmd, arg0 := s.arg0, arg1 := s.arg1
        rx := s.rx, clock := s.clock, ticks := s.ticks, host := s.host, resetIn := s.resetIn.tail, trace := s.trace } ∧
      ArrayInv (rawSize C) t.acc ∧ ArrayInv (frameSize C) t.frm ∧ ArrayInv (frameSize C) t.outbuf) ∧
  (∀ (C : Config) (s u : State) (k : Nat), s.resetNow = .after k →
    stepWith C { s with resetIn := .released :: s.resetIn.tail } = .next u →
    ∃ events t, u.trace = s.trace ++ events ∧ StepsTo C s t ∧
      t = { State.reset with
        acc := t.acc, frm := t.frm, outbuf := t.outbuf, outsrc := t.outsrc, draws := t.draws
        inbuf := u.inbuf, cmd := u.cmd, arg0 := u.arg0, arg1 := u.arg1, host := u.host
        rx := s.rx.drop (polledAnswers (events.take k)).length
        clock := s.clock + (s.ticks.take (clockReads (events.take k))).sum
        ticks := s.ticks.drop (clockReads (events.take k))
        resetIn := s.resetIn.tail, trace := s.trace ++ events.take k } ∧
      ArrayInv (rawSize C) t.acc ∧ ArrayInv (frameSize C) t.frm ∧ ArrayInv (frameSize C) t.outbuf)

/-- R46 and R47: the effective scheme, its delimiter and codec, and the capacity; the capacity never exceeds the raw
buffers. -/
def Obligations.SchemeAndCapacityFollowFromTheConfiguration : Prop :=
  ∀ (C : Config) (s : State),
    (s.scheme = if 250 < s.cfgM.toNat then .B else if s.cfgSchemeReq.bit = 0#1 then .A else .B) ∧
    (s.scheme = .A → s.cap = s.cfgM.toNat + 5 ∧ s.codec C = C.codecA) ∧
    (s.scheme = .B → s.cap = (s.cfgM.toNat + 4) * 2 ∧ s.codec C = C.codecB) ∧
    (s.cfgM.toNat ≤ C.maxpMax → s.cap ≤ 2 * (C.maxpMax + 4))

/-- R203, with R201 and R202: INIT with a legal `ARG0` completes: the configuration registers take the operands, the
accumulation state and both statuses are cleared, the byte arrays and `OUTSRC` take any value, and nothing else changes. The
events left are the draws of R206 and the end, no interface event of R78 (assumption 11). -/
def Obligations.InitConfiguresAndClears : Prop :=
  ∀ (C : Config) (self dirid : Byte) (schreq : Scheme) (defblk : Mode) (s : State), s.arg0.toNat ≤ C.maxpMax →
    ∃ t, Answers C (.init self dirid schreq defblk) s t ∧ t.cfgM.toNat = s.arg0.toNat ∧
      t = (State.ended 0 .noError { s with
        cfgSelf := self, cfgM := t.cfgM, cfgSchemeReq := schreq, cfgDirid := dirid, cfgDefblk := defblk
        cfgDeftmo := s.arg1
        sync := false, len := 0, taint := false, phySt := .noError, macSt := .noError, txScratch := []
        acc := t.acc, frm := t.frm, outbuf := t.outbuf, outsrc := t.outsrc, draws := t.draws
        trace := s.trace ++
          [.draw (.array t.acc), .draw (.array t.frm), .draw (.array t.outbuf), .draw (.byte t.outsrc)] }) ∧
      ArrayInv (rawSize C) t.acc ∧ ArrayInv (frameSize C) t.frm ∧ ArrayInv (frameSize C) t.outbuf

/-- R202 leaves the byte arrays and `OUTSRC` with any value: for any contents within the sizes there is a block, built
alike but for the draws, whose INIT leaves just those. -/
def Obligations.InitCanLeaveAnyBufferContents : Prop :=
  ∀ (C : Config) (self dirid : Byte) (schreq : Scheme) (defblk : Mode) (s : State) (acc frm outbuf : Bytes) (src : Byte),
    s.arg0.toNat ≤ C.maxpMax → acc.length = rawSize C → frm.length = frameSize C → outbuf.length = frameSize C →
    ∃ (dByte : Nat → Byte) (dBytes : Nat → Bytes) (t : State),
      execWith { C with drawByte := dByte, drawBytes := dBytes } (.init self dirid schreq defblk) s = .next t ∧
      t.acc.readBytes 0 (rawSize C) = acc ∧ t.frm.readBytes 0 (frameSize C) = frm ∧
      t.outbuf.readBytes 0 (frameSize C) = outbuf ∧ t.outsrc = src

/-- All configuration registers are written only by INIT (R201 and the head of 10_state.md section 3), and by reset: a
step that writes one runs an INIT or samples an asserted reset input. -/
def Obligations.OnlyInitAndResetWriteTheConfiguration : Prop :=
  ∀ (C : Config) (s t : State), stepWith C s = .next t →
    (t.cfgSelf = s.cfgSelf ∧ t.cfgM = s.cfgM ∧ t.cfgSchemeReq = s.cfgSchemeReq ∧ t.cfgDirid = s.cfgDirid ∧
      t.cfgDefblk = s.cfgDefblk ∧ t.cfgDeftmo = s.cfgDeftmo) ∨
    s.resetAsserted = true ∨
    ∃ cmd arg0 arg1 rest self dirid schreq defblk,
      s.run = .idle ∧ s.host = .command cmd arg0 arg1 :: rest ∧ decode cmd = .ok (.init self dirid schreq defblk)

/-! ## PHY_SEND -/

/-- R121: a payload longer than `CAP` is refused with `Oversize`, and nothing else changes. -/
def Obligations.PhySendRefusesPayloadLongerThanCap : Prop :=
  ∀ (C : Config) (size : BitVec 16) (s : State),
    (match s.scheme with
      | .A => s.cfgM.toNat + 5
      | .B => (s.cfgM.toNat + 4) * 2) < size.toNat →
    Answers C (.phySend size) s (State.ended (-1) .oversize { s with
      phySt := .oversize })

/-- R123: a payload that fits but whose encoding is longer than `CAP` is refused with `Oversize`, and nothing else
changes. -/
def Obligations.PhySendRefusesEncodingLongerThanCap : Prop :=
  ∀ (C : Config) (size : BitVec 16) (s : State), size.toNat ≤ s.cap →
    s.cap < ((s.codec C).enc (s.inbuf.readBytes 0 size.toNat)).length →
    Answers C (.phySend size) s (State.ended (-1) .oversize { s with
      phySt := .oversize })

/-- R124 and R126: a payload that passes both checks is transmitted by exactly the events of R126, in that order, and the
command returns the length of the encoding; `TAINT` is set where `SYNC` was (R128), and nothing else changes but that
`DIR` is back at `RX` where direction control is on. -/
def Obligations.PhySendTransmitsOneFrame : Prop :=
  ∀ (C : Config) (size : BitVec 16) (s : State) (e : Bytes), size.toNat ≤ s.cap →
    e = (s.codec C).enc (s.inbuf.readBytes 0 size.toNat) → e.length ≤ s.cap →
    Answers C (.phySend size) s (State.ended e.length .noError { s with
      trace := s.trace ++
        ((if s.cfgDirid = 0#8 then [] else [.dirSet .tx, .wait .pre C.tPre]) ++
          [.txByte (s.codec C).delim] ++ e.map .txByte ++ [.txByte (s.codec C).delim] ++ [.txFlush] ++
          (if s.cfgDirid = 0#8 then [] else [.wait .post C.tPost, .dirSet .rx]))
      taint := s.taint || s.sync
      dir := if s.cfgDirid = 0#8 then s.dir else .rx
      txScratch := []
      phySt := .noError })

/-- PHY_SEND completes in every state, by one of the three outcomes of R129, and each exactly where the rules say: it
refuses where `SIZE > CAP` (R121) or the encoding of the payload is longer than `CAP` (R123), and everywhere else it hands
over the delimiter, the whole encoding and the delimiter (R125, R126) and returns the encoding's length (R124). -/
def Obligations.PhySendAlwaysCompletes : Prop :=
  ∀ (C : Config) (size : BitVec 16) (s : State) (e : Bytes), e = (s.codec C).enc (s.inbuf.readBytes 0 size.toNat) →
    ∃ t, Answers C (.phySend size) s t ∧ t.run = .idle ∧ t.rstat = t.phySt ∧
      (s.cap < size.toNat ∨ s.cap < e.length →
        t.rstat = .oversize ∧ t.ret = 0xFFFFFFFF#32 ∧ t.trace = s.trace ++ [.finish (-1) .oversize] ∧
        t.taint = s.taint) ∧
      (size.toNat ≤ s.cap ∧ e.length ≤ s.cap →
        t.rstat = .noError ∧ t.ret.toNat = e.length ∧ t.taint = (s.taint || s.sync) ∧
        ∃ events, t.trace = s.trace ++ events ∧
          sentBytes events = (s.codec C).delim :: e ++ [(s.codec C).delim])

/-- R127: whatever its outcome, PHY_SEND, in an idle block with `DIR = RX` and nothing in the transmit scratch, changes
`PHY_ST`, `RET`, `RSTAT` and `TAINT` only, and leaves events of the transmit interface and the direction output only, and
its end. -/
def Obligations.PhySendLeavesTheReceiverAlone : Prop :=
  ∀ (C : Config) (size : BitVec 16) (s : State), s.run = .idle → s.dir = .rx → s.txScratch = [] →
    ∃ t, Answers C (.phySend size) s t ∧
      t = { s with
        phySt := t.phySt, ret := t.ret, rstat := t.rstat, taint := t.taint, trace := t.trace } ∧
      ∃ events, t.trace = s.trace ++ events ++ [.finish t.ret.toInt t.rstat] ∧ ∀ e ∈ events, e.isTransmit = true

/-- R100 and R101, resting on P1 and P2 of R8: what a send hands to the Transport is the delimiter, an encoding that holds
no delimiter and destuffs to the payload, and the delimiter. -/
def Obligations.SentFrameHasDelimitersOnlyAtItsEnds : Prop :=
  ∀ (C : Config) (size : BitVec 16) (s : State), size.toNat ≤ s.cap →
    ((s.codec C).enc (s.inbuf.readBytes 0 size.toNat)).length ≤ s.cap →
    ∃ t events e, Answers C (.phySend size) s t ∧ t.trace = s.trace ++ events ∧
      sentBytes events = (s.codec C).delim :: e ++ [(s.codec C).delim] ∧
      (s.codec C).delim ∉ e ∧ (s.codec C).dec e = s.inbuf.readBytes 0 size.toNat

/-! ## PHY_RECV: the cases of a poll iteration, non-blocking and blocking -/

/-- R134: no byte: no state changes but the result; for PHY_RECV and for a receive of MAC_RECV, in both modes (R182). -/
def Obligations.PollWithoutByteChangesNoState : Prop :=
  ∀ (C : Config) (s : State), s.rx.headD none = none →
    (∀ blk tdef, resolveBlk blk s = some .nb →
      Answers C (.phyRecv blk tdef) s (State.ended 0 .noData { s.polled with
        phySt := .noData }) ∧
      Answers C (.macRecv blk tdef) s (State.ended (-1) .readError { s.polled with
        phySt := .noData, macSt := .readError })) ∧
    (∀ tmo t0, s.resetAsserted = false → (s.run = .phyRecv tmo t0 ∨ s.run = .macPhy tmo t0) →
      s.elapsedNext C t0 ≤ tmo.toNat →
      StepsTo C s (s.checked C).polled)

/-- R136: start of frame, for both receive commands and in both modes (R182). -/
def Obligations.DelimiterOutsideAFrameStartsOne : Prop :=
  ∀ (C : Config) (s : State), s.rx.headD none = some (s.codec C).delim → s.sync = false →
    (∀ blk tdef, resolveBlk blk s = some .nb →
      Answers C (.phyRecv blk tdef) s (State.ended 0 .noError { s.polled with
        sync := true, len := 0, taint := false
        phySt := .noError }) ∧
      Answers C (.macRecv blk tdef) s (State.ended (-1) .readError { s.polled with
        sync := true, len := 0, taint := false
        phySt := .noError, macSt := .readError })) ∧
    (∀ tmo t0, s.resetAsserted = false → (s.run = .phyRecv tmo t0 ∨ s.run = .macPhy tmo t0) →
      s.elapsedNext C t0 ≤ tmo.toNat →
      StepsTo C s { (s.checked C).polled with sync := true, len := 0, taint := false })

/-- R137: resync, for both receive commands and in both modes (R182). -/
def Obligations.DelimiterWithNothingAccumulatedResyncs : Prop :=
  ∀ (C : Config) (s : State), s.rx.headD none = some (s.codec C).delim → s.sync = true → s.len = 0 →
    (∀ blk tdef, resolveBlk blk s = some .nb →
      Answers C (.phyRecv blk tdef) s (State.ended 0 .noError { s.polled with
        taint := false, phySt := .noError }) ∧
      Answers C (.macRecv blk tdef) s (State.ended (-1) .readError { s.polled with
        taint := false, phySt := .noError, macSt := .readError })) ∧
    (∀ tmo t0, s.resetAsserted = false → (s.run = .phyRecv tmo t0 ∨ s.run = .macPhy tmo t0) →
      s.elapsedNext C t0 ≤ tmo.toNat →
      StepsTo C s { (s.checked C).polled with taint := false })

/-- R139: overflow, for both receive commands and in both modes (R182, R184). -/
def Obligations.ByteAtCapacityOverflows : Prop :=
  ∀ (C : Config) (s : State) (b : Byte), s.rx.headD none = some b → b ≠ (s.codec C).delim → s.sync = true →
    s.cap ≤ s.len →
    (∀ blk tdef, resolveBlk blk s = some .nb →
      Answers C (.phyRecv blk tdef) s (State.ended (-1) .oversize { s.polled with
        sync := false, len := 0, taint := false
        phySt := .oversize }) ∧
      Answers C (.macRecv blk tdef) s (State.ended (-1) .readError { s.polled with
        sync := false, len := 0, taint := false
        phySt := .oversize, macSt := .readError })) ∧
    (∀ tmo t0, s.resetAsserted = false → s.elapsedNext C t0 ≤ tmo.toNat →
      (s.run = .phyRecv tmo t0 → StepsTo C s (State.ended (-1) .oversize { (s.checked C).polled with
        sync := false, len := 0, taint := false
        phySt := .oversize })) ∧
      (s.run = .macPhy tmo t0 → StepsTo C s (State.ended (-1) .oversize { (s.checked C).polled with
        sync := false, len := 0, taint := false
        phySt := .oversize, macSt := .oversize })))

/-- R140: accumulate; every other byte of `ACC` keeps its value; for both receive commands and in both modes (R182). -/
def Obligations.ByteInsideAFrameIsStored : Prop :=
  ∀ (C : Config) (s : State) (b : Byte), s.rx.headD none = some b → b ≠ (s.codec C).delim → s.sync = true →
    s.len < s.cap → s.acc.wf = true →
    ∃ acc : Memory, acc.wf = true ∧ (∀ i, acc.read i = if i = s.len then b else s.acc.read i) ∧
      (∀ blk tdef, resolveBlk blk s = some .nb →
        Answers C (.phyRecv blk tdef) s (State.ended 0 .noError { s.polled with
          acc := acc, len := s.len + 1
          phySt := .noError }) ∧
        Answers C (.macRecv blk tdef) s (State.ended (-1) .readError { s.polled with
          acc := acc, len := s.len + 1
          phySt := .noError, macSt := .readError })) ∧
      (∀ tmo t0, s.resetAsserted = false → (s.run = .phyRecv tmo t0 ∨ s.run = .macPhy tmo t0) →
        s.elapsedNext C t0 ≤ tmo.toNat →
        StepsTo C s { (s.checked C).polled with acc := acc, len := s.len + 1 })

/-- R143: noise is an error in non-blocking mode and leaves no trace in blocking mode; for both receive commands (R182). -/
def Obligations.ByteOutsideAFrameIsNoise : Prop :=
  ∀ (C : Config) (s : State) (b : Byte), s.rx.headD none = some b → b ≠ (s.codec C).delim → s.sync = false →
    (∀ blk tdef, resolveBlk blk s = some .nb →
      Answers C (.phyRecv blk tdef) s (State.ended (-1) .errorData { s.polled with
        phySt := .errorData }) ∧
      Answers C (.macRecv blk tdef) s (State.ended (-1) .readError { s.polled with
        phySt := .errorData, macSt := .readError })) ∧
    (∀ tmo t0, s.resetAsserted = false → (s.run = .phyRecv tmo t0 ∨ s.run = .macPhy tmo t0) →
      s.elapsedNext C t0 ≤ tmo.toNat →
      StepsTo C s (s.checked C).polled)

/-- R141 with R138: an untainted frame that fits is delivered into `OUTBUF`, whose other bytes keep their values, and ends
the receive in both modes, whatever its length. -/
def Obligations.FittingFrameIsDelivered : Prop :=
  ∀ (C : Config) (s : State) (f : Bytes), s.rx.headD none = some (s.codec C).delim → s.sync = true → 0 < s.len →
    s.taint = false → f = (s.codec C).dec (s.acc.readBytes 0 s.len) → f.length ≤ s.cfgM.toNat → s.outbuf.wf = true →
    ∃ out : Memory, out.readBytes 0 f.length = f ∧ (∀ i, f.length ≤ i → out.read i = s.outbuf.read i) ∧
      (∀ blk tdef, resolveBlk blk s = some .nb →
        Answers C (.phyRecv blk tdef) s (State.ended f.length .noError { s.polled with
          sync := false, len := 0, taint := false, outbuf := out
          phySt := .noError })) ∧
      (∀ tmo t0, s.resetAsserted = false → s.run = .phyRecv tmo t0 → s.elapsedNext C t0 ≤ tmo.toNat →
        StepsTo C s (State.ended f.length .noError { (s.checked C).polled with
          sync := false, len := 0, taint := false, outbuf := out
          phySt := .noError }))

/-- R141: an untainted frame longer than `CFG_M` fails with `Oversize` in both modes; the accumulator is emptied and
`OUTBUF` takes any value within its size. -/
def Obligations.FrameTooLongFailsWithOversize : Prop :=
  ∀ (C : Config) (s : State), s.rx.headD none = some (s.codec C).delim → s.sync = true → 0 < s.len →
    s.taint = false → s.cfgM.toNat < ((s.codec C).dec (s.acc.readBytes 0 s.len)).length →
    ∃ out : Memory, ArrayInv (frameSize C) out ∧
      (∀ blk tdef, resolveBlk blk s = some .nb →
        Answers C (.phyRecv blk tdef) s (State.ended (-1) .oversize { s.polled with
          sync := false, len := 0, taint := false, outbuf := out, draws := s.draws + 1
          trace := s.polled.trace ++ [.draw (.array out)], phySt := .oversize })) ∧
      (∀ tmo t0, s.resetAsserted = false → s.run = .phyRecv tmo t0 → s.elapsedNext C t0 ≤ tmo.toNat →
        StepsTo C s (State.ended (-1) .oversize { (s.checked C).polled with
          sync := false, len := 0, taint := false, outbuf := out, draws := s.draws + 1
          trace := (s.checked C).polled.trace ++ [.draw (.array out)], phySt := .oversize }))

/-- R142: the end of a tainted frame empties the accumulator and has one of the two outcomes of a draw, for both receive
commands and in both modes: no frame (`none`), which fails with `Oversize` and leaves any contents in the destination, or
some frame `g` of at most `CFG_M` bytes, delivered into `OUTBUF` by PHY_RECV, and into `FRM` for the filter of MAC_RECV
(R182, R184 to R188). -/
def Obligations.TaintedFrameEndsInOneOfTheTwoOutcomes : Prop :=
  ∀ (C : Config) (s : State), s.rx.headD none = some (s.codec C).delim → s.sync = true → 0 < s.len → s.taint = true →
    s.outbuf.wf = true → s.frm.wf = true →
    ∃ (outcome : Option Bytes) (out frm : Memory),
      match outcome with
      | none =>
        ArrayInv (frameSize C) out ∧ ArrayInv (frameSize C) frm ∧
        (∀ blk tdef, resolveBlk blk s = some .nb →
          Answers C (.phyRecv blk tdef) s (State.ended (-1) .oversize { s.polled with
            sync := false, len := 0, taint := false, outbuf := out, draws := s.draws + 1
            trace := s.polled.trace ++ [.draw (.array out)], phySt := .oversize }) ∧
          Answers C (.macRecv blk tdef) s (State.ended (-1) .readError { s.polled with
            sync := false, len := 0, taint := false, frm := frm, draws := s.draws + 1
            trace := s.polled.trace ++ [.draw (.array frm)], phySt := .oversize, macSt := .readError })) ∧
        (∀ tmo t0, s.resetAsserted = false → s.elapsedNext C t0 ≤ tmo.toNat →
          (s.run = .phyRecv tmo t0 → StepsTo C s (State.ended (-1) .oversize { (s.checked C).polled with
            sync := false, len := 0, taint := false, outbuf := out, draws := s.draws + 1
            trace := (s.checked C).polled.trace ++ [.draw (.array out)], phySt := .oversize })) ∧
          (s.run = .macPhy tmo t0 → StepsTo C s (State.ended (-1) .oversize { (s.checked C).polled with
            sync := false, len := 0, taint := false, frm := frm, draws := s.draws + 1
            trace := (s.checked C).polled.trace ++ [.draw (.array frm)], phySt := .oversize, macSt := .oversize })))
      | some g =>
        g.length ≤ s.cfgM.toNat ∧
        out.readBytes 0 g.length = g ∧ (∀ i, g.length ≤ i → out.read i = s.outbuf.read i) ∧
        frm.readBytes 0 g.length = g ∧ (∀ i, g.length ≤ i → frm.read i = s.frm.read i) ∧
        (∀ blk tdef, resolveBlk blk s = some .nb →
          Answers C (.phyRecv blk tdef) s (State.ended g.length .noError { s.polled with
            sync := false, len := 0, taint := false, outbuf := out, draws := s.draws + 1
            trace := s.polled.trace ++ [.draw (.frame g)], phySt := .noError }) ∧
          ∃ u t, u = { s.polled with
              sync := false, len := 0, taint := false, frm := frm, draws := s.draws + 1
              trace := s.polled.trace ++ [.draw (.frame g)], phySt := .noError } ∧
            Answers C (.macRecv blk tdef) s t ∧
            FilteredFrame g u (if g = [] then State.ended (-1) .readError { u with macSt := .readError }
              else State.ended 0 .noData { u with macSt := .noData }) t) ∧
        (∀ tmo t0, s.resetAsserted = false → s.elapsedNext C t0 ≤ tmo.toNat →
          (s.run = .phyRecv tmo t0 → StepsTo C s (State.ended g.length .noError { (s.checked C).polled with
            sync := false, len := 0, taint := false, outbuf := out, draws := s.draws + 1
            trace := (s.checked C).polled.trace ++ [.draw (.frame g)], phySt := .noError })) ∧
          (s.run = .macPhy tmo t0 →
            ∃ u t, u = { (s.checked C).polled with
                sync := false, len := 0, taint := false, frm := frm, draws := s.draws + 1
                trace := (s.checked C).polled.trace ++ [.draw (.frame g)], phySt := .noError } ∧
              StepsTo C s t ∧ FilteredFrame g u { u with run := .macTop tmo t0 } t))

/-- R142: "A model quantifies over every choice": each of the two outcomes, with every frame of at most `CFG_M` bytes and
every contents of `OUTBUF`, is that of a block built alike but for its draws. -/
def Obligations.EveryOutcomeOfATaintedFrameIsPossible : Prop :=
  ∀ (C : Config) (s : State) (blk : BitVec 2) (tdef : Bool) (g out : Bytes), s.rx.headD none = some (s.codec C).delim →
    s.sync = true → 0 < s.len → s.taint = true → s.outbuf.wf = true → resolveBlk blk s = some .nb →
    g.length ≤ s.cfgM.toNat → out.length = frameSize C →
    (∃ dFits dBytes t, execWith { C with drawFits := dFits, drawBytes := dBytes } (.phyRecv blk tdef) s = .next t ∧
      t.ret = BitVec.ofNat 32 g.length ∧ t.rstat = .noError ∧ t.outbuf.readBytes 0 g.length = g) ∧
    (∃ dFits dBytes t, execWith { C with drawFits := dFits, drawBytes := dBytes } (.phyRecv blk tdef) s = .next t ∧
      t.ret = 0xFFFFFFFF#32 ∧ t.rstat = .oversize ∧ t.outbuf.readBytes 0 (frameSize C) = out)

/-- R131: a non-blocking receive, by `BLK = 00` or by the default (R95), performs exactly one poll, never reads the clock,
never returns `Timeout` and completes; for PHY_RECV and for MAC_RECV (41_mac_layer.md R181). -/
def Obligations.NonBlockingReceivePollsOnce : Prop :=
  ∀ (C : Config) (s : State) (blk : BitVec 2) (tdef : Bool) (i : Instr),
    (blk = 0b00#2 ∨ (blk = 0b10#2 ∧ s.cfgDefblk.bit = 0#1)) →
    (i = .phyRecv blk tdef ∨ i = .macRecv blk tdef) →
    ∃ t events, Answers C i s t ∧ t.run = .idle ∧ t.rstat ≠ .timeout ∧ t.trace = s.trace ++ events ∧
      events.filter Event.isInterface = [.rxPoll (s.rx.headD none)] ∧
      t.rx = s.rx.tail ∧ t.clock = s.clock ∧ t.ticks = s.ticks

/-- R95, R96, R150 and R183: how the mode and the timeout resolve, and that a blocking receive reads its start time once,
at its entry, and changes nothing else there. `resolveBlk blk s = some .nb`, the hypothesis of the statements about
non-blocking receives, holds exactly where `BLK` is `00`, or `10` with a non-blocking default. -/
def Obligations.BlockingReceiveReadsItsStartTimeAtEntry : Prop :=
  ∀ (C : Config) (s : State) (blk : BitVec 2) (tdef : Bool),
    (resolveBlk blk s = some .nb ↔ (blk = 0b00#2 ∨ (blk = 0b10#2 ∧ s.cfgDefblk.bit = 0#1))) ∧
    ((blk = 0b01#2 ∨ (blk = 0b10#2 ∧ s.cfgDefblk.bit = 1#1)) →
      Answers C (.phyRecv blk tdef) s { s with
        run := .phyRecv (if tdef then s.cfgDeftmo else s.arg1) ((s.clock + s.ticks.headD 0) % 2 ^ C.clkW)
        clock := s.clock + s.ticks.headD 0, ticks := s.ticks.tail
        trace := s.trace ++ [.now ((s.clock + s.ticks.headD 0) % 2 ^ C.clkW)] } ∧
      Answers C (.macRecv blk tdef) s { s with
        run := .macTop (if tdef then s.cfgDeftmo else s.arg1) ((s.clock + s.ticks.headD 0) % 2 ^ C.clkW)
        clock := s.clock + s.ticks.headD 0, ticks := s.ticks.tail
        trace := s.trace ++ [.now ((s.clock + s.ticks.headD 0) % 2 ^ C.clkW)] })

/-! ## The deadline -/

/-- R152, and R183 for MAC_RECV: a deadline check that sees more than `T` elapsed ends the receive with `Timeout` without
a poll; the accumulation state stays. The MAC's own check leaves `PHY_ST`; one inside `phy_receive` writes both. A check at
the top of a MAC iteration that sees at most `T` only lets the iteration call `phy_receive` with the same `T` and `t0`. What
a check sees is the next reading of the clock less `t0`, modulo `2^CLK_W` (R151). -/
def Obligations.DeadlineCheckEndsTheReceiveWhenExpired : Prop :=
  ∀ (C : Config) (s : State) (tmo : Word) (t0 : Nat), s.resetAsserted = false →
    ((s.elapsedNext C t0 : Int) = (((s.clock + s.ticks.headD 0 : Nat) : Int) - t0) % 2 ^ C.clkW) ∧
    (tmo.toNat < s.elapsedNext C t0 →
      (s.run = .phyRecv tmo t0 → StepsTo C s (State.ended (-1) .timeout { s.checked C with
        phySt := .timeout })) ∧
      (s.run = .macTop tmo t0 → StepsTo C s (State.ended (-1) .timeout { s.checked C with
        macSt := .timeout })) ∧
      (s.run = .macPhy tmo t0 → StepsTo C s (State.ended (-1) .timeout { s.checked C with
        phySt := .timeout, macSt := .timeout }))) ∧
    (s.elapsedNext C t0 ≤ tmo.toNat → s.run = .macTop tmo t0 →
      StepsTo C s { s.checked C with run := .macPhy tmo t0 })

/-- R260 and R152: a blocking receive entered at clock `c0` times out only after the clock has advanced by at least
`T + 1`. -/
def Obligations.NoTimeoutBeforeTheDeadline : Prop :=
  ∀ (C : Config) (s t : State) (tmo : Word) (c0 : Nat), s.resetAsserted = false → c0 ≤ s.clock →
    (s.run = .phyRecv tmo (c0 % 2 ^ C.clkW) ∨ s.run = .macTop tmo (c0 % 2 ^ C.clkW) ∨
      s.run = .macPhy tmo (c0 % 2 ^ C.clkW)) →
    stepWith C s = .next t → t.run = .idle → t.rstat = .timeout → c0 + tmo.toNat + 1 ≤ t.clock

/-- R155: with `T >= 2^CLK_W - 1` no deadline check fires, and a blocking receive, of PHY_RECV or of MAC_RECV, ends only by
a byte received inside a frame. -/
def Obligations.LongestTimeoutNeverExpires : Prop :=
  ∀ (C : Config) (s t : State) (tmo : Word) (t0 : Nat), s.resetAsserted = false →
    (s.run = .phyRecv tmo t0 ∨ s.run = .macTop tmo t0 ∨ s.run = .macPhy tmo t0) →
    2 ^ C.clkW - 1 ≤ tmo.toNat → stepWith C s = .next t → t.run = .idle →
    t.rstat ≠ .timeout ∧ ∃ b, s.rx.headD none = some b ∧ s.sync = true

/-- R155 and D33: a blocking receive ends once the clock has passed its deadline: if the reading after the next `k` shows
more than `T` elapsed, and reset stays away, the receive has ended after at most `k + 1` steps. -/
def Obligations.BlockingReceiveEndsOnceTheClockPassesTheDeadline : Prop :=
  ∀ (C : Config) (k : Nat) (s : State) (tmo : Word) (t0 : Nat),
    (s.run = .phyRecv tmo t0 ∨ s.run = .macTop tmo t0 ∨ s.run = .macPhy tmo t0) →
    (∀ level ∈ s.resetIn.take (k + 1), level = .released) →
    (tmo.toNat : Int) < (((s.clock + (s.ticks.take (k + 1)).sum : Nat) : Int) - t0) % 2 ^ C.clkW →
    ∃ n t, n ≤ k + 1 ∧ runWith C n s = .next t ∧ t.run = .idle

/-- R153 and R189: a blocking receive in progress, run one round a step, does what the loop of the spec's pseudocode does:
where the loop ends, with any bound on its rounds, the steps reach the state it ends in. -/
def Obligations.BlockingReceivesFollowThePseudocode : Prop :=
  (∀ (C : Config) (s u : State) (tmo : Word) (t0 bound : Nat) (ret : Int) (st : Status),
    s.run = .phyRecv tmo t0 → s.resetIn = [] → phyReceiveLoop C .outbuf tmo t0 bound s = some ((ret, st), u) →
    ∃ n, n ≤ bound ∧ runWith C n s = .next (finish ret st u)) ∧
  (∀ (C : Config) (s t : State) (tmo : Word) (t0 inner bound : Nat),
    s.run = .macTop tmo t0 → s.resetIn = [] → macReceiveLoop C tmo t0 inner bound s = some t →
    ∃ n, runWith C n s = .next t ∧ t.run = .idle)

/-! ## MAC_SEND -/

/-- R171: a payload longer than `CFG_M` is refused with `Oversize`; `PHY_ST` and everything else stays. -/
def Obligations.MacSendRefusesPayloadLongerThanM : Prop :=
  ∀ (C : Config) (dst : Byte) (size : BitVec 16) (s : State), s.cfgM.toNat < size.toNat →
    Answers C (.macSend dst size) s (State.ended (-1) .oversize { s with
      macSt := .oversize })

/-- R172 to R174: MAC_SEND sends the payload behind the header `[DST, CFG_SELF]` by the events of R126 and returns the
payload's length. The premises say that the codec keeps the body within `CAP` and does not encode it to nothing. -/
def Obligations.MacSendTransmitsHeaderAndPayload : Prop :=
  ∀ (C : Config) (dst : Byte) (size : BitVec 16) (s : State) (e : Bytes), size.toNat ≤ s.cfgM.toNat →
    e = (s.codec C).enc ([dst, s.cfgSelf] ++ s.inbuf.readBytes 0 size.toNat) → 0 < e.length → e.length ≤ s.cap →
    Answers C (.macSend dst size) s (State.ended size.toNat .noError { s with
      trace := s.trace ++ frameEvents C s e
      taint := s.taint || s.sync
      dir := if s.cfgDirid = 0#8 then s.dir else .rx
      txScratch := []
      phySt := .noError, macSt := .noError })

/-- R174 with R105: where the codec encodes the body to more than `CAP` bytes, or to nothing, MAC_SEND ends with
`WriteError`; in the first case nothing is transmitted. -/
def Obligations.MacSendReportsWriteError : Prop :=
  ∀ (C : Config) (dst : Byte) (size : BitVec 16) (s : State) (e : Bytes), size.toNat ≤ s.cfgM.toNat →
    e = (s.codec C).enc ([dst, s.cfgSelf] ++ s.inbuf.readBytes 0 size.toNat) →
    (s.cap < e.length → Answers C (.macSend dst size) s (State.ended (-1) .writeError { s with
      phySt := .oversize, macSt := .writeError })) ∧
    (e = [] → ∃ t, Answers C (.macSend dst size) s t ∧ t.trace = s.trace ++ frameEvents C s [] ++ [.finish (-1) .writeError] ∧
      t.phySt = .noError ∧ t.macSt = .writeError ∧ t.ret = 0xFFFFFFFF#32 ∧ t.rstat = .writeError ∧ t.run = .idle)

/-! ## MAC_RECV -/

/-- R187 and R188 with R186: an untainted frame for this node or for all, ended by the next byte, is delivered: payload,
source, flag and length, in both modes; `OUTBUF` past the payload keeps its bytes. -/
def Obligations.MacReceiveDeliversFrameForThisNode : Prop :=
  ∀ (C : Config) (s : State) (dst src : Byte) (payload : Bytes), s.rx.headD none = some (s.codec C).delim →
    s.sync = true → 0 < s.len → s.taint = false →
    (s.codec C).dec (s.acc.readBytes 0 s.len) = dst :: src :: payload → payload.length + 2 ≤ s.cfgM.toNat →
    (dst = s.cfgSelf ∨ dst = 0xFF#8) → s.outbuf.wf = true → s.frm.wf = true →
    ∃ (frm out : Memory) (st : Status),
      st = (if src = s.cfgSelf then .readErrorSourceSelf else if src = 0xFF#8 then .readErrorSourceBroadcast
        else .noError) ∧
      out.readBytes 0 payload.length = payload ∧ (∀ i, payload.length ≤ i → out.read i = s.outbuf.read i) ∧
      (∀ blk tdef, resolveBlk blk s = some .nb →
        Answers C (.macRecv blk tdef) s (State.ended payload.length st { s.polled with
          sync := false, len := 0, taint := false, frm := frm, outbuf := out, outsrc := src
          phySt := .noError, macSt := st })) ∧
      (∀ tmo t0, s.resetAsserted = false → s.run = .macPhy tmo t0 → s.elapsedNext C t0 ≤ tmo.toNat →
        StepsTo C s (State.ended payload.length st { (s.checked C).polled with
          sync := false, len := 0, taint := false, frm := frm, outbuf := out, outsrc := src
          phySt := .noError, macSt := st }))

/-- R185 and R186: a frame for another node, and a frame of one byte, is dropped: `0` and `NoData` in non-blocking mode,
and in blocking mode the loop continues. `OUTBUF` and `OUTSRC` stay (R190). -/
def Obligations.MacReceiveDropsForeignAndRuntFrames : Prop :=
  ∀ (C : Config) (s : State) (dst : Byte) (rest : Bytes), s.rx.headD none = some (s.codec C).delim →
    s.sync = true → 0 < s.len → s.taint = false →
    (s.codec C).dec (s.acc.readBytes 0 s.len) = dst :: rest → rest.length + 1 ≤ s.cfgM.toNat →
    (rest = [] ∨ (dst ≠ s.cfgSelf ∧ dst ≠ 0xFF#8)) → s.frm.wf = true →
    ∃ frm : Memory,
      (∀ blk tdef, resolveBlk blk s = some .nb →
        Answers C (.macRecv blk tdef) s (State.ended 0 .noData { s.polled with
          sync := false, len := 0, taint := false, frm := frm
          phySt := .noError, macSt := .noData })) ∧
      (∀ tmo t0, s.resetAsserted = false → s.run = .macPhy tmo t0 → s.elapsedNext C t0 ≤ tmo.toNat →
        StepsTo C s { (s.checked C).polled with
          sync := false, len := 0, taint := false, frm := frm, phySt := .noError, run := .macTop tmo t0 })

/-- R182: a non-blocking MAC_RECV moves the receiver exactly as a non-blocking PHY_RECV does, `PHY_ST` included and by the
same events up to its end, and ends with `ReadError` where that one returns no positive length; `OUTBUF` and `OUTSRC` then
stay. -/
def Obligations.MacPollIsAPhyPollThatReportsReadError : Prop :=
  ∀ (C : Config) (s : State) (blk : BitVec 2) (tdef : Bool), resolveBlk blk s = some .nb →
    ∃ t u, Answers C (.macRecv blk tdef) s t ∧ Answers C (.phyRecv blk tdef) s u ∧
      t.phySt = u.phySt ∧ t.sync = u.sync ∧ t.len = u.len ∧ t.taint = u.taint ∧ t.acc = u.acc ∧ t.rx = u.rx ∧
      t.trace.dropLast = u.trace.dropLast ∧ t.draws = u.draws ∧
      (u.ret.toInt ≤ 0 →
        t = State.ended (-1) .readError { s.polled with
          sync := u.sync, len := u.len, taint := u.taint, acc := u.acc, draws := u.draws, trace := u.trace.dropLast
          frm := t.frm, phySt := u.phySt, macSt := .readError })

/-- R184: in blocking mode an overflow and a frame too long end MAC_RECV with `Oversize`, and a zero-length frame is
dropped and the loop continues. -/
def Obligations.BlockingMacReceiveSurfacesPhyFailures : Prop :=
  ∀ (C : Config) (s : State) (tmo : Word) (t0 : Nat), s.resetAsserted = false → s.run = .macPhy tmo t0 →
    s.elapsedNext C t0 ≤ tmo.toNat →
    (∀ b, s.rx.headD none = some b → b ≠ (s.codec C).delim → s.sync = true → s.cap ≤ s.len →
      StepsTo C s (State.ended (-1) .oversize { (s.checked C).polled with
        sync := false, len := 0, taint := false
        phySt := .oversize, macSt := .oversize })) ∧
    (s.rx.headD none = some (s.codec C).delim → s.sync = true → 0 < s.len → s.taint = false →
      (s.cfgM.toNat < ((s.codec C).dec (s.acc.readBytes 0 s.len)).length →
        ∃ frm : Memory, StepsTo C s (State.ended (-1) .oversize { (s.checked C).polled with
          sync := false, len := 0, taint := false, frm := frm, draws := s.draws + 1
          trace := (s.checked C).polled.trace ++ [.draw (.array frm)], phySt := .oversize, macSt := .oversize })) ∧
      ((s.codec C).dec (s.acc.readBytes 0 s.len) = [] →
        StepsTo C s { (s.checked C).polled with
          sync := false, len := 0, taint := false, phySt := .noError, run := .macTop tmo t0 }))

/-- R190: a MAC_RECV that drops a frame, fails or goes on waiting leaves `OUTBUF` and `OUTSRC` alone, in every state. -/
def Obligations.MacReceiveWritesOutputOnlyOnAcceptance : Prop :=
  (∀ (C : Config) (s : State) (blk : BitVec 2) (tdef : Bool),
    ∃ t, Answers C (.macRecv blk tdef) s t ∧
      (t.run ≠ .idle ∨ t.rstat ∈ [.readError, .noData] → t.outbuf = s.outbuf ∧ t.outsrc = s.outsrc)) ∧
  (∀ (C : Config) (s t : State) (tmo : Word) (t0 : Nat), s.resetAsserted = false →
    (s.run = .macTop tmo t0 ∨ s.run = .macPhy tmo t0) → stepWith C s = .next t →
    (t.run ≠ .idle ∨ t.rstat ∈ [.oversize, .timeout]) → t.outbuf = s.outbuf ∧ t.outsrc = s.outsrc)

/-! ## Rules about all commands -/

/-- R36: `RSTAT` equals the sticky status the outermost layer wrote, where a command ends at once, and where a blocking
receive in progress ends. -/
def Obligations.ResultStatusIsTheLayersStatus : Prop :=
  (∀ (C : Config) (i : Instr) (s : State), i.wellFormed = true →
    ∃ t, Answers C i s t ∧
      (t.run = .idle →
        match i with
        | .init _ _ _ _ => t.rstat = (if C.maxpMax < s.arg0.toNat then .unknownError else .noError)
        | .phySend _ => t.rstat = t.phySt
        | .phyRecv _ _ => t.rstat = t.phySt
        | .macSend _ _ => t.rstat = t.macSt
        | .macRecv _ _ => t.rstat = t.macSt)) ∧
  (∀ (C : Config) (s t : State) (tmo : Word) (t0 : Nat), s.resetAsserted = false → stepWith C s = .next t →
    t.run = .idle →
    (s.run = .phyRecv tmo t0 → t.rstat = t.phySt) ∧
    (s.run = .macTop tmo t0 ∨ s.run = .macPhy tmo t0 → t.rstat = t.macSt))

/-- R217 with R13: where a step ends a command, `RET` is negative exactly when it failed, the negative value is always
`-1`, and `NoData` comes with `RET = 0`; the event `finish(ret, st)` with that result is the last of the step (R12). -/
def Obligations.SignOfTheReturnValueTellsFailure : Prop :=
  ∀ (C : Config) (s t : State), s.resetAsserted = false → stepWith C s = .next t → t.run = .idle →
    (s.run ≠ .idle ∨ ∃ cmd arg0 arg1 rest, s.host = .command cmd arg0 arg1 :: rest) →
    (∃ events, t.trace = s.trace ++ events ++ [.finish t.ret.toInt t.rstat]) ∧
    ((t.rstat ∈ [.noError, .noData, .readErrorSourceBroadcast, .readErrorSourceSelf] ∧ 0 ≤ t.ret.toInt ∧
      (t.rstat = .noData → t.ret = 0#32)) ∨
    (t.rstat ∉ [.noError, .noData, .readErrorSourceBroadcast, .readErrorSourceSelf] ∧ t.ret = 0xFFFFFFFF#32))

/-- R50: PHY operations never write `MAC_ST`; nor do they touch `OUTSRC` (R37), the configuration, `INBUF` (R38) or
`FRM`: a PHY_SEND or PHY_RECV when it is taken, and every later round of a blocking PHY_RECV, which goes on with the same
working values or ends. That `FRM` keeps its bytes from one command to the next, where R57 leaves them unspecified, is the
model's choice (assumption 21). -/
def Obligations.PhyCommandsLeaveTheMacLayerAlone : Prop :=
  (∀ (C : Config) (i : Instr) (s : State),
    ((∃ size, i = .phySend size) ∨ ∃ blk tdef, i = .phyRecv blk tdef) →
    ∃ t, Answers C i s t ∧ SameMacSide s t) ∧
  (∀ (C : Config) (s : State) (tmo : Word) (t0 : Nat), s.resetAsserted = false → s.run = .phyRecv tmo t0 →
    ∃ t, StepsTo C s t ∧ SameMacSide s t ∧ (t.run = .phyRecv tmo t0 ∨ t.run = .idle))

/-- R32 and R76: no step takes back an event, and only a step that runs PHY_SEND or MAC_SEND leaves an event of the
transmit interface or of the direction output. -/
def Obligations.OnlySendsUseTheTransmitInterface : Prop :=
  ∀ (C : Config) (s t : State), stepWith C s = .next t →
    ∃ events, t.trace = s.trace ++ events ∧
      ((∃ e ∈ events, e.isTransmit = true) →
        ∃ cmd arg0 arg1 rest i, s.run = .idle ∧ s.host = .command cmd arg0 arg1 :: rest ∧ decode cmd = .ok i ∧
          ((∃ size, i = .phySend size) ∨ ∃ dst size, i = .macSend dst size))

/-- R31 and R76: every byte is consumed exactly once and in arrival order: a step that polls takes the oldest answer of
the receive input, and a step that does not poll takes none. -/
def Obligations.ReceivedBytesAreConsumedOnceInOrder : Prop :=
  ∀ (C : Config) (s t : State), stepWith C s = .next t →
    ∃ events, t.trace = s.trace ++ events ∧
      ((polledAnswers events = [] ∧ t.rx = s.rx) ∨
       (polledAnswers events = [s.rx.headD none] ∧ t.rx = s.rx.tail))

/-! ## Invariants and bytes no rule reads -/

/-- The invariant holds after reset (R56, R59). -/
def Obligations.InvariantHoldsAfterReset : Prop :=
  (∀ C : Config, Inv C State.reset) ∧ StatusInv State.reset

/-- R56: every step, of every block, keeps `LEN <= CAP`, `LEN > 0` only inside a frame, `TAINT` only inside a frame; with
it the byte arrays stay canonical and inside their sizes, `CFG_M` legal, the transmit scratch empty and `DIR` at `RX`
between commands. -/
def Obligations.EveryStepKeepsTheInvariant : Prop :=
  ∀ (C : Config) (s t : State), Inv C s → stepWith C s = .next t → Inv C t

/-- R104: every step keeps every status register within the codes the block produces in it; so `CrcError`, `DecodeError`
and `EncodeError` never appear, and `UnknownError` appears in `RSTAT` only; and the numbers of the codes. -/
def Obligations.EveryStepKeepsTheStatusesProducible : Prop :=
  (∀ (C : Config) (s t : State), StatusInv s → stepWith C s = .next t → StatusInv t) ∧
  phyStatuses.map Status.code = [0x00#8, 0x01#8, 0x05#8, 0x08#8, 0x09#8] ∧
  macStatuses.map Status.code = [0x00#8, 0x01#8, 0x05#8, 0x06#8, 0x07#8, 0x08#8, 0x0A#8, 0x0B#8] ∧
  [Status.crcError, .decodeError, .encodeError, .unknownError].map Status.code = [0x02#8, 0x03#8, 0x04#8, 0x63#8]

/-- R54 and R57: no rule reads `ACC[i]` for `i >= LEN`, nor `FRM` or the transmit scratch across commands: two states that
differ only there step to states that differ only there. -/
def Obligations.DeadBytesAreNeverRead : Prop :=
  ∀ (C : Config) (s t s' : State), SameButDeadBytes s t → s.acc.wf = true → t.acc.wf = true → s.frm.wf = true →
    t.frm.wf = true → stepWith C s = .next s' → ∃ t', stepWith C t = .next t' ∧ SameButDeadBytes s' t'

/-! ## Whole receptions -/

/-- R254 with R139 and R140: from an open frame with nothing accumulated, a blocking receive stores exactly `CAP` raw
bytes, and one more overflows. -/
def Obligations.AccumulatorHoldsExactlyCapBytes : Prop :=
  ∀ (C : Config) (s : State) (raw : Bytes) (b : Byte) (later : List (Option Byte)) (tmo : Word) (t0 : Nat),
    s.run = .phyRecv tmo t0 → s.resetIn = [] → s.ticks = [] → s.elapsedNext C t0 ≤ tmo.toNat → s.acc.wf = true →
    s.sync = true → s.len = 0 → raw.length = s.cap → (∀ x ∈ raw, x ≠ (s.codec C).delim) → b ≠ (s.codec C).delim →
    s.rx = raw.map some ++ some b :: later →
    ∃ t u, runWith C raw.length s = .next t ∧ t.run = .phyRecv tmo t0 ∧ t.len = s.cap ∧
      t.acc.readBytes 0 t.len = raw ∧ t.rx = some b :: later ∧
      stepWith C t = .next u ∧ u.run = .idle ∧ u.rstat = .oversize ∧ u.ret = 0xFFFFFFFF#32 ∧ u.sync = false ∧
      u.len = 0 ∧ u.rx = later

/-- R248: whatever the bus carries before it, the next delimiter starts a frame: a blocking receive outside a frame drops
every byte before it. -/
def Obligations.BytesBeforeADelimiterAreDropped : Prop :=
  ∀ (C : Config) (s : State) (noise : Bytes) (later : List (Option Byte)) (tmo : Word) (t0 : Nat),
    s.run = .phyRecv tmo t0 → s.resetIn = [] → s.ticks = [] → s.elapsedNext C t0 ≤ tmo.toNat → s.sync = false →
    (∀ x ∈ noise, x ≠ (s.codec C).delim) → s.rx = noise.map some ++ some (s.codec C).delim :: later →
    ∃ t, runWith C (noise.length + 1) s = .next t ∧ t.run = .phyRecv tmo t0 ∧ t.sync = true ∧ t.len = 0 ∧
      t.taint = false ∧ t.acc = s.acc ∧ t.outbuf = s.outbuf ∧ t.rx = later

/-- R157: the frame round trip. What PHY_SEND puts on the wire, a receiver of the same scheme and `CFG_M` that starts
outside a frame, or inside one with nothing accumulated, delivers unchanged: by `k + 2` non-blocking calls (`PHY.POLL`), and
by one blocking call whose deadline the clock does not reach. -/
def Obligations.PhyFrameRoundTrip : Prop :=
  ∀ (C : Config) (s r : State) (size : BitVec 16) (p e : Bytes) (later : List (Option Byte)) (rest : List HostAction),
    p = s.inbuf.readBytes 0 size.toNat → e = (s.codec C).enc p → size.toNat ≤ s.cfgM.toNat → e.length ≤ s.cap →
    0 < e.length →
    r.scheme = s.scheme → r.cfgM = s.cfgM → r.run = .idle → r.len = 0 → r.resetIn = [] → r.acc.wf = true →
    r.outbuf.wf = true →
    ∃ t events, Answers C (.phySend size) s t ∧ t.trace = s.trace ++ events ∧
      (r.rx = (sentBytes events).map some ++ later →
        (r.host = List.replicate (e.length + 2) (.command 0x32000000#32 0#32 0#32) ++ rest →
          ∃ u, runWith C (e.length + 2) r = .next u ∧ u.run = .idle ∧ u.ret = BitVec.ofNat 32 p.length ∧
            u.rstat = .noError ∧ u.outbuf.readBytes 0 p.length = p ∧ u.sync = false ∧ u.len = 0 ∧ u.rx = later) ∧
        (r.host = .command 0x36000000#32 0#32 0#32 :: rest → r.ticks.tail.sum ≤ r.cfgDeftmo.toNat →
          ∃ u, runWith C (e.length + 3) r = .next u ∧ u.run = .idle ∧ u.ret = BitVec.ofNat 32 p.length ∧
            u.rstat = .noError ∧ u.outbuf.readBytes 0 p.length = p ∧ u.sync = false ∧ u.len = 0 ∧ u.rx = later))

/-- R191: the MAC round trip and its limit. What MAC_SEND puts on the wire for a node that accepts the destination, a
blocking MAC_RECV of equal `CFG_M` delivers with its source where `n + 2 <= CFG_M`, and refuses with `Oversize` where
`n + 2 > CFG_M`, though it was sent with `NoError`. -/
def Obligations.MacFrameRoundTripAndItsLimit : Prop :=
  ∀ (C : Config) (s r : State) (dst : Byte) (size : BitVec 16) (p e : Bytes) (later : List (Option Byte))
    (rest : List HostAction),
    p = s.inbuf.readBytes 0 size.toNat → e = (s.codec C).enc ([dst, s.cfgSelf] ++ p) → size.toNat ≤ s.cfgM.toNat →
    e.length ≤ s.cap → 0 < e.length →
    r.scheme = s.scheme → r.cfgM = s.cfgM → r.run = .idle → r.len = 0 → r.resetIn = [] → r.acc.wf = true →
    r.outbuf.wf = true → r.frm.wf = true → (dst = r.cfgSelf ∨ dst = 0xFF#8) →
    r.host = .command 0x56000000#32 0#32 0#32 :: rest → r.ticks.tail.sum ≤ r.cfgDeftmo.toNat →
    ∃ t events, Answers C (.macSend dst size) s t ∧ t.rstat = .noError ∧ t.trace = s.trace ++ events ∧
      (r.rx = (sentBytes events).map some ++ later →
        ∃ u, runWith C (e.length + 4) r = .next u ∧ u.run = .idle ∧ u.rx = later ∧
          (size.toNat + 2 ≤ s.cfgM.toNat →
            u.ret = BitVec.ofNat 32 size.toNat ∧ u.outbuf.readBytes 0 size.toNat = p ∧ u.outsrc = s.cfgSelf ∧
            u.rstat ∈ [.noError, .readErrorSourceSelf, .readErrorSourceBroadcast]) ∧
          (s.cfgM.toNat < size.toNat + 2 →
            u.ret = 0xFFFFFFFF#32 ∧ u.rstat = .oversize ∧ u.phySt = .oversize ∧ u.outbuf = r.outbuf))
end

