-- ==== Sys2Proof/Laws/Decode.lean ====
section
/-! SUPPORT. What the decoder reads, said once: the fields and the checks of each command it answers (30_encoding.md
R97). -/
namespace Sys2Proof

theorem decodeRecv_ok {make : BitVec 2 → Bool → Instr} {w : Word} {i : Instr} (h : decodeRecv make w = .ok i) :
    w.extractLsb' 0 25 = 0#25 ∧ blkLegal (fieldBlk w) = true ∧ i = make (fieldBlk w) (fieldTdef w == 1#1) := by
  unfold decodeRecv at h
  by_cases h1 : w.extractLsb' 0 25 = 0#25
  · rw [if_pos h1] at h
    by_cases h2 : blkLegal (fieldBlk w) = true
    · rw [if_pos h2] at h
      cases h
      exact ⟨h1, h2, rfl⟩
    · rw [if_neg h2] at h
      cases h
  · rw [if_neg h1] at h
    cases h

/-- Every way a word decodes (R97). -/
theorem decode_ok_cases {w : Word} {i : Instr} (h : decode w = .ok i) :
    (fieldOp w = 0x1#4 ∧ w.extractLsb' 24 4 = 0#4 ∧ w.extractLsb' 2 6 = 0#6 ∧
      i = .init (fieldAddr w) (fieldDirid w) (Scheme.ofBit (fieldSchreq w)) (Mode.ofBit (fieldDefblk w))) ∨
    (fieldOp w = 0x2#4 ∧ w.extractLsb' 16 12 = 0#12 ∧ i = .phySend (fieldSize w)) ∨
    (fieldOp w = 0x3#4 ∧ w.extractLsb' 0 25 = 0#25 ∧ blkLegal (fieldBlk w) = true ∧
      i = .phyRecv (fieldBlk w) (fieldTdef w == 1#1)) ∨
    (fieldOp w = 0x4#4 ∧ w.extractLsb' 24 4 = 0#4 ∧ i = .macSend (fieldAddr w) (fieldSize w)) ∨
    (fieldOp w = 0x5#4 ∧ w.extractLsb' 0 25 = 0#25 ∧ blkLegal (fieldBlk w) = true ∧
      i = .macRecv (fieldBlk w) (fieldTdef w == 1#1)) := by
  unfold decode at h
  by_cases h1 : fieldOp w = 0x1#4
  · rw [if_pos h1, decodeInit] at h
    by_cases h2 : w.extractLsb' 24 4 = 0#4 ∧ w.extractLsb' 2 6 = 0#6
    · rw [if_pos h2] at h
      cases h
      exact .inl ⟨h1, h2.1, h2.2, rfl⟩
    · rw [if_neg h2] at h
      cases h
  rw [if_neg h1] at h
  by_cases h1 : fieldOp w = 0x2#4
  · rw [if_pos h1, decodePhySend] at h
    by_cases h2 : w.extractLsb' 16 12 = 0#12
    · rw [if_pos h2] at h
      cases h
      exact .inr (.inl ⟨h1, h2, rfl⟩)
    · rw [if_neg h2] at h
      cases h
  rw [if_neg h1] at h
  by_cases h1 : fieldOp w = 0x3#4
  · rw [if_pos h1] at h
    obtain ⟨a, b, c⟩ := decodeRecv_ok h
    exact .inr (.inr (.inl ⟨h1, a, b, c⟩))
  rw [if_neg h1] at h
  by_cases h1 : fieldOp w = 0x4#4
  · rw [if_pos h1, decodeMacSend] at h
    by_cases h2 : w.extractLsb' 24 4 = 0#4
    · rw [if_pos h2] at h
      cases h
      exact .inr (.inr (.inr (.inl ⟨h1, h2, rfl⟩)))
    · rw [if_neg h2] at h
      cases h
  rw [if_neg h1] at h
  by_cases h1 : fieldOp w = 0x5#4
  · rw [if_pos h1] at h
    obtain ⟨a, b, c⟩ := decodeRecv_ok h
    exact .inr (.inr (.inr (.inr ⟨h1, a, b, c⟩)))
  rw [if_neg h1] at h
  cases h

end Sys2Proof
end

