-- ==== Sys2Proof/Laws/Memory.lean ====
section
/-! SUPPORT. The laws of the byte arrays: a read after a write, what a write leaves alone, the canonical form and the size
every operation keeps, and that equal reads make equal arrays. -/
namespace Sys2Proof.Machine

/-! ## Reads after writes -/

@[simp] theorem Memory.read_nil (i : Nat) : Memory.read [] i = Memory.unlisted := rfl

theorem Memory.read_cons (k : Nat) (v : Byte) (m : Memory) (i : Nat) :
    Memory.read ((k, v) :: m) i = if k = i then v else m.read i := rfl

/-- Below everything listed, an index reads as unlisted. -/
theorem Memory.read_of_lt {m : Memory} {lo i : Nat} (h : Memory.wfFrom lo m = true) (hi : i < lo) :
    m.read i = Memory.unlisted := by
  induction m generalizing lo with
  | nil => rfl
  | cons c m ih =>
    obtain ⟨k, v⟩ := c
    simp only [Memory.wfFrom, Bool.and_eq_true, decide_eq_true_eq] at h
    have hne : ¬k = i := by omega
    rw [Memory.read_cons, if_neg hne]
    exact ih h.2 (by omega)

theorem Memory.wfFrom_mono {m : Memory} {lo lo' : Nat} (h : Memory.wfFrom lo m = true) (hle : lo' ≤ lo) :
    Memory.wfFrom lo' m = true := by
  cases m with
  | nil => rfl
  | cons c m =>
    obtain ⟨k, v⟩ := c
    simp only [Memory.wfFrom, Bool.and_eq_true, decide_eq_true_eq] at h ⊢
    exact ⟨⟨by omega, h.1.2⟩, h.2⟩

/-- A read after a write, from any array in canonical form. -/
theorem Memory.read_write_from {m : Memory} {lo : Nat} (h : Memory.wfFrom lo m = true) (i : Nat) (b : Byte) (j : Nat) :
    (m.write i b).read j = if j = i then b else m.read j := by
  induction m generalizing lo with
  | nil =>
    simp only [Memory.write]
    split
    · by_cases hj : j = i <;> simp_all
    · by_cases hj : j = i
      · simp [Memory.read_cons, hj]
      · have : ¬i = j := fun e => hj e.symm
        simp [Memory.read_cons, hj, this]
  | cons c m ih =>
    obtain ⟨k, v⟩ := c
    have hm := h
    simp only [Memory.wfFrom, Bool.and_eq_true, decide_eq_true_eq] at hm
    simp only [Memory.write]
    split
    · rename_i hik
      split
      · rename_i hb
        by_cases hj : j = i
        · have := Memory.read_of_lt (lo := k) (m := (k, v) :: m) (i := j)
            (by simp [Memory.wfFrom, hm.1.2, hm.2]) (by omega)
          rw [this, if_pos hj, hb]
        · rw [if_neg hj]
      · by_cases hj : j = i
        · simp [Memory.read_cons, hj]
        · have : ¬i = j := fun e => hj e.symm
          simp [Memory.read_cons, hj, this]
    · split
      · rename_i hik
        subst hik
        split
        · rename_i hb
          by_cases hj : j = i
          · rw [if_pos hj, hj, hb]
            exact Memory.read_of_lt hm.2 (by omega)
          · have : ¬i = j := fun e => hj e.symm
            rw [if_neg hj, Memory.read_cons, if_neg this]
        · by_cases hj : j = i
          · simp [Memory.read_cons, hj]
          · have : ¬i = j := fun e => hj e.symm
            simp [Memory.read_cons, hj, this]
      · rw [Memory.read_cons, Memory.read_cons, ih hm.2]
        by_cases hk : k = j
        · have : ¬j = i := by omega
          simp [hk, this]
        · simp [hk]

theorem Memory.read_write {m : Memory} (h : m.wf = true) (i : Nat) (b : Byte) (j : Nat) :
    (m.write i b).read j = if j = i then b else m.read j := Memory.read_write_from h i b j

/-! ## The canonical form -/

theorem Memory.write_wfFrom {m : Memory} {lo i : Nat} {b : Byte} (h : Memory.wfFrom lo m = true) (hi : lo ≤ i) :
    Memory.wfFrom lo (m.write i b) = true := by
  induction m generalizing lo with
  | nil =>
    simp only [Memory.write]
    split
    · rfl
    · simp_all [Memory.wfFrom]
  | cons c m ih =>
    obtain ⟨k, v⟩ := c
    have hm := h
    simp only [Memory.wfFrom, Bool.and_eq_true, decide_eq_true_eq] at hm
    simp only [Memory.write]
    split
    · split
      · exact h
      · simp only [Memory.wfFrom, Bool.and_eq_true, decide_eq_true_eq]
        exact ⟨⟨hi, by simpa using ‹¬b = Memory.unlisted›⟩, ⟨by omega, hm.1.2⟩, hm.2⟩
    · split
      · rename_i hik
        subst hik
        split
        · exact Memory.wfFrom_mono hm.2 (by omega)
        · simp only [Memory.wfFrom, Bool.and_eq_true, decide_eq_true_eq]
          exact ⟨⟨hi, by simpa using ‹¬b = Memory.unlisted›⟩, hm.2⟩
      · simp only [Memory.wfFrom, Bool.and_eq_true, decide_eq_true_eq]
        exact ⟨hm.1, ih hm.2 (by omega)⟩

theorem Memory.write_wf {m : Memory} (h : m.wf = true) (i : Nat) (b : Byte) : (m.write i b).wf = true :=
  Memory.write_wfFrom h (Nat.zero_le i)

theorem Memory.writeBytes_wf {m : Memory} (h : m.wf = true) (i : Nat) (bs : Bytes) :
    (m.writeBytes i bs).wf = true := by
  induction bs generalizing m i with
  | nil => exact h
  | cons b bs ih => exact ih (Memory.write_wf h i b) (i + 1)

theorem Memory.nil_wf : Memory.wf [] = true := rfl

/-- Every listed byte is where a read finds it, so canonical arrays with equal reads are equal. -/
theorem Memory.eq_of_read_eq_from {m m' : Memory} {lo lo' : Nat} (h : Memory.wfFrom lo m = true)
    (h' : Memory.wfFrom lo' m' = true) (hr : ∀ i, m.read i = m'.read i) : m = m' := by
  induction m generalizing m' lo lo' with
  | nil =>
    cases m' with
    | nil => rfl
    | cons c m' =>
      obtain ⟨k, v⟩ := c
      simp only [Memory.wfFrom, Bool.and_eq_true, decide_eq_true_eq, bne_iff_ne] at h'
      exact absurd (by simpa [Memory.read_cons] using (hr k).symm) h'.1.2
  | cons c m ih =>
    obtain ⟨k, v⟩ := c
    simp only [Memory.wfFrom, Bool.and_eq_true, decide_eq_true_eq, bne_iff_ne] at h
    cases m' with
    | nil => exact absurd (by simpa [Memory.read_cons] using hr k) h.1.2
    | cons c' m' =>
      obtain ⟨k', v'⟩ := c'
      simp only [Memory.wfFrom, Bool.and_eq_true, decide_eq_true_eq, bne_iff_ne] at h'
      have hkk : k = k' := by
        rcases Nat.lt_trichotomy k k' with hlt | heq | hgt
        · have h1 := hr k
          rw [Memory.read_cons, if_pos rfl, Memory.read_cons, if_neg (by omega),
            Memory.read_of_lt h'.2 (by omega)] at h1
          exact absurd h1 h.1.2
        · exact heq
        · have h1 := hr k'
          rw [Memory.read_cons, if_neg (by omega), Memory.read_of_lt h.2 (by omega), Memory.read_cons,
            if_pos rfl] at h1
          exact absurd h1.symm h'.1.2
      subst hkk
      have hvv : v = v' := by simpa [Memory.read_cons] using hr k
      subst hvv
      have htail : m = m' := ih h.2 h'.2 fun i => by
        by_cases hi : k = i
        · rw [Memory.read_of_lt h.2 (by omega), Memory.read_of_lt h'.2 (by omega)]
        · simpa [Memory.read_cons, hi] using hr i
      rw [htail]

theorem Memory.eq_of_read_eq {m m' : Memory} (h : m.wf = true) (h' : m'.wf = true)
    (hr : ∀ i, m.read i = m'.read i) : m = m' := Memory.eq_of_read_eq_from h h' hr

/-! ## Sizes -/

theorem Memory.within_cons {size k : Nat} {v : Byte} {m : Memory} :
    Memory.within size ((k, v) :: m) = true ↔ k < size ∧ m.within size = true := by
  simp only [Memory.within, List.all_cons, Bool.and_eq_true, decide_eq_true_eq]

theorem Memory.write_within {m : Memory} {size i : Nat} (h : m.within size = true) (hi : i < size) (b : Byte) :
    (m.write i b).within size = true := by
  induction m with
  | nil =>
    simp only [Memory.write]
    split
    · rfl
    · exact Memory.within_cons.2 ⟨hi, rfl⟩
  | cons c m ih =>
    obtain ⟨k, v⟩ := c
    have hm := Memory.within_cons.1 h
    simp only [Memory.write]
    split
    · split
      · exact h
      · exact Memory.within_cons.2 ⟨hi, h⟩
    · split
      · split
        · exact hm.2
        · exact Memory.within_cons.2 ⟨hi, hm.2⟩
      · exact Memory.within_cons.2 ⟨hm.1, ih hm.2⟩

theorem Memory.writeBytes_within {m : Memory} {size i : Nat} {bs : Bytes} (h : m.within size = true)
    (hi : i + bs.length ≤ size) : (m.writeBytes i bs).within size = true := by
  induction bs generalizing m i with
  | nil => exact h
  | cons b bs ih =>
    simp only [List.length_cons] at hi
    exact ih (Memory.write_within h (by omega) b) (by omega)

theorem Memory.nil_within (size : Nat) : Memory.within size [] = true := rfl

/-! ## Ranges -/

@[simp] theorem Memory.readBytes_length (m : Memory) (i n : Nat) : (m.readBytes i n).length = n := by
  induction n generalizing i with
  | zero => rfl
  | succ n ih => simp [Memory.readBytes, ih]

theorem Memory.readBytes_getElem (m : Memory) {i n j : Nat} (h : j < (m.readBytes i n).length) :
    (m.readBytes i n)[j] = m.read (i + j) := by
  induction n generalizing i j with
  | zero => simp at h
  | succ n ih =>
    cases j with
    | zero => rfl
    | succ j =>
      simp only [Memory.readBytes, List.getElem_cons_succ]
      rw [ih]
      congr 1
      omega

/-- Ranges that read the same bytes are the same sequence. -/
theorem Memory.readBytes_congr {m m' : Memory} {i n : Nat} (h : ∀ j, j < n → m.read (i + j) = m'.read (i + j)) :
    m.readBytes i n = m'.readBytes i n := by
  induction n generalizing i with
  | zero => rfl
  | succ n ih =>
    simp only [Memory.readBytes]
    rw [show m.read i = m'.read i from h 0 (by omega), ih]
    intro j hj
    have := h (j + 1) (by omega)
    rwa [show i + (j + 1) = i + 1 + j by omega] at this

/-- Outside the written range every byte is as before. -/
theorem Memory.read_writeBytes_outside {m : Memory} (h : m.wf = true) {i j : Nat} {bs : Bytes}
    (hj : j < i ∨ i + bs.length ≤ j) : (m.writeBytes i bs).read j = m.read j := by
  induction bs generalizing m i with
  | nil => rfl
  | cons b bs ih =>
    simp only [List.length_cons] at hj
    rw [Memory.writeBytes, ih (Memory.write_wf h i b) (by omega), Memory.read_write h, if_neg (by omega)]

/-- Inside the written range an index reads the byte written there. -/
theorem Memory.read_writeBytes_inside {m : Memory} (h : m.wf = true) {i j : Nat} {bs : Bytes} (hj : j < bs.length) :
    (m.writeBytes i bs).read (i + j) = bs[j] := by
  induction bs generalizing m i j with
  | nil => simp at hj
  | cons b bs ih =>
    rw [Memory.writeBytes]
    cases j with
    | zero =>
      rw [Memory.read_writeBytes_outside (Memory.write_wf h i b) (by omega), Memory.read_write h]
      simp
    | succ j =>
      have := ih (Memory.write_wf h i b) (i := i + 1) (j := j) (by simpa using hj)
      simpa [Nat.add_assoc, Nat.add_comm 1 j] using this

/-- Reading back a whole written range gives what was written. -/
theorem Memory.readBytes_writeBytes {m : Memory} (h : m.wf = true) (i : Nat) (bs : Bytes) :
    (m.writeBytes i bs).readBytes i bs.length = bs := by
  apply List.ext_getElem
  · simp
  · intro j h1 h2
    rw [Memory.readBytes_getElem, Memory.read_writeBytes_inside h h2]

/-- One more byte written after a range extends the range read. -/
theorem Memory.readBytes_succ (m : Memory) (i n : Nat) : m.readBytes i (n + 1) = m.readBytes i n ++ [m.read (i + n)] := by
  induction n generalizing i with
  | zero => rfl
  | succ n ih =>
    rw [Memory.readBytes, ih (i + 1), Memory.readBytes]
    simp [Nat.add_assoc, Nat.add_comm 1 n]

theorem Memory.readBytes_write_end {m : Memory} (h : m.wf = true) (n : Nat) (b : Byte) :
    (m.write n b).readBytes 0 (n + 1) = m.readBytes 0 n ++ [b] := by
  rw [Memory.readBytes_succ, Nat.zero_add, Memory.read_write h, if_pos rfl]
  congr 1
  refine Memory.readBytes_congr fun j hj => ?_
  rw [Memory.read_write h, if_neg (by omega)]

/-- A part of a range. -/
theorem Memory.readBytes_drop (m : Memory) (i n k : Nat) : (m.readBytes i n).drop k = m.readBytes (i + k) (n - k) := by
  apply List.ext_getElem
  · simp
  · intro j h1 h2
    rw [List.getElem_drop, Memory.readBytes_getElem, Memory.readBytes_getElem, Nat.add_assoc]

end Sys2Proof.Machine
end

