-- ==== Sys2Proof/Laws/State.lean ====
section
/-! SUPPORT. One lemma per field per update: what each shared operation leaves in each field of the state. -/
namespace Sys2Proof.Machine

/-! ## `emit` -/

@[simp] theorem emit_cfgSelf (e : Event) (s : State) : (emit e s).cfgSelf = s.cfgSelf := rfl
@[simp] theorem emit_cfgM (e : Event) (s : State) : (emit e s).cfgM = s.cfgM := rfl
@[simp] theorem emit_cfgSchemeReq (e : Event) (s : State) : (emit e s).cfgSchemeReq = s.cfgSchemeReq := rfl
@[simp] theorem emit_cfgDirid (e : Event) (s : State) : (emit e s).cfgDirid = s.cfgDirid := rfl
@[simp] theorem emit_cfgDefblk (e : Event) (s : State) : (emit e s).cfgDefblk = s.cfgDefblk := rfl
@[simp] theorem emit_cfgDeftmo (e : Event) (s : State) : (emit e s).cfgDeftmo = s.cfgDeftmo := rfl
@[simp] theorem emit_phySt (e : Event) (s : State) : (emit e s).phySt = s.phySt := rfl
@[simp] theorem emit_macSt (e : Event) (s : State) : (emit e s).macSt = s.macSt := rfl
@[simp] theorem emit_sync (e : Event) (s : State) : (emit e s).sync = s.sync := rfl
@[simp] theorem emit_len (e : Event) (s : State) : (emit e s).len = s.len := rfl
@[simp] theorem emit_acc (e : Event) (s : State) : (emit e s).acc = s.acc := rfl
@[simp] theorem emit_taint (e : Event) (s : State) : (emit e s).taint = s.taint := rfl
@[simp] theorem emit_frm (e : Event) (s : State) : (emit e s).frm = s.frm := rfl
@[simp] theorem emit_txScratch (e : Event) (s : State) : (emit e s).txScratch = s.txScratch := rfl
@[simp] theorem emit_inbuf (e : Event) (s : State) : (emit e s).inbuf = s.inbuf := rfl
@[simp] theorem emit_outbuf (e : Event) (s : State) : (emit e s).outbuf = s.outbuf := rfl
@[simp] theorem emit_outsrc (e : Event) (s : State) : (emit e s).outsrc = s.outsrc := rfl
@[simp] theorem emit_cmd (e : Event) (s : State) : (emit e s).cmd = s.cmd := rfl
@[simp] theorem emit_arg0 (e : Event) (s : State) : (emit e s).arg0 = s.arg0 := rfl
@[simp] theorem emit_arg1 (e : Event) (s : State) : (emit e s).arg1 = s.arg1 := rfl
@[simp] theorem emit_ret (e : Event) (s : State) : (emit e s).ret = s.ret := rfl
@[simp] theorem emit_rstat (e : Event) (s : State) : (emit e s).rstat = s.rstat := rfl
@[simp] theorem emit_dir (e : Event) (s : State) : (emit e s).dir = s.dir := rfl
@[simp] theorem emit_run (e : Event) (s : State) : (emit e s).run = s.run := rfl
@[simp] theorem emit_rx (e : Event) (s : State) : (emit e s).rx = s.rx := rfl
@[simp] theorem emit_clock (e : Event) (s : State) : (emit e s).clock = s.clock := rfl
@[simp] theorem emit_ticks (e : Event) (s : State) : (emit e s).ticks = s.ticks := rfl
@[simp] theorem emit_host (e : Event) (s : State) : (emit e s).host = s.host := rfl
@[simp] theorem emit_resetIn (e : Event) (s : State) : (emit e s).resetIn = s.resetIn := rfl
@[simp] theorem emit_trace (e : Event) (s : State) : (emit e s).trace = s.trace ++ [e] := rfl
@[simp] theorem emit_draws (e : Event) (s : State) : (emit e s).draws = s.draws := rfl

/-! ## `dirSet` -/

@[simp] theorem dirSet_cfgSelf (d : Dir) (s : State) : (dirSet d s).cfgSelf = s.cfgSelf := rfl
@[simp] theorem dirSet_cfgM (d : Dir) (s : State) : (dirSet d s).cfgM = s.cfgM := rfl
@[simp] theorem dirSet_cfgSchemeReq (d : Dir) (s : State) : (dirSet d s).cfgSchemeReq = s.cfgSchemeReq := rfl
@[simp] theorem dirSet_cfgDirid (d : Dir) (s : State) : (dirSet d s).cfgDirid = s.cfgDirid := rfl
@[simp] theorem dirSet_cfgDefblk (d : Dir) (s : State) : (dirSet d s).cfgDefblk = s.cfgDefblk := rfl
@[simp] theorem dirSet_cfgDeftmo (d : Dir) (s : State) : (dirSet d s).cfgDeftmo = s.cfgDeftmo := rfl
@[simp] theorem dirSet_phySt (d : Dir) (s : State) : (dirSet d s).phySt = s.phySt := rfl
@[simp] theorem dirSet_macSt (d : Dir) (s : State) : (dirSet d s).macSt = s.macSt := rfl
@[simp] theorem dirSet_sync (d : Dir) (s : State) : (dirSet d s).sync = s.sync := rfl
@[simp] theorem dirSet_len (d : Dir) (s : State) : (dirSet d s).len = s.len := rfl
@[simp] theorem dirSet_acc (d : Dir) (s : State) : (dirSet d s).acc = s.acc := rfl
@[simp] theorem dirSet_taint (d : Dir) (s : State) : (dirSet d s).taint = s.taint := rfl
@[simp] theorem dirSet_frm (d : Dir) (s : State) : (dirSet d s).frm = s.frm := rfl
@[simp] theorem dirSet_txScratch (d : Dir) (s : State) : (dirSet d s).txScratch = s.txScratch := rfl
@[simp] theorem dirSet_inbuf (d : Dir) (s : State) : (dirSet d s).inbuf = s.inbuf := rfl
@[simp] theorem dirSet_outbuf (d : Dir) (s : State) : (dirSet d s).outbuf = s.outbuf := rfl
@[simp] theorem dirSet_outsrc (d : Dir) (s : State) : (dirSet d s).outsrc = s.outsrc := rfl
@[simp] theorem dirSet_cmd (d : Dir) (s : State) : (dirSet d s).cmd = s.cmd := rfl
@[simp] theorem dirSet_arg0 (d : Dir) (s : State) : (dirSet d s).arg0 = s.arg0 := rfl
@[simp] theorem dirSet_arg1 (d : Dir) (s : State) : (dirSet d s).arg1 = s.arg1 := rfl
@[simp] theorem dirSet_ret (d : Dir) (s : State) : (dirSet d s).ret = s.ret := rfl
@[simp] theorem dirSet_rstat (d : Dir) (s : State) : (dirSet d s).rstat = s.rstat := rfl
@[simp] theorem dirSet_dir (d : Dir) (s : State) : (dirSet d s).dir = d := rfl
@[simp] theorem dirSet_run (d : Dir) (s : State) : (dirSet d s).run = s.run := rfl
@[simp] theorem dirSet_rx (d : Dir) (s : State) : (dirSet d s).rx = s.rx := rfl
@[simp] theorem dirSet_clock (d : Dir) (s : State) : (dirSet d s).clock = s.clock := rfl
@[simp] theorem dirSet_ticks (d : Dir) (s : State) : (dirSet d s).ticks = s.ticks := rfl
@[simp] theorem dirSet_host (d : Dir) (s : State) : (dirSet d s).host = s.host := rfl
@[simp] theorem dirSet_resetIn (d : Dir) (s : State) : (dirSet d s).resetIn = s.resetIn := rfl
@[simp] theorem dirSet_trace (d : Dir) (s : State) : (dirSet d s).trace = s.trace ++ [.dirSet d] := rfl
@[simp] theorem dirSet_draws (d : Dir) (s : State) : (dirSet d s).draws = s.draws := rfl

/-! ## `finish` -/

@[simp] theorem finish_cfgSelf (r : Int) (st : Status) (s : State) : (finish r st s).cfgSelf = s.cfgSelf := rfl
@[simp] theorem finish_cfgM (r : Int) (st : Status) (s : State) : (finish r st s).cfgM = s.cfgM := rfl
@[simp] theorem finish_cfgSchemeReq (r : Int) (st : Status) (s : State) : (finish r st s).cfgSchemeReq = s.cfgSchemeReq := rfl
@[simp] theorem finish_cfgDirid (r : Int) (st : Status) (s : State) : (finish r st s).cfgDirid = s.cfgDirid := rfl
@[simp] theorem finish_cfgDefblk (r : Int) (st : Status) (s : State) : (finish r st s).cfgDefblk = s.cfgDefblk := rfl
@[simp] theorem finish_cfgDeftmo (r : Int) (st : Status) (s : State) : (finish r st s).cfgDeftmo = s.cfgDeftmo := rfl
@[simp] theorem finish_phySt (r : Int) (st : Status) (s : State) : (finish r st s).phySt = s.phySt := rfl
@[simp] theorem finish_macSt (r : Int) (st : Status) (s : State) : (finish r st s).macSt = s.macSt := rfl
@[simp] theorem finish_sync (r : Int) (st : Status) (s : State) : (finish r st s).sync = s.sync := rfl
@[simp] theorem finish_len (r : Int) (st : Status) (s : State) : (finish r st s).len = s.len := rfl
@[simp] theorem finish_acc (r : Int) (st : Status) (s : State) : (finish r st s).acc = s.acc := rfl
@[simp] theorem finish_taint (r : Int) (st : Status) (s : State) : (finish r st s).taint = s.taint := rfl
@[simp] theorem finish_frm (r : Int) (st : Status) (s : State) : (finish r st s).frm = s.frm := rfl
@[simp] theorem finish_txScratch (r : Int) (st : Status) (s : State) : (finish r st s).txScratch = s.txScratch := rfl
@[simp] theorem finish_inbuf (r : Int) (st : Status) (s : State) : (finish r st s).inbuf = s.inbuf := rfl
@[simp] theorem finish_outbuf (r : Int) (st : Status) (s : State) : (finish r st s).outbuf = s.outbuf := rfl
@[simp] theorem finish_outsrc (r : Int) (st : Status) (s : State) : (finish r st s).outsrc = s.outsrc := rfl
@[simp] theorem finish_cmd (r : Int) (st : Status) (s : State) : (finish r st s).cmd = s.cmd := rfl
@[simp] theorem finish_arg0 (r : Int) (st : Status) (s : State) : (finish r st s).arg0 = s.arg0 := rfl
@[simp] theorem finish_arg1 (r : Int) (st : Status) (s : State) : (finish r st s).arg1 = s.arg1 := rfl
@[simp] theorem finish_ret (r : Int) (st : Status) (s : State) : (finish r st s).ret = BitVec.ofInt 32 r := rfl
@[simp] theorem finish_rstat (r : Int) (st : Status) (s : State) : (finish r st s).rstat = st := rfl
@[simp] theorem finish_dir (r : Int) (st : Status) (s : State) : (finish r st s).dir = s.dir := rfl
@[simp] theorem finish_run (r : Int) (st : Status) (s : State) : (finish r st s).run = .idle := rfl
@[simp] theorem finish_rx (r : Int) (st : Status) (s : State) : (finish r st s).rx = s.rx := rfl
@[simp] theorem finish_clock (r : Int) (st : Status) (s : State) : (finish r st s).clock = s.clock := rfl
@[simp] theorem finish_ticks (r : Int) (st : Status) (s : State) : (finish r st s).ticks = s.ticks := rfl
@[simp] theorem finish_host (r : Int) (st : Status) (s : State) : (finish r st s).host = s.host := rfl
@[simp] theorem finish_resetIn (r : Int) (st : Status) (s : State) : (finish r st s).resetIn = s.resetIn := rfl
@[simp] theorem finish_trace (r : Int) (st : Status) (s : State) : (finish r st s).trace = s.trace ++ [.finish r st] := rfl
@[simp] theorem finish_draws (r : Int) (st : Status) (s : State) : (finish r st s).draws = s.draws := rfl

/-! ## `illegal` -/

@[simp] theorem illegal_cfgSelf (s : State) : (illegal s).cfgSelf = s.cfgSelf := rfl
@[simp] theorem illegal_cfgM (s : State) : (illegal s).cfgM = s.cfgM := rfl
@[simp] theorem illegal_cfgSchemeReq (s : State) : (illegal s).cfgSchemeReq = s.cfgSchemeReq := rfl
@[simp] theorem illegal_cfgDirid (s : State) : (illegal s).cfgDirid = s.cfgDirid := rfl
@[simp] theorem illegal_cfgDefblk (s : State) : (illegal s).cfgDefblk = s.cfgDefblk := rfl
@[simp] theorem illegal_cfgDeftmo (s : State) : (illegal s).cfgDeftmo = s.cfgDeftmo := rfl
@[simp] theorem illegal_phySt (s : State) : (illegal s).phySt = s.phySt := rfl
@[simp] theorem illegal_macSt (s : State) : (illegal s).macSt = s.macSt := rfl
@[simp] theorem illegal_sync (s : State) : (illegal s).sync = s.sync := rfl
@[simp] theorem illegal_len (s : State) : (illegal s).len = s.len := rfl
@[simp] theorem illegal_acc (s : State) : (illegal s).acc = s.acc := rfl
@[simp] theorem illegal_taint (s : State) : (illegal s).taint = s.taint := rfl
@[simp] theorem illegal_frm (s : State) : (illegal s).frm = s.frm := rfl
@[simp] theorem illegal_txScratch (s : State) : (illegal s).txScratch = s.txScratch := rfl
@[simp] theorem illegal_inbuf (s : State) : (illegal s).inbuf = s.inbuf := rfl
@[simp] theorem illegal_outbuf (s : State) : (illegal s).outbuf = s.outbuf := rfl
@[simp] theorem illegal_outsrc (s : State) : (illegal s).outsrc = s.outsrc := rfl
@[simp] theorem illegal_cmd (s : State) : (illegal s).cmd = s.cmd := rfl
@[simp] theorem illegal_arg0 (s : State) : (illegal s).arg0 = s.arg0 := rfl
@[simp] theorem illegal_arg1 (s : State) : (illegal s).arg1 = s.arg1 := rfl
@[simp] theorem illegal_ret (s : State) : (illegal s).ret = BitVec.ofInt 32 (-1) := rfl
@[simp] theorem illegal_rstat (s : State) : (illegal s).rstat = .unknownError := rfl
@[simp] theorem illegal_dir (s : State) : (illegal s).dir = s.dir := rfl
@[simp] theorem illegal_run (s : State) : (illegal s).run = .idle := rfl
@[simp] theorem illegal_rx (s : State) : (illegal s).rx = s.rx := rfl
@[simp] theorem illegal_clock (s : State) : (illegal s).clock = s.clock := rfl
@[simp] theorem illegal_ticks (s : State) : (illegal s).ticks = s.ticks := rfl
@[simp] theorem illegal_host (s : State) : (illegal s).host = s.host := rfl
@[simp] theorem illegal_resetIn (s : State) : (illegal s).resetIn = s.resetIn := rfl
@[simp] theorem illegal_trace (s : State) : (illegal s).trace = s.trace ++ [.finish (-1) .unknownError] := rfl
@[simp] theorem illegal_draws (s : State) : (illegal s).draws = s.draws := rfl

/-! ## `macFinish` -/

@[simp] theorem macFinish_cfgSelf (r : Int) (st : Status) (s : State) : (macFinish r st s).cfgSelf = s.cfgSelf := rfl
@[simp] theorem macFinish_cfgM (r : Int) (st : Status) (s : State) : (macFinish r st s).cfgM = s.cfgM := rfl
@[simp] theorem macFinish_cfgSchemeReq (r : Int) (st : Status) (s : State) : (macFinish r st s).cfgSchemeReq = s.cfgSchemeReq := rfl
@[simp] theorem macFinish_cfgDirid (r : Int) (st : Status) (s : State) : (macFinish r st s).cfgDirid = s.cfgDirid := rfl
@[simp] theorem macFinish_cfgDefblk (r : Int) (st : Status) (s : State) : (macFinish r st s).cfgDefblk = s.cfgDefblk := rfl
@[simp] theorem macFinish_cfgDeftmo (r : Int) (st : Status) (s : State) : (macFinish r st s).cfgDeftmo = s.cfgDeftmo := rfl
@[simp] theorem macFinish_phySt (r : Int) (st : Status) (s : State) : (macFinish r st s).phySt = s.phySt := rfl
@[simp] theorem macFinish_macSt (r : Int) (st : Status) (s : State) : (macFinish r st s).macSt = st := rfl
@[simp] theorem macFinish_sync (r : Int) (st : Status) (s : State) : (macFinish r st s).sync = s.sync := rfl
@[simp] theorem macFinish_len (r : Int) (st : Status) (s : State) : (macFinish r st s).len = s.len := rfl
@[simp] theorem macFinish_acc (r : Int) (st : Status) (s : State) : (macFinish r st s).acc = s.acc := rfl
@[simp] theorem macFinish_taint (r : Int) (st : Status) (s : State) : (macFinish r st s).taint = s.taint := rfl
@[simp] theorem macFinish_frm (r : Int) (st : Status) (s : State) : (macFinish r st s).frm = s.frm := rfl
@[simp] theorem macFinish_txScratch (r : Int) (st : Status) (s : State) : (macFinish r st s).txScratch = s.txScratch := rfl
@[simp] theorem macFinish_inbuf (r : Int) (st : Status) (s : State) : (macFinish r st s).inbuf = s.inbuf := rfl
@[simp] theorem macFinish_outbuf (r : Int) (st : Status) (s : State) : (macFinish r st s).outbuf = s.outbuf := rfl
@[simp] theorem macFinish_outsrc (r : Int) (st : Status) (s : State) : (macFinish r st s).outsrc = s.outsrc := rfl
@[simp] theorem macFinish_cmd (r : Int) (st : Status) (s : State) : (macFinish r st s).cmd = s.cmd := rfl
@[simp] theorem macFinish_arg0 (r : Int) (st : Status) (s : State) : (macFinish r st s).arg0 = s.arg0 := rfl
@[simp] theorem macFinish_arg1 (r : Int) (st : Status) (s : State) : (macFinish r st s).arg1 = s.arg1 := rfl
@[simp] theorem macFinish_ret (r : Int) (st : Status) (s : State) : (macFinish r st s).ret = BitVec.ofInt 32 r := rfl
@[simp] theorem macFinish_rstat (r : Int) (st : Status) (s : State) : (macFinish r st s).rstat = st := rfl
@[simp] theorem macFinish_dir (r : Int) (st : Status) (s : State) : (macFinish r st s).dir = s.dir := rfl
@[simp] theorem macFinish_run (r : Int) (st : Status) (s : State) : (macFinish r st s).run = .idle := rfl
@[simp] theorem macFinish_rx (r : Int) (st : Status) (s : State) : (macFinish r st s).rx = s.rx := rfl
@[simp] theorem macFinish_clock (r : Int) (st : Status) (s : State) : (macFinish r st s).clock = s.clock := rfl
@[simp] theorem macFinish_ticks (r : Int) (st : Status) (s : State) : (macFinish r st s).ticks = s.ticks := rfl
@[simp] theorem macFinish_host (r : Int) (st : Status) (s : State) : (macFinish r st s).host = s.host := rfl
@[simp] theorem macFinish_resetIn (r : Int) (st : Status) (s : State) : (macFinish r st s).resetIn = s.resetIn := rfl
@[simp] theorem macFinish_trace (r : Int) (st : Status) (s : State) : (macFinish r st s).trace = s.trace ++ [.finish r st] := rfl
@[simp] theorem macFinish_draws (r : Int) (st : Status) (s : State) : (macFinish r st s).draws = s.draws := rfl

/-! ## `dropFrame` -/

@[simp] theorem dropFrame_cfgSelf (s : State) : (dropFrame s).cfgSelf = s.cfgSelf := rfl
@[simp] theorem dropFrame_cfgM (s : State) : (dropFrame s).cfgM = s.cfgM := rfl
@[simp] theorem dropFrame_cfgSchemeReq (s : State) : (dropFrame s).cfgSchemeReq = s.cfgSchemeReq := rfl
@[simp] theorem dropFrame_cfgDirid (s : State) : (dropFrame s).cfgDirid = s.cfgDirid := rfl
@[simp] theorem dropFrame_cfgDefblk (s : State) : (dropFrame s).cfgDefblk = s.cfgDefblk := rfl
@[simp] theorem dropFrame_cfgDeftmo (s : State) : (dropFrame s).cfgDeftmo = s.cfgDeftmo := rfl
@[simp] theorem dropFrame_phySt (s : State) : (dropFrame s).phySt = s.phySt := rfl
@[simp] theorem dropFrame_macSt (s : State) : (dropFrame s).macSt = s.macSt := rfl
@[simp] theorem dropFrame_sync (s : State) : (dropFrame s).sync = false := rfl
@[simp] theorem dropFrame_len (s : State) : (dropFrame s).len = 0 := rfl
@[simp] theorem dropFrame_acc (s : State) : (dropFrame s).acc = s.acc := rfl
@[simp] theorem dropFrame_taint (s : State) : (dropFrame s).taint = false := rfl
@[simp] theorem dropFrame_frm (s : State) : (dropFrame s).frm = s.frm := rfl
@[simp] theorem dropFrame_txScratch (s : State) : (dropFrame s).txScratch = s.txScratch := rfl
@[simp] theorem dropFrame_inbuf (s : State) : (dropFrame s).inbuf = s.inbuf := rfl
@[simp] theorem dropFrame_outbuf (s : State) : (dropFrame s).outbuf = s.outbuf := rfl
@[simp] theorem dropFrame_outsrc (s : State) : (dropFrame s).outsrc = s.outsrc := rfl
@[simp] theorem dropFrame_cmd (s : State) : (dropFrame s).cmd = s.cmd := rfl
@[simp] theorem dropFrame_arg0 (s : State) : (dropFrame s).arg0 = s.arg0 := rfl
@[simp] theorem dropFrame_arg1 (s : State) : (dropFrame s).arg1 = s.arg1 := rfl
@[simp] theorem dropFrame_ret (s : State) : (dropFrame s).ret = s.ret := rfl
@[simp] theorem dropFrame_rstat (s : State) : (dropFrame s).rstat = s.rstat := rfl
@[simp] theorem dropFrame_dir (s : State) : (dropFrame s).dir = s.dir := rfl
@[simp] theorem dropFrame_run (s : State) : (dropFrame s).run = s.run := rfl
@[simp] theorem dropFrame_rx (s : State) : (dropFrame s).rx = s.rx := rfl
@[simp] theorem dropFrame_clock (s : State) : (dropFrame s).clock = s.clock := rfl
@[simp] theorem dropFrame_ticks (s : State) : (dropFrame s).ticks = s.ticks := rfl
@[simp] theorem dropFrame_host (s : State) : (dropFrame s).host = s.host := rfl
@[simp] theorem dropFrame_resetIn (s : State) : (dropFrame s).resetIn = s.resetIn := rfl
@[simp] theorem dropFrame_trace (s : State) : (dropFrame s).trace = s.trace := rfl
@[simp] theorem dropFrame_draws (s : State) : (dropFrame s).draws = s.draws := rfl

/-! ## `openFrame` -/

@[simp] theorem openFrame_cfgSelf (s : State) : (openFrame s).cfgSelf = s.cfgSelf := rfl
@[simp] theorem openFrame_cfgM (s : State) : (openFrame s).cfgM = s.cfgM := rfl
@[simp] theorem openFrame_cfgSchemeReq (s : State) : (openFrame s).cfgSchemeReq = s.cfgSchemeReq := rfl
@[simp] theorem openFrame_cfgDirid (s : State) : (openFrame s).cfgDirid = s.cfgDirid := rfl
@[simp] theorem openFrame_cfgDefblk (s : State) : (openFrame s).cfgDefblk = s.cfgDefblk := rfl
@[simp] theorem openFrame_cfgDeftmo (s : State) : (openFrame s).cfgDeftmo = s.cfgDeftmo := rfl
@[simp] theorem openFrame_phySt (s : State) : (openFrame s).phySt = s.phySt := rfl
@[simp] theorem openFrame_macSt (s : State) : (openFrame s).macSt = s.macSt := rfl
@[simp] theorem openFrame_sync (s : State) : (openFrame s).sync = true := rfl
@[simp] theorem openFrame_len (s : State) : (openFrame s).len = 0 := rfl
@[simp] theorem openFrame_acc (s : State) : (openFrame s).acc = s.acc := rfl
@[simp] theorem openFrame_taint (s : State) : (openFrame s).taint = false := rfl
@[simp] theorem openFrame_frm (s : State) : (openFrame s).frm = s.frm := rfl
@[simp] theorem openFrame_txScratch (s : State) : (openFrame s).txScratch = s.txScratch := rfl
@[simp] theorem openFrame_inbuf (s : State) : (openFrame s).inbuf = s.inbuf := rfl
@[simp] theorem openFrame_outbuf (s : State) : (openFrame s).outbuf = s.outbuf := rfl
@[simp] theorem openFrame_outsrc (s : State) : (openFrame s).outsrc = s.outsrc := rfl
@[simp] theorem openFrame_cmd (s : State) : (openFrame s).cmd = s.cmd := rfl
@[simp] theorem openFrame_arg0 (s : State) : (openFrame s).arg0 = s.arg0 := rfl
@[simp] theorem openFrame_arg1 (s : State) : (openFrame s).arg1 = s.arg1 := rfl
@[simp] theorem openFrame_ret (s : State) : (openFrame s).ret = s.ret := rfl
@[simp] theorem openFrame_rstat (s : State) : (openFrame s).rstat = s.rstat := rfl
@[simp] theorem openFrame_dir (s : State) : (openFrame s).dir = s.dir := rfl
@[simp] theorem openFrame_run (s : State) : (openFrame s).run = s.run := rfl
@[simp] theorem openFrame_rx (s : State) : (openFrame s).rx = s.rx := rfl
@[simp] theorem openFrame_clock (s : State) : (openFrame s).clock = s.clock := rfl
@[simp] theorem openFrame_ticks (s : State) : (openFrame s).ticks = s.ticks := rfl
@[simp] theorem openFrame_host (s : State) : (openFrame s).host = s.host := rfl
@[simp] theorem openFrame_resetIn (s : State) : (openFrame s).resetIn = s.resetIn := rfl
@[simp] theorem openFrame_trace (s : State) : (openFrame s).trace = s.trace := rfl
@[simp] theorem openFrame_draws (s : State) : (openFrame s).draws = s.draws := rfl

/-! ## `latch` -/

@[simp] theorem latch_cfgSelf (c a b : Word) (s : State) : (latch c a b s).cfgSelf = s.cfgSelf := rfl
@[simp] theorem latch_cfgM (c a b : Word) (s : State) : (latch c a b s).cfgM = s.cfgM := rfl
@[simp] theorem latch_cfgSchemeReq (c a b : Word) (s : State) : (latch c a b s).cfgSchemeReq = s.cfgSchemeReq := rfl
@[simp] theorem latch_cfgDirid (c a b : Word) (s : State) : (latch c a b s).cfgDirid = s.cfgDirid := rfl
@[simp] theorem latch_cfgDefblk (c a b : Word) (s : State) : (latch c a b s).cfgDefblk = s.cfgDefblk := rfl
@[simp] theorem latch_cfgDeftmo (c a b : Word) (s : State) : (latch c a b s).cfgDeftmo = s.cfgDeftmo := rfl
@[simp] theorem latch_phySt (c a b : Word) (s : State) : (latch c a b s).phySt = s.phySt := rfl
@[simp] theorem latch_macSt (c a b : Word) (s : State) : (latch c a b s).macSt = s.macSt := rfl
@[simp] theorem latch_sync (c a b : Word) (s : State) : (latch c a b s).sync = s.sync := rfl
@[simp] theorem latch_len (c a b : Word) (s : State) : (latch c a b s).len = s.len := rfl
@[simp] theorem latch_acc (c a b : Word) (s : State) : (latch c a b s).acc = s.acc := rfl
@[simp] theorem latch_taint (c a b : Word) (s : State) : (latch c a b s).taint = s.taint := rfl
@[simp] theorem latch_frm (c a b : Word) (s : State) : (latch c a b s).frm = s.frm := rfl
@[simp] theorem latch_txScratch (c a b : Word) (s : State) : (latch c a b s).txScratch = s.txScratch := rfl
@[simp] theorem latch_inbuf (c a b : Word) (s : State) : (latch c a b s).inbuf = s.inbuf := rfl
@[simp] theorem latch_outbuf (c a b : Word) (s : State) : (latch c a b s).outbuf = s.outbuf := rfl
@[simp] theorem latch_outsrc (c a b : Word) (s : State) : (latch c a b s).outsrc = s.outsrc := rfl
@[simp] theorem latch_cmd (c a b : Word) (s : State) : (latch c a b s).cmd = c := rfl
@[simp] theorem latch_arg0 (c a b : Word) (s : State) : (latch c a b s).arg0 = a := rfl
@[simp] theorem latch_arg1 (c a b : Word) (s : State) : (latch c a b s).arg1 = b := rfl
@[simp] theorem latch_ret (c a b : Word) (s : State) : (latch c a b s).ret = s.ret := rfl
@[simp] theorem latch_rstat (c a b : Word) (s : State) : (latch c a b s).rstat = s.rstat := rfl
@[simp] theorem latch_dir (c a b : Word) (s : State) : (latch c a b s).dir = s.dir := rfl
@[simp] theorem latch_run (c a b : Word) (s : State) : (latch c a b s).run = s.run := rfl
@[simp] theorem latch_rx (c a b : Word) (s : State) : (latch c a b s).rx = s.rx := rfl
@[simp] theorem latch_clock (c a b : Word) (s : State) : (latch c a b s).clock = s.clock := rfl
@[simp] theorem latch_ticks (c a b : Word) (s : State) : (latch c a b s).ticks = s.ticks := rfl
@[simp] theorem latch_host (c a b : Word) (s : State) : (latch c a b s).host = s.host := rfl
@[simp] theorem latch_resetIn (c a b : Word) (s : State) : (latch c a b s).resetIn = s.resetIn := rfl
@[simp] theorem latch_trace (c a b : Word) (s : State) : (latch c a b s).trace = s.trace := rfl
@[simp] theorem latch_draws (c a b : Word) (s : State) : (latch c a b s).draws = s.draws := rfl

/-! ## `sampled` -/

@[simp] theorem sampled_cfgSelf (s : State) : s.sampled.cfgSelf = s.cfgSelf := rfl
@[simp] theorem sampled_cfgM (s : State) : s.sampled.cfgM = s.cfgM := rfl
@[simp] theorem sampled_cfgSchemeReq (s : State) : s.sampled.cfgSchemeReq = s.cfgSchemeReq := rfl
@[simp] theorem sampled_cfgDirid (s : State) : s.sampled.cfgDirid = s.cfgDirid := rfl
@[simp] theorem sampled_cfgDefblk (s : State) : s.sampled.cfgDefblk = s.cfgDefblk := rfl
@[simp] theorem sampled_cfgDeftmo (s : State) : s.sampled.cfgDeftmo = s.cfgDeftmo := rfl
@[simp] theorem sampled_phySt (s : State) : s.sampled.phySt = s.phySt := rfl
@[simp] theorem sampled_macSt (s : State) : s.sampled.macSt = s.macSt := rfl
@[simp] theorem sampled_sync (s : State) : s.sampled.sync = s.sync := rfl
@[simp] theorem sampled_len (s : State) : s.sampled.len = s.len := rfl
@[simp] theorem sampled_acc (s : State) : s.sampled.acc = s.acc := rfl
@[simp] theorem sampled_taint (s : State) : s.sampled.taint = s.taint := rfl
@[simp] theorem sampled_frm (s : State) : s.sampled.frm = s.frm := rfl
@[simp] theorem sampled_txScratch (s : State) : s.sampled.txScratch = s.txScratch := rfl
@[simp] theorem sampled_inbuf (s : State) : s.sampled.inbuf = s.inbuf := rfl
@[simp] theorem sampled_outbuf (s : State) : s.sampled.outbuf = s.outbuf := rfl
@[simp] theorem sampled_outsrc (s : State) : s.sampled.outsrc = s.outsrc := rfl
@[simp] theorem sampled_cmd (s : State) : s.sampled.cmd = s.cmd := rfl
@[simp] theorem sampled_arg0 (s : State) : s.sampled.arg0 = s.arg0 := rfl
@[simp] theorem sampled_arg1 (s : State) : s.sampled.arg1 = s.arg1 := rfl
@[simp] theorem sampled_ret (s : State) : s.sampled.ret = s.ret := rfl
@[simp] theorem sampled_rstat (s : State) : s.sampled.rstat = s.rstat := rfl
@[simp] theorem sampled_dir (s : State) : s.sampled.dir = s.dir := rfl
@[simp] theorem sampled_run (s : State) : s.sampled.run = s.run := rfl
@[simp] theorem sampled_rx (s : State) : s.sampled.rx = s.rx := rfl
@[simp] theorem sampled_clock (s : State) : s.sampled.clock = s.clock := rfl
@[simp] theorem sampled_ticks (s : State) : s.sampled.ticks = s.ticks := rfl
@[simp] theorem sampled_host (s : State) : s.sampled.host = s.host := rfl
@[simp] theorem sampled_resetIn (s : State) : s.sampled.resetIn = s.resetIn.tail := rfl
@[simp] theorem sampled_trace (s : State) : s.sampled.trace = s.trace := rfl
@[simp] theorem sampled_draws (s : State) : s.sampled.draws = s.draws := rfl

/-! ## `polled` -/

@[simp] theorem polled_cfgSelf (s : State) : s.polled.cfgSelf = s.cfgSelf := rfl
@[simp] theorem polled_cfgM (s : State) : s.polled.cfgM = s.cfgM := rfl
@[simp] theorem polled_cfgSchemeReq (s : State) : s.polled.cfgSchemeReq = s.cfgSchemeReq := rfl
@[simp] theorem polled_cfgDirid (s : State) : s.polled.cfgDirid = s.cfgDirid := rfl
@[simp] theorem polled_cfgDefblk (s : State) : s.polled.cfgDefblk = s.cfgDefblk := rfl
@[simp] theorem polled_cfgDeftmo (s : State) : s.polled.cfgDeftmo = s.cfgDeftmo := rfl
@[simp] theorem polled_phySt (s : State) : s.polled.phySt = s.phySt := rfl
@[simp] theorem polled_macSt (s : State) : s.polled.macSt = s.macSt := rfl
@[simp] theorem polled_sync (s : State) : s.polled.sync = s.sync := rfl
@[simp] theorem polled_len (s : State) : s.polled.len = s.len := rfl
@[simp] theorem polled_acc (s : State) : s.polled.acc = s.acc := rfl
@[simp] theorem polled_taint (s : State) : s.polled.taint = s.taint := rfl
@[simp] theorem polled_frm (s : State) : s.polled.frm = s.frm := rfl
@[simp] theorem polled_txScratch (s : State) : s.polled.txScratch = s.txScratch := rfl
@[simp] theorem polled_inbuf (s : State) : s.polled.inbuf = s.inbuf := rfl
@[simp] theorem polled_outbuf (s : State) : s.polled.outbuf = s.outbuf := rfl
@[simp] theorem polled_outsrc (s : State) : s.polled.outsrc = s.outsrc := rfl
@[simp] theorem polled_cmd (s : State) : s.polled.cmd = s.cmd := rfl
@[simp] theorem polled_arg0 (s : State) : s.polled.arg0 = s.arg0 := rfl
@[simp] theorem polled_arg1 (s : State) : s.polled.arg1 = s.arg1 := rfl
@[simp] theorem polled_ret (s : State) : s.polled.ret = s.ret := rfl
@[simp] theorem polled_rstat (s : State) : s.polled.rstat = s.rstat := rfl
@[simp] theorem polled_dir (s : State) : s.polled.dir = s.dir := rfl
@[simp] theorem polled_run (s : State) : s.polled.run = s.run := rfl
@[simp] theorem polled_rx (s : State) : s.polled.rx = s.rx.tail := rfl
@[simp] theorem polled_clock (s : State) : s.polled.clock = s.clock := rfl
@[simp] theorem polled_ticks (s : State) : s.polled.ticks = s.ticks := rfl
@[simp] theorem polled_host (s : State) : s.polled.host = s.host := rfl
@[simp] theorem polled_resetIn (s : State) : s.polled.resetIn = s.resetIn := rfl
@[simp] theorem polled_trace (s : State) : s.polled.trace = s.trace ++ [.rxPoll (s.rx.headD none)] := rfl
@[simp] theorem polled_draws (s : State) : s.polled.draws = s.draws := rfl

/-! ## `checked` -/

@[simp] theorem checked_cfgSelf (C : Config) (s : State) : (s.checked C).cfgSelf = s.cfgSelf := rfl
@[simp] theorem checked_cfgM (C : Config) (s : State) : (s.checked C).cfgM = s.cfgM := rfl
@[simp] theorem checked_cfgSchemeReq (C : Config) (s : State) : (s.checked C).cfgSchemeReq = s.cfgSchemeReq := rfl
@[simp] theorem checked_cfgDirid (C : Config) (s : State) : (s.checked C).cfgDirid = s.cfgDirid := rfl
@[simp] theorem checked_cfgDefblk (C : Config) (s : State) : (s.checked C).cfgDefblk = s.cfgDefblk := rfl
@[simp] theorem checked_cfgDeftmo (C : Config) (s : State) : (s.checked C).cfgDeftmo = s.cfgDeftmo := rfl
@[simp] theorem checked_phySt (C : Config) (s : State) : (s.checked C).phySt = s.phySt := rfl
@[simp] theorem checked_macSt (C : Config) (s : State) : (s.checked C).macSt = s.macSt := rfl
@[simp] theorem checked_sync (C : Config) (s : State) : (s.checked C).sync = s.sync := rfl
@[simp] theorem checked_len (C : Config) (s : State) : (s.checked C).len = s.len := rfl
@[simp] theorem checked_acc (C : Config) (s : State) : (s.checked C).acc = s.acc := rfl
@[simp] theorem checked_taint (C : Config) (s : State) : (s.checked C).taint = s.taint := rfl
@[simp] theorem checked_frm (C : Config) (s : State) : (s.checked C).frm = s.frm := rfl
@[simp] theorem checked_txScratch (C : Config) (s : State) : (s.checked C).txScratch = s.txScratch := rfl
@[simp] theorem checked_inbuf (C : Config) (s : State) : (s.checked C).inbuf = s.inbuf := rfl
@[simp] theorem checked_outbuf (C : Config) (s : State) : (s.checked C).outbuf = s.outbuf := rfl
@[simp] theorem checked_outsrc (C : Config) (s : State) : (s.checked C).outsrc = s.outsrc := rfl
@[simp] theorem checked_cmd (C : Config) (s : State) : (s.checked C).cmd = s.cmd := rfl
@[simp] theorem checked_arg0 (C : Config) (s : State) : (s.checked C).arg0 = s.arg0 := rfl
@[simp] theorem checked_arg1 (C : Config) (s : State) : (s.checked C).arg1 = s.arg1 := rfl
@[simp] theorem checked_ret (C : Config) (s : State) : (s.checked C).ret = s.ret := rfl
@[simp] theorem checked_rstat (C : Config) (s : State) : (s.checked C).rstat = s.rstat := rfl
@[simp] theorem checked_dir (C : Config) (s : State) : (s.checked C).dir = s.dir := rfl
@[simp] theorem checked_run (C : Config) (s : State) : (s.checked C).run = s.run := rfl
@[simp] theorem checked_rx (C : Config) (s : State) : (s.checked C).rx = s.rx := rfl
@[simp] theorem checked_clock (C : Config) (s : State) : (s.checked C).clock = s.clockNext := rfl
@[simp] theorem checked_ticks (C : Config) (s : State) : (s.checked C).ticks = s.ticks.tail := rfl
@[simp] theorem checked_host (C : Config) (s : State) : (s.checked C).host = s.host := rfl
@[simp] theorem checked_resetIn (C : Config) (s : State) : (s.checked C).resetIn = s.resetIn.tail := rfl
@[simp] theorem checked_trace (C : Config) (s : State) : (s.checked C).trace = s.trace ++ [.now (s.nowNext C)] := rfl
@[simp] theorem checked_draws (C : Config) (s : State) : (s.checked C).draws = s.draws := rfl

/-! ## `taintIfSynced` -/

@[simp] theorem taintIfSynced_cfgSelf (s : State) : (taintIfSynced s).cfgSelf = s.cfgSelf := by cases h : s.sync <;> simp [taintIfSynced, h]
@[simp] theorem taintIfSynced_cfgM (s : State) : (taintIfSynced s).cfgM = s.cfgM := by cases h : s.sync <;> simp [taintIfSynced, h]
@[simp] theorem taintIfSynced_cfgSchemeReq (s : State) : (taintIfSynced s).cfgSchemeReq = s.cfgSchemeReq := by cases h : s.sync <;> simp [taintIfSynced, h]
@[simp] theorem taintIfSynced_cfgDirid (s : State) : (taintIfSynced s).cfgDirid = s.cfgDirid := by cases h : s.sync <;> simp [taintIfSynced, h]
@[simp] theorem taintIfSynced_cfgDefblk (s : State) : (taintIfSynced s).cfgDefblk = s.cfgDefblk := by cases h : s.sync <;> simp [taintIfSynced, h]
@[simp] theorem taintIfSynced_cfgDeftmo (s : State) : (taintIfSynced s).cfgDeftmo = s.cfgDeftmo := by cases h : s.sync <;> simp [taintIfSynced, h]
@[simp] theorem taintIfSynced_phySt (s : State) : (taintIfSynced s).phySt = s.phySt := by cases h : s.sync <;> simp [taintIfSynced, h]
@[simp] theorem taintIfSynced_macSt (s : State) : (taintIfSynced s).macSt = s.macSt := by cases h : s.sync <;> simp [taintIfSynced, h]
@[simp] theorem taintIfSynced_sync (s : State) : (taintIfSynced s).sync = s.sync := by cases h : s.sync <;> simp [taintIfSynced, h]
@[simp] theorem taintIfSynced_len (s : State) : (taintIfSynced s).len = s.len := by cases h : s.sync <;> simp [taintIfSynced, h]
@[simp] theorem taintIfSynced_acc (s : State) : (taintIfSynced s).acc = s.acc := by cases h : s.sync <;> simp [taintIfSynced, h]
@[simp] theorem taintIfSynced_taint (s : State) : (taintIfSynced s).taint = (s.taint || s.sync) := by cases h : s.sync <;> simp [taintIfSynced, h]
@[simp] theorem taintIfSynced_frm (s : State) : (taintIfSynced s).frm = s.frm := by cases h : s.sync <;> simp [taintIfSynced, h]
@[simp] theorem taintIfSynced_txScratch (s : State) : (taintIfSynced s).txScratch = s.txScratch := by cases h : s.sync <;> simp [taintIfSynced, h]
@[simp] theorem taintIfSynced_inbuf (s : State) : (taintIfSynced s).inbuf = s.inbuf := by cases h : s.sync <;> simp [taintIfSynced, h]
@[simp] theorem taintIfSynced_outbuf (s : State) : (taintIfSynced s).outbuf = s.outbuf := by cases h : s.sync <;> simp [taintIfSynced, h]
@[simp] theorem taintIfSynced_outsrc (s : State) : (taintIfSynced s).outsrc = s.outsrc := by cases h : s.sync <;> simp [taintIfSynced, h]
@[simp] theorem taintIfSynced_cmd (s : State) : (taintIfSynced s).cmd = s.cmd := by cases h : s.sync <;> simp [taintIfSynced, h]
@[simp] theorem taintIfSynced_arg0 (s : State) : (taintIfSynced s).arg0 = s.arg0 := by cases h : s.sync <;> simp [taintIfSynced, h]
@[simp] theorem taintIfSynced_arg1 (s : State) : (taintIfSynced s).arg1 = s.arg1 := by cases h : s.sync <;> simp [taintIfSynced, h]
@[simp] theorem taintIfSynced_ret (s : State) : (taintIfSynced s).ret = s.ret := by cases h : s.sync <;> simp [taintIfSynced, h]
@[simp] theorem taintIfSynced_rstat (s : State) : (taintIfSynced s).rstat = s.rstat := by cases h : s.sync <;> simp [taintIfSynced, h]
@[simp] theorem taintIfSynced_dir (s : State) : (taintIfSynced s).dir = s.dir := by cases h : s.sync <;> simp [taintIfSynced, h]
@[simp] theorem taintIfSynced_run (s : State) : (taintIfSynced s).run = s.run := by cases h : s.sync <;> simp [taintIfSynced, h]
@[simp] theorem taintIfSynced_rx (s : State) : (taintIfSynced s).rx = s.rx := by cases h : s.sync <;> simp [taintIfSynced, h]
@[simp] theorem taintIfSynced_clock (s : State) : (taintIfSynced s).clock = s.clock := by cases h : s.sync <;> simp [taintIfSynced, h]
@[simp] theorem taintIfSynced_ticks (s : State) : (taintIfSynced s).ticks = s.ticks := by cases h : s.sync <;> simp [taintIfSynced, h]
@[simp] theorem taintIfSynced_host (s : State) : (taintIfSynced s).host = s.host := by cases h : s.sync <;> simp [taintIfSynced, h]
@[simp] theorem taintIfSynced_resetIn (s : State) : (taintIfSynced s).resetIn = s.resetIn := by cases h : s.sync <;> simp [taintIfSynced, h]
@[simp] theorem taintIfSynced_trace (s : State) : (taintIfSynced s).trace = s.trace := by cases h : s.sync <;> simp [taintIfSynced, h]
@[simp] theorem taintIfSynced_draws (s : State) : (taintIfSynced s).draws = s.draws := by cases h : s.sync <;> simp [taintIfSynced, h]

/-! ## `setDest` -/

@[simp] theorem setDest_cfgSelf (d : Dest) (m : Memory) (s : State) : (s.setDest d m).cfgSelf = s.cfgSelf := by cases d <;> rfl
@[simp] theorem setDest_cfgM (d : Dest) (m : Memory) (s : State) : (s.setDest d m).cfgM = s.cfgM := by cases d <;> rfl
@[simp] theorem setDest_cfgSchemeReq (d : Dest) (m : Memory) (s : State) : (s.setDest d m).cfgSchemeReq = s.cfgSchemeReq := by cases d <;> rfl
@[simp] theorem setDest_cfgDirid (d : Dest) (m : Memory) (s : State) : (s.setDest d m).cfgDirid = s.cfgDirid := by cases d <;> rfl
@[simp] theorem setDest_cfgDefblk (d : Dest) (m : Memory) (s : State) : (s.setDest d m).cfgDefblk = s.cfgDefblk := by cases d <;> rfl
@[simp] theorem setDest_cfgDeftmo (d : Dest) (m : Memory) (s : State) : (s.setDest d m).cfgDeftmo = s.cfgDeftmo := by cases d <;> rfl
@[simp] theorem setDest_phySt (d : Dest) (m : Memory) (s : State) : (s.setDest d m).phySt = s.phySt := by cases d <;> rfl
@[simp] theorem setDest_macSt (d : Dest) (m : Memory) (s : State) : (s.setDest d m).macSt = s.macSt := by cases d <;> rfl
@[simp] theorem setDest_sync (d : Dest) (m : Memory) (s : State) : (s.setDest d m).sync = s.sync := by cases d <;> rfl
@[simp] theorem setDest_len (d : Dest) (m : Memory) (s : State) : (s.setDest d m).len = s.len := by cases d <;> rfl
@[simp] theorem setDest_acc (d : Dest) (m : Memory) (s : State) : (s.setDest d m).acc = s.acc := by cases d <;> rfl
@[simp] theorem setDest_taint (d : Dest) (m : Memory) (s : State) : (s.setDest d m).taint = s.taint := by cases d <;> rfl
@[simp] theorem setDest_txScratch (d : Dest) (m : Memory) (s : State) : (s.setDest d m).txScratch = s.txScratch := by cases d <;> rfl
@[simp] theorem setDest_inbuf (d : Dest) (m : Memory) (s : State) : (s.setDest d m).inbuf = s.inbuf := by cases d <;> rfl
@[simp] theorem setDest_outsrc (d : Dest) (m : Memory) (s : State) : (s.setDest d m).outsrc = s.outsrc := by cases d <;> rfl
@[simp] theorem setDest_cmd (d : Dest) (m : Memory) (s : State) : (s.setDest d m).cmd = s.cmd := by cases d <;> rfl
@[simp] theorem setDest_arg0 (d : Dest) (m : Memory) (s : State) : (s.setDest d m).arg0 = s.arg0 := by cases d <;> rfl
@[simp] theorem setDest_arg1 (d : Dest) (m : Memory) (s : State) : (s.setDest d m).arg1 = s.arg1 := by cases d <;> rfl
@[simp] theorem setDest_ret (d : Dest) (m : Memory) (s : State) : (s.setDest d m).ret = s.ret := by cases d <;> rfl
@[simp] theorem setDest_rstat (d : Dest) (m : Memory) (s : State) : (s.setDest d m).rstat = s.rstat := by cases d <;> rfl
@[simp] theorem setDest_dir (d : Dest) (m : Memory) (s : State) : (s.setDest d m).dir = s.dir := by cases d <;> rfl
@[simp] theorem setDest_run (d : Dest) (m : Memory) (s : State) : (s.setDest d m).run = s.run := by cases d <;> rfl
@[simp] theorem setDest_rx (d : Dest) (m : Memory) (s : State) : (s.setDest d m).rx = s.rx := by cases d <;> rfl
@[simp] theorem setDest_clock (d : Dest) (m : Memory) (s : State) : (s.setDest d m).clock = s.clock := by cases d <;> rfl
@[simp] theorem setDest_ticks (d : Dest) (m : Memory) (s : State) : (s.setDest d m).ticks = s.ticks := by cases d <;> rfl
@[simp] theorem setDest_host (d : Dest) (m : Memory) (s : State) : (s.setDest d m).host = s.host := by cases d <;> rfl
@[simp] theorem setDest_resetIn (d : Dest) (m : Memory) (s : State) : (s.setDest d m).resetIn = s.resetIn := by cases d <;> rfl
@[simp] theorem setDest_trace (d : Dest) (m : Memory) (s : State) : (s.setDest d m).trace = s.trace := by cases d <;> rfl
@[simp] theorem setDest_draws (d : Dest) (m : Memory) (s : State) : (s.setDest d m).draws = s.draws := by cases d <;> rfl

@[simp] theorem setDest_outbuf_outbuf (m : Memory) (s : State) : (s.setDest .outbuf m).outbuf = m := rfl
@[simp] theorem setDest_outbuf_frm (m : Memory) (s : State) : (s.setDest .outbuf m).frm = s.frm := rfl
@[simp] theorem setDest_frm_frm (m : Memory) (s : State) : (s.setDest .frm m).frm = m := rfl
@[simp] theorem setDest_frm_outbuf (m : Memory) (s : State) : (s.setDest .frm m).outbuf = s.outbuf := rfl
@[simp] theorem setDest_dest (d : Dest) (m : Memory) (s : State) : (s.setDest d m).dest d = m := by cases d <;> rfl
@[simp] theorem dest_outbuf (s : State) : s.dest .outbuf = s.outbuf := rfl
@[simp] theorem dest_frm (s : State) : s.dest .frm = s.frm := rfl

end Sys2Proof.Machine
end

