-- ==== Sys2Proof/Laws/Ops.lean ====
section
/-! SUPPORT. What the interface operations do, each said once, and the tables of statuses. -/
namespace Sys2Proof.Machine

/-! ## Polling and the clock -/

/-- `RxPoll()` answers the head of the input, or no byte, and leaves its event (R12, R31). -/
theorem rxPoll_eq (s : State) : rxPoll s = (s.rx.headD none, s.polled) := by
  cases s with
  | mk _ _ _ _ _ _ _ _ _ _ _ _ _ _ _ _ _ _ _ _ _ _ _ _ rx =>
    cases rx <;> rfl

/-- A deadline check reads the clock and leaves nothing else (R34). -/
theorem now_sampled (C : Config) (s : State) : now C s.sampled = (s.nowNext C, s.checked C) := rfl

theorem elapsed_lt (C : Config) (n t0 : Nat) : elapsed C n t0 < 2 ^ C.clkW := Nat.mod_lt _ (Nat.two_pow_pos _)

/-- `finish` ends a command as the statements say it does (R12, R36). -/
theorem finish_eq_ended (r : Int) (st : Status) (s : State) : finish r st s = State.ended r st s := rfl

/-- The time a deadline check would see is the clock's next reading less `t0`, modulo `2^CLK_W` (R151). -/
theorem elapsed_eq (C : Config) (n t0 : Nat) :
    (elapsed C (n % 2 ^ C.clkW) t0 : Int) = ((n : Int) - t0) % 2 ^ C.clkW := by
  have hm : (0 : Nat) < 2 ^ C.clkW := Nat.two_pow_pos _
  have h0 := Nat.mod_lt t0 hm
  rw [elapsed, Int.natCast_emod, Int.natCast_add, Int.ofNat_sub (Nat.le_of_lt h0), Int.natCast_emod, Int.natCast_emod,
    Int.natCast_pow, Nat.cast_ofNat]
  rw [Int.emod_add_emod, show ((n : Int) + (2 ^ C.clkW - (t0 : Int) % 2 ^ C.clkW)) =
    (n - (t0 : Int) % 2 ^ C.clkW) + 2 ^ C.clkW by ring, Int.add_emod_right, Int.sub_emod_emod]

/-! ## Operands -/

/-- What resolves to non-blocking: `BLK = 00`, or the default where that is non-blocking (R95). -/
theorem resolveBlk_nb_iff (blk : BitVec 2) (s : State) :
    resolveBlk blk s = some .nb ↔ (blk = 0b00#2 ∨ (blk = 0b10#2 ∧ s.cfgDefblk.bit = 0#1)) := by
  have : blk = 0b00#2 ∨ blk = 0b01#2 ∨ blk = 0b10#2 ∨ blk = 0b11#2 := by
    revert blk
    decide
  rcases this with rfl | rfl | rfl | rfl <;> simp [resolveBlk]
  cases s.cfgDefblk <;> simp [Mode.bit]

/-- Only `BLK = 0b11` resolves to no mode (R95). -/
theorem resolveBlk_eq_none_iff (blk : BitVec 2) (s : State) : resolveBlk blk s = none ↔ blk = 0b11#2 := by
  have : blk = 0b00#2 ∨ blk = 0b01#2 ∨ blk = 0b10#2 ∨ blk = 0b11#2 := by
    revert blk
    decide
  rcases this with rfl | rfl | rfl | rfl <;> simp [resolveBlk]

/-! ## Sending -/

/-- `TxByte` of a sequence leaves its events and nothing else. -/
theorem txBytes_eq (bs : Bytes) (s : State) : txBytes bs s = { s with trace := s.trace ++ bs.map .txByte } := by
  induction bs generalizing s with
  | nil => simp [txBytes]
  | cons b bs ih => rw [txBytes, ih]; simp [txByte, emit]

/-- What `emit(E)` leaves: the events of the frame, and `DIR` at `RX` where direction control is on (R126). -/
theorem emitFrame_eq (C : Config) (n : Nat) (s : State) :
    emitFrame C n s =
      { s with
        trace := s.trace ++ frameEvents C s (s.txScratch.readBytes 0 n)
        dir := if s.cfgDirid = 0#8 then s.dir else .rx } := by
  by_cases h : s.cfgDirid = 0#8
  · simp [emitFrame, turnToTransmit, turnToReceive, frameEvents, txBytes_eq, txByte, txFlush, emit, h, State.codec, State.scheme]
  · simp [emitFrame, turnToTransmit, turnToReceive, frameEvents, txBytes_eq, txByte, txFlush, emit, wait, dirSet, h,
      State.codec, State.scheme]

/-! ## What a frame hands to the Transport -/

theorem sentBytes_append (es fs : List Event) : sentBytes (es ++ fs) = sentBytes es ++ sentBytes fs := by
  induction es with
  | nil => rfl
  | cons e es ih => cases e <;> simp [sentBytes, ih]

theorem sentBytes_map_txByte (bs : Bytes) : sentBytes (bs.map .txByte) = bs := by
  induction bs with
  | nil => rfl
  | cons b bs ih => simp [sentBytes, ih]

/-- The bytes of a frame: the delimiter, the encoding, the delimiter (R72, R100). -/
theorem sentBytes_frameEvents (C : Config) (s : State) (e : Bytes) :
    sentBytes (frameEvents C s e) = (s.codec C).delim :: e ++ [(s.codec C).delim] := by
  unfold frameEvents
  split <;> simp [sentBytes_append, sentBytes_map_txByte, sentBytes]

theorem polledAnswers_append (es fs : List Event) : polledAnswers (es ++ fs) = polledAnswers es ++ polledAnswers fs := by
  induction es with
  | nil => rfl
  | cons e es ih => cases e <;> simp [polledAnswers, ih]

/-- No frame event polls the receive interface (R127). -/
theorem polledAnswers_frameEvents (C : Config) (s : State) (e : Bytes) : polledAnswers (frameEvents C s e) = [] := by
  have hmap : ∀ bs : Bytes, polledAnswers (bs.map .txByte) = [] := by
    intro bs
    induction bs with
    | nil => rfl
    | cons b bs ih => simp [polledAnswers, ih]
  unfold frameEvents
  split <;> simp [polledAnswers_append, hmap, polledAnswers]

/-! ## Sizes and draws -/

/-- `CAP` fits the result port with room to spare (R36, R47). -/
theorem cap_lt (s : State) : s.cap < 2 ^ 18 := by
  have := s.cfgM.isLt
  unfold State.cap
  cases s.scheme <;> simp only [capacity] <;> omega

/-- `CAP` is at most the size of the raw buffers where `CFG_M` is legal (R47). -/
theorem cap_le_rawSize {C : Config} {s : State} (h : s.cfgM.toNat ≤ C.maxpMax) : s.cap ≤ rawSize C := by
  unfold State.cap rawSize
  cases s.scheme <;> simp only [capacity] <;> omega

/-- A drawn array is canonical and inside its size. -/
theorem drawnArray_inv (C : Config) (size k : Nat) : ArrayInv size (drawnArray C size k) :=
  ⟨Memory.writeBytes_wf rfl _ _, Memory.writeBytes_within rfl (by simp)⟩

/-- Writing inside an array keeps it canonical and inside its size. -/
theorem ArrayInv.writeBytes {size : Nat} {m : Memory} (h : ArrayInv size m) {i : Nat} {bs : Bytes}
    (hi : i + bs.length ≤ size) : ArrayInv size (m.writeBytes i bs) :=
  ⟨Memory.writeBytes_wf h.wf _ _, Memory.writeBytes_within h.within hi⟩

theorem ArrayInv.write {size : Nat} {m : Memory} (h : ArrayInv size m) {i : Nat} (b : Byte) (hi : i < size) :
    ArrayInv size (m.write i b) :=
  ⟨Memory.write_wf h.wf _ _, Memory.write_within h.within hi _⟩

end Sys2Proof.Machine
end

