-- ==== Sys2Proof/Laws/Phy.lean ====
section
/-! SUPPORT. The PhyFramer's laws: what a send leaves, what each case of a poll iteration leaves, and the one case analysis
that says everything a poll iteration can do. -/
namespace Sys2Proof.Machine

/-! ## Sending -/

/-- Everything a transmission leaves (R124, R126, R128). -/
theorem phyTransmit_eq (C : Config) (e : Bytes) (s : State) :
    phyTransmit C e s =
      { s with
        trace := s.trace ++ frameEvents C s e
        dir := if s.cfgDirid = 0#8 then s.dir else .rx
        taint := s.taint || s.sync
        txScratch := []
        phySt := .noError } := by
  have hread := Memory.readBytes_writeBytes Memory.nil_wf 0 e
  cases h : s.sync <;>
    simp [phyTransmit, emitFrame_eq, taintIfSynced, h, hread, frameEvents, State.codec, State.scheme]

/-- `phy_send` either refuses with `Oversize`, changing `PHY_ST` only, or transmits the whole frame (R121 to R128). -/
theorem phySend_cases (C : Config) (p : Bytes) (s : State) :
    (s.cap < p.length ∨ s.cap < ((s.codec C).enc p).length) ∧
      phySend C p s = ((-1, .oversize), { s with phySt := .oversize }) ∨
    (p.length ≤ s.cap ∧ ((s.codec C).enc p).length ≤ s.cap) ∧
      phySend C p s =
        (((((s.codec C).enc p).length : Int), .noError), phyTransmit C ((s.codec C).enc p) s) := by
  by_cases hp : s.cap < p.length
  · exact .inl ⟨.inl hp, by simp [phySend, hp]⟩
  · by_cases he : s.cap < ((s.codec C).enc p).length
    · exact .inl ⟨.inr he, by simp [phySend, hp, he]⟩
    · exact .inr ⟨⟨by omega, by omega⟩, by simp [phySend, hp, he]⟩

/-- PHY_SEND refuses with `Oversize`, changing `PHY_ST` only, or transmits the whole frame (R129). -/
theorem phySendCommand_cases (C : Config) (size : BitVec 16) (s : State) :
    ((s.cap < size.toNat ∨ s.cap < ((s.codec C).enc (s.inbuf.readBytes 0 size.toNat)).length) ∧
      phySendCommand C size s = finish (-1) .oversize { s with phySt := .oversize }) ∨
    (size.toNat ≤ s.cap ∧ ((s.codec C).enc (s.inbuf.readBytes 0 size.toNat)).length ≤ s.cap ∧
      phySendCommand C size s =
        finish (((s.codec C).enc (s.inbuf.readBytes 0 size.toNat)).length : Int) .noError
          (phyTransmit C ((s.codec C).enc (s.inbuf.readBytes 0 size.toNat)) s)) := by
  by_cases h1 : s.cap < size.toNat
  · exact .inl ⟨.inl h1, by simp only [phySendCommand, if_pos h1]⟩
  · obtain ⟨h, e⟩ | ⟨h, e⟩ := phySend_cases C (s.inbuf.readBytes 0 size.toNat) s
    · exact .inl ⟨by simpa using h, by simp only [phySendCommand, if_neg h1, e]⟩
    · exact .inr ⟨by omega, h.2, by simp only [phySendCommand, if_neg h1, e]⟩

/-! ## Poll iterations -/

theorem phyPoll_noByte {C : Config} {d : Dest} {s : State} (h : s.rx.headD none = none) :
    phyPoll C d s = (.noByte, s.polled) := by
  simp only [phyPoll, rxPoll_eq, h]

theorem phyPoll_byte {C : Config} {d : Dest} {s : State} {b : Byte} (h : s.rx.headD none = some b) :
    phyPoll C d s = classify C d b s.polled := by
  simp only [phyPoll, rxPoll_eq, h]

theorem classify_start {C : Config} {d : Dest} {b : Byte} {s : State} (hb : b = (s.codec C).delim)
    (hs : s.sync = false) : classify C d b s = (.startOfFrame, openFrame s) := by
  simp [classify, ← hb, hs]

theorem classify_resync {C : Config} {d : Dest} {b : Byte} {s : State} (hb : b = (s.codec C).delim)
    (hs : s.sync = true) (hl : s.len = 0) : classify C d b s = (.resync, openFrame s) := by
  simp [classify, ← hb, hs, hl]

theorem classify_end {C : Config} {d : Dest} {b : Byte} {s : State} (hb : b = (s.codec C).delim)
    (hs : s.sync = true) (hl : 0 < s.len) (ht : s.taint = false) : classify C d b s = endOfFrame C d s := by
  have : ¬s.len = 0 := by omega
  simp [classify, ← hb, hs, this, ht]

theorem classify_end_tainted {C : Config} {d : Dest} {b : Byte} {s : State} (hb : b = (s.codec C).delim)
    (hs : s.sync = true) (hl : 0 < s.len) (ht : s.taint = true) : classify C d b s = endOfFrameTainted C d s := by
  have : ¬s.len = 0 := by omega
  simp [classify, ← hb, hs, this, ht]

theorem classify_noise {C : Config} {d : Dest} {b : Byte} {s : State} (hb : b ≠ (s.codec C).delim)
    (hs : s.sync = false) : classify C d b s = (.noise, s) := by
  simp [classify, hb, hs]

theorem classify_overflow {C : Config} {d : Dest} {b : Byte} {s : State} (hb : b ≠ (s.codec C).delim)
    (hs : s.sync = true) (hl : s.cap ≤ s.len) : classify C d b s = (.overflow, dropFrame s) := by
  simp [classify, hb, hs, hl]

theorem classify_accumulate {C : Config} {d : Dest} {b : Byte} {s : State} (hb : b ≠ (s.codec C).delim)
    (hs : s.sync = true) (hl : s.len < s.cap) :
    classify C d b s = (.accumulate, { s with acc := s.acc.write s.len b, len := s.len + 1 }) := by
  have : ¬s.cap ≤ s.len := by omega
  simp [classify, hb, hs, this]

/-- Everything the classification of a byte can do (R135). -/
theorem classify_cases (C : Config) (d : Dest) (b : Byte) (s : State) :
    (b = (s.codec C).delim ∧ s.sync = false ∧ classify C d b s = (.startOfFrame, openFrame s)) ∨
    (b = (s.codec C).delim ∧ s.sync = true ∧ s.len = 0 ∧ classify C d b s = (.resync, openFrame s)) ∨
    (b = (s.codec C).delim ∧ s.sync = true ∧ 0 < s.len ∧ s.taint = false ∧
      classify C d b s = endOfFrame C d s) ∨
    (b = (s.codec C).delim ∧ s.sync = true ∧ 0 < s.len ∧ s.taint = true ∧
      classify C d b s = endOfFrameTainted C d s) ∨
    (b ≠ (s.codec C).delim ∧ s.sync = false ∧ classify C d b s = (.noise, s)) ∨
    (b ≠ (s.codec C).delim ∧ s.sync = true ∧ s.cap ≤ s.len ∧ classify C d b s = (.overflow, dropFrame s)) ∨
    (b ≠ (s.codec C).delim ∧ s.sync = true ∧ s.len < s.cap ∧
      classify C d b s = (.accumulate, { s with acc := s.acc.write s.len b, len := s.len + 1 })) := by
  by_cases hb : b = (s.codec C).delim
  · rcases Bool.eq_false_or_eq_true s.sync with hs | hs
    · rcases Nat.eq_zero_or_pos s.len with hl | hl
      · exact .inr (.inl ⟨hb, hs, hl, classify_resync hb hs hl⟩)
      · rcases Bool.eq_false_or_eq_true s.taint with ht | ht
        · exact .inr (.inr (.inr (.inl ⟨hb, hs, hl, ht, classify_end_tainted hb hs hl ht⟩)))
        · exact .inr (.inr (.inl ⟨hb, hs, hl, ht, classify_end hb hs hl ht⟩))
    · exact .inl ⟨hb, hs, classify_start hb hs⟩
  · rcases Bool.eq_false_or_eq_true s.sync with hs | hs
    · rcases Nat.lt_or_ge s.len s.cap with hl | hl
      · exact .inr (.inr (.inr (.inr (.inr (.inr ⟨hb, hs, hl, classify_accumulate hb hs hl⟩)))))
      · exact .inr (.inr (.inr (.inr (.inr (.inl ⟨hb, hs, hl, classify_overflow hb hs hl⟩)))))
    · exact .inr (.inr (.inr (.inr (.inl ⟨hb, hs, classify_noise hb hs⟩))))

/-- The two outcomes of a delivery (R141). -/
theorem deliver_cases (C : Config) (d : Dest) (f : Bytes) (s : State) :
    (s.phyRxMax < f.length ∧ deliver C d f s = (.tooLong, drawDest C d s)) ∨
    (f.length ≤ s.phyRxMax ∧
      deliver C d f s = (.frame f.length, s.setDest d ((s.dest d).writeBytes 0 f))) := by
  by_cases h : s.phyRxMax < f.length
  · exact .inl ⟨h, by simp [deliver, h]⟩
  · exact .inr ⟨by omega, by simp [deliver, h]⟩

theorem deliver_fits {C : Config} {d : Dest} {f : Bytes} {s : State} (h : f.length ≤ s.phyRxMax) :
    deliver C d f s = (.frame f.length, s.setDest d ((s.dest d).writeBytes 0 f)) := by
  have : ¬s.phyRxMax < f.length := by omega
  simp [deliver, this]

theorem deliver_tooLong {C : Config} {d : Dest} {f : Bytes} {s : State} (h : s.phyRxMax < f.length) :
    deliver C d f s = (.tooLong, drawDest C d s) := by
  simp [deliver, h]

/-! ## A poll iteration, case by case (R134 to R143) -/

theorem phyPoll_start {C : Config} {d : Dest} {s : State} (h : s.rx.headD none = some (s.codec C).delim)
    (hs : s.sync = false) : phyPoll C d s = (.startOfFrame, openFrame s.polled) := by
  rw [phyPoll_byte h]
  exact classify_start rfl hs

theorem phyPoll_resync {C : Config} {d : Dest} {s : State} (h : s.rx.headD none = some (s.codec C).delim)
    (hs : s.sync = true) (hl : s.len = 0) : phyPoll C d s = (.resync, openFrame s.polled) := by
  rw [phyPoll_byte h]
  exact classify_resync rfl hs hl

theorem phyPoll_fits {C : Config} {d : Dest} {s : State} {f : Bytes} (h : s.rx.headD none = some (s.codec C).delim)
    (hs : s.sync = true) (hl : 0 < s.len) (ht : s.taint = false) (hf : f = (s.codec C).dec (s.acc.readBytes 0 s.len))
    (hm : f.length ≤ s.phyRxMax) :
    phyPoll C d s = (.frame f.length, (dropFrame s.polled).setDest d ((s.dest d).writeBytes 0 f)) := by
  subst hf
  rw [phyPoll_byte h]
  refine (classify_end (s := s.polled) rfl hs hl ht).trans ?_
  refine (deliver_fits (s := dropFrame s.polled) hm).trans ?_
  cases d <;> rfl

theorem phyPoll_tooLong {C : Config} {d : Dest} {s : State} (h : s.rx.headD none = some (s.codec C).delim)
    (hs : s.sync = true) (hl : 0 < s.len) (ht : s.taint = false)
    (hm : s.phyRxMax < ((s.codec C).dec (s.acc.readBytes 0 s.len)).length) :
    phyPoll C d s = (.tooLong, drawDest C d (dropFrame s.polled)) := by
  rw [phyPoll_byte h]
  exact (classify_end (s := s.polled) rfl hs hl ht).trans (deliver_tooLong (s := dropFrame s.polled) hm)

theorem phyPoll_tainted {C : Config} {d : Dest} {s : State} (h : s.rx.headD none = some (s.codec C).delim)
    (hs : s.sync = true) (hl : 0 < s.len) (ht : s.taint = true) :
    phyPoll C d s = endOfFrameTainted C d s.polled := by
  rw [phyPoll_byte h]
  exact classify_end_tainted rfl hs hl ht

/-- A draw of the destination, by the buffer it is (R141). -/
theorem drawDest_outbuf (C : Config) (s : State) :
    drawDest C .outbuf s =
      { s with
        outbuf := drawnArray C (frameSize C) s.draws
        draws := s.draws + 1
        trace := s.trace ++ [.draw (.array (drawnArray C (frameSize C) s.draws))] } := rfl

theorem drawDest_frm (C : Config) (s : State) :
    drawDest C .frm s =
      { s with
        frm := drawnArray C (frameSize C) s.draws
        draws := s.draws + 1
        trace := s.trace ++ [.draw (.array (drawnArray C (frameSize C) s.draws))] } := rfl

/-- The end of a tainted frame whose draw gives no frame (R142). -/
theorem endOfFrameTainted_none {C : Config} {d : Dest} {s : State} (h : C.drawFits s.draws = false) :
    endOfFrameTainted C d s = (.tooLong, drawDest C d (dropFrame s)) := by
  have hd : C.drawFits (dropFrame s).draws = false := h
  simp only [endOfFrameTainted, hd]

/-- The end of a tainted frame whose draw gives the frame `g` for `OUTBUF`, and for `FRM` (R142). -/
theorem endOfFrameTainted_outbuf {C : Config} {s : State} {g : Bytes} (h : C.drawFits s.draws = true)
    (hg : (C.drawBytes s.draws).take s.phyRxMax = g) :
    endOfFrameTainted C .outbuf s =
      (.frame g.length, { s with
        sync := false
        len := 0
        taint := false
        outbuf := s.outbuf.writeBytes 0 g
        draws := s.draws + 1
        trace := s.trace ++ [.draw (.frame g)] }) := by
  have hd : C.drawFits (dropFrame s).draws = true := h
  have he : (C.drawBytes (dropFrame s).draws).take (dropFrame s).phyRxMax = g := hg
  simp only [endOfFrameTainted, hd, he]
  rfl

theorem endOfFrameTainted_frm {C : Config} {s : State} {g : Bytes} (h : C.drawFits s.draws = true)
    (hg : (C.drawBytes s.draws).take s.phyRxMax = g) :
    endOfFrameTainted C .frm s =
      (.frame g.length, { s with
        sync := false
        len := 0
        taint := false
        frm := s.frm.writeBytes 0 g
        draws := s.draws + 1
        trace := s.trace ++ [.draw (.frame g)] }) := by
  have hd : C.drawFits (dropFrame s).draws = true := h
  have he : (C.drawBytes (dropFrame s).draws).take (dropFrame s).phyRxMax = g := hg
  simp only [endOfFrameTainted, hd, he]
  rfl

theorem phyPoll_noise {C : Config} {d : Dest} {s : State} {b : Byte} (h : s.rx.headD none = some b)
    (hb : b ≠ (s.codec C).delim) (hs : s.sync = false) : phyPoll C d s = (.noise, s.polled) := by
  rw [phyPoll_byte h]
  exact classify_noise hb hs

theorem phyPoll_overflow {C : Config} {d : Dest} {s : State} {b : Byte} (h : s.rx.headD none = some b)
    (hb : b ≠ (s.codec C).delim) (hs : s.sync = true) (hl : s.cap ≤ s.len) :
    phyPoll C d s = (.overflow, dropFrame s.polled) := by
  rw [phyPoll_byte h]
  exact classify_overflow hb hs hl

theorem phyPoll_accumulate {C : Config} {d : Dest} {s : State} {b : Byte} (h : s.rx.headD none = some b)
    (hb : b ≠ (s.codec C).delim) (hs : s.sync = true) (hl : s.len < s.cap) :
    phyPoll C d s = (.accumulate, { s.polled with acc := s.acc.write s.len b, len := s.len + 1 }) := by
  rw [phyPoll_byte h]
  exact classify_accumulate hb hs hl

/-! ## What a poll iteration leaves alone, whatever its case -/

/-- The parts of the state no poll iteration touches: everything but the accumulation state, the receive input, the two
buffers a frame goes to, the trace and the draws (R127, R147 and R144). -/
theorem classify_frame (C : Config) (d : Dest) (b : Byte) (s : State) :
    (classify C d b s).2 =
      { s with
        sync := (classify C d b s).2.sync
        len := (classify C d b s).2.len
        acc := (classify C d b s).2.acc
        taint := (classify C d b s).2.taint
        frm := (classify C d b s).2.frm
        outbuf := (classify C d b s).2.outbuf
        trace := (classify C d b s).2.trace
        draws := (classify C d b s).2.draws } := by
  obtain ⟨_, _, h⟩ | ⟨_, _, _, h⟩ | ⟨_, _, _, _, h⟩ | ⟨_, _, _, _, h⟩ | ⟨_, _, h⟩ | ⟨_, _, _, h⟩ | ⟨_, _, _, h⟩ :=
    classify_cases C d b s
  · rw [h]; rfl
  · rw [h]; rfl
  · rw [h, endOfFrame]
    obtain ⟨_, h⟩ | ⟨_, h⟩ := deliver_cases C d ((s.codec C).dec (s.acc.readBytes 0 s.len)) (dropFrame s) <;>
      rw [h] <;> cases d <;> rfl
  · rw [h, endOfFrameTainted]
    cases C.drawFits (dropFrame s).draws <;> cases d <;> rfl
  · rw [h]
  · rw [h]; rfl
  · rw [h]

theorem phyPoll_frame (C : Config) (d : Dest) (s : State) :
    (phyPoll C d s).2 =
      { s.polled with
        sync := (phyPoll C d s).2.sync
        len := (phyPoll C d s).2.len
        acc := (phyPoll C d s).2.acc
        taint := (phyPoll C d s).2.taint
        frm := (phyPoll C d s).2.frm
        outbuf := (phyPoll C d s).2.outbuf
        trace := (phyPoll C d s).2.trace
        draws := (phyPoll C d s).2.draws } := by
  cases h : s.rx.headD none with
  | none => rw [phyPoll_noByte h]
  | some b => rw [phyPoll_byte h]; exact classify_frame C d b s.polled

/-- The classification of a byte leaves no event but a draw (R141, R142). -/
theorem classify_trace (C : Config) (d : Dest) (b : Byte) (s : State) :
    ∃ ds, (classify C d b s).2.trace = s.trace ++ ds ∧ ∀ e ∈ ds, ∃ v, e = Event.draw v := by
  obtain ⟨_, _, h⟩ | ⟨_, _, _, h⟩ | ⟨_, _, _, _, h⟩ | ⟨_, _, _, _, h⟩ | ⟨_, _, h⟩ | ⟨_, _, _, h⟩ | ⟨_, _, _, h⟩ :=
    classify_cases C d b s <;> rw [h]
  · exact ⟨[], by simp, by simp⟩
  · exact ⟨[], by simp, by simp⟩
  · rw [endOfFrame]
    obtain ⟨_, h⟩ | ⟨_, h⟩ := deliver_cases C d ((s.codec C).dec (s.acc.readBytes 0 s.len)) (dropFrame s) <;> rw [h]
    · exact ⟨_, by simp [drawDest]; rfl, by simp⟩
    · exact ⟨[], by simp, by simp⟩
  · rw [endOfFrameTainted]
    cases C.drawFits (dropFrame s).draws
    · exact ⟨_, by simp [drawDest]; rfl, by simp⟩
    · exact ⟨_, by simp; rfl, by simp⟩
  · exact ⟨[], by simp, by simp⟩
  · exact ⟨[], by simp, by simp⟩
  · exact ⟨[], by simp, by simp⟩

/-- A poll iteration leaves its poll, and then no event but a draw (R133). -/
theorem phyPoll_trace (C : Config) (d : Dest) (s : State) :
    ∃ ds, (phyPoll C d s).2.trace = s.trace ++ .rxPoll (s.rx.headD none) :: ds ∧ ∀ e ∈ ds, ∃ v, e = Event.draw v := by
  cases h : s.rx.headD none with
  | none =>
    rw [phyPoll_noByte h]
    exact ⟨[], by rw [polled_trace, h], by simp⟩
  | some b =>
    rw [phyPoll_byte h]
    obtain ⟨ds, e, hd⟩ := classify_trace C d b s.polled
    exact ⟨ds, by rw [e, polled_trace, h, List.append_assoc]; rfl, hd⟩

/-- A delivered frame is at most `PHY_RX_MAX` long (R141, R142). -/
theorem classify_frame_length {C : Config} {d : Dest} {b : Byte} {s : State} {n : Nat}
    (h : (classify C d b s).1 = .frame n) : n ≤ s.phyRxMax := by
  obtain ⟨_, _, e⟩ | ⟨_, _, _, e⟩ | ⟨_, _, _, _, e⟩ | ⟨_, _, _, _, e⟩ | ⟨_, _, e⟩ | ⟨_, _, _, e⟩ | ⟨_, _, _, e⟩ :=
    classify_cases C d b s <;> rw [e] at h
  · cases h
  · cases h
  · rw [endOfFrame] at h
    obtain ⟨_, e'⟩ | ⟨hl, e'⟩ := deliver_cases C d ((s.codec C).dec (s.acc.readBytes 0 s.len)) (dropFrame s) <;>
      rw [e'] at h <;> cases h
    exact hl
  · rw [endOfFrameTainted] at h
    cases hf : C.drawFits (dropFrame s).draws <;> rw [hf] at h <;> cases h
    simp only [List.length_take]
    exact Nat.min_le_left _ _
  · cases h
  · cases h
  · cases h

theorem phyPoll_frame_length {C : Config} {d : Dest} {s : State} {n : Nat} (h : (phyPoll C d s).1 = .frame n) :
    n ≤ s.phyRxMax := by
  cases hx : s.rx.headD none with
  | none => rw [phyPoll_noByte hx] at h; cases h
  | some b =>
    rw [phyPoll_byte hx] at h
    have := classify_frame_length h
    exact this

/-! ## The buffer a poll iteration does not deliver into (R144) -/

/-- A poll that delivers into `FRM` leaves `OUTBUF` alone. -/
theorem phyPoll_frm_outbuf (C : Config) (s : State) : (phyPoll C .frm s).2.outbuf = s.outbuf := by
  cases hx : s.rx.headD none with
  | none => rw [phyPoll_noByte hx]; rfl
  | some b =>
    rw [phyPoll_byte hx]
    obtain ⟨_, _, h⟩ | ⟨_, _, _, h⟩ | ⟨_, _, _, _, h⟩ | ⟨_, _, _, _, h⟩ | ⟨_, _, h⟩ | ⟨_, _, _, h⟩ | ⟨_, _, _, h⟩ :=
      classify_cases C .frm b s.polled <;> rw [h]
    · rfl
    · rfl
    · rw [endOfFrame]
      obtain ⟨_, e⟩ | ⟨_, e⟩ :=
        deliver_cases C .frm ((s.polled.codec C).dec (s.polled.acc.readBytes 0 s.polled.len)) (dropFrame s.polled) <;>
        rw [e] <;> rfl
    · rw [endOfFrameTainted]
      cases C.drawFits (dropFrame s.polled).draws <;> rfl
    · rfl
    · rfl
    · rfl

/-- A poll that delivers into `OUTBUF` leaves `FRM` alone. -/
theorem phyPoll_outbuf_frm (C : Config) (s : State) : (phyPoll C .outbuf s).2.frm = s.frm := by
  cases hx : s.rx.headD none with
  | none => rw [phyPoll_noByte hx]; rfl
  | some b =>
    rw [phyPoll_byte hx]
    obtain ⟨_, _, h⟩ | ⟨_, _, _, h⟩ | ⟨_, _, _, _, h⟩ | ⟨_, _, _, _, h⟩ | ⟨_, _, h⟩ | ⟨_, _, _, h⟩ | ⟨_, _, _, h⟩ :=
      classify_cases C .outbuf b s.polled <;> rw [h]
    · rfl
    · rfl
    · rw [endOfFrame]
      obtain ⟨_, e⟩ | ⟨_, e⟩ :=
        deliver_cases C .outbuf ((s.polled.codec C).dec (s.polled.acc.readBytes 0 s.polled.len)) (dropFrame s.polled) <;>
        rw [e] <;> rfl
    · rw [endOfFrameTainted]
      cases C.drawFits (dropFrame s.polled).draws <;> rfl
    · rfl
    · rfl
    · rfl

/-- A poll that delivers into `OUTBUF` leaves the MacLayer, the host's side and the configuration alone. -/
theorem phyPoll_outbuf_sameMacSide (C : Config) (s : State) : SameMacSide s (phyPoll C .outbuf s).2 := by
  have h := phyPoll_outbuf_frm C s
  rw [phyPoll_frame]
  exact ⟨rfl, h, rfl, rfl, rfl, rfl, rfl, rfl, rfl, rfl⟩

/-- The outcome of a poll iteration in blocking mode that ends a receive comes from a byte inside a frame (R146). -/
theorem phyPoll_blocking_some {C : Config} {d : Dest} {s : State} {out : Int × Status}
    (h : (phyPoll C d s).1.blocking = some out) : ∃ b, s.rx.headD none = some b ∧ s.sync = true := by
  cases hx : s.rx.headD none with
  | none =>
    rw [phyPoll_noByte hx] at h
    cases h
  | some b =>
    refine ⟨b, rfl, ?_⟩
    rcases Bool.eq_false_or_eq_true s.sync with hs | hs
    · exact hs
    · by_cases hd : b = (s.codec C).delim
      · subst hd
        rw [phyPoll_start hx hs] at h
        cases h
      · rw [phyPoll_noise hx hd hs] at h
        cases h

/-- The statuses that can end a receive in blocking mode (R146). -/
theorem PollCase.blocking_status {c : PollCase} {out : Int × Status} (h : c.blocking = some out) :
    (out = (-1, .oversize)) ∨ ∃ n : Nat, c = .frame n ∧ out = ((n : Int), .noError) := by
  cases c <;> simp only [PollCase.blocking, Option.some.injEq, reduceCtorEq] at h
  · exact .inl h.symm
  · exact .inr ⟨_, rfl, h.symm⟩
  · exact .inl h.symm

/-! ## The receive in progress does not matter to a poll -/

theorem classify_withRun (C : Config) (d : Dest) (b : Byte) (s : State) (r : Run) :
    classify C d b { s with run := r } = ((classify C d b s).1, { (classify C d b s).2 with run := r }) := by
  obtain ⟨h1, h2, h⟩ | ⟨h1, h2, h3, h⟩ | ⟨h1, h2, h3, h4, h⟩ | ⟨h1, h2, h3, h4, h⟩ | ⟨h1, h2, h⟩ | ⟨h1, h2, h3, h⟩ |
    ⟨h1, h2, h3, h⟩ := classify_cases C d b s
  · rw [h, classify_start (s := { s with run := r }) h1 h2]
    rfl
  · rw [h, classify_resync (s := { s with run := r }) h1 h2 h3]
    rfl
  · rw [h, classify_end (s := { s with run := r }) h1 h2 h3 h4, endOfFrame, endOfFrame]
    obtain ⟨hm, e⟩ | ⟨hm, e⟩ := deliver_cases C d ((s.codec C).dec (s.acc.readBytes 0 s.len)) (dropFrame s)
    · rw [e]
      refine (deliver_tooLong (s := dropFrame { s with run := r }) hm).trans ?_
      cases d <;> rfl
    · rw [e]
      refine (deliver_fits (s := dropFrame { s with run := r }) hm).trans ?_
      cases d <;> rfl
  · rw [h, classify_end_tainted (s := { s with run := r }) h1 h2 h3 h4, endOfFrameTainted, endOfFrameTainted]
    have : (dropFrame { s with run := r }).draws = (dropFrame s).draws := rfl
    rw [this]
    cases C.drawFits (dropFrame s).draws <;> cases d <;> rfl
  · rw [h, classify_noise (s := { s with run := r }) h1 h2]
  · rw [h, classify_overflow (s := { s with run := r }) h1 h2 h3]
    rfl
  · rw [h, classify_accumulate (s := { s with run := r }) h1 h2 h3]

theorem phyPoll_withRun (C : Config) (d : Dest) (s : State) (r : Run) :
    phyPoll C d { s with run := r } = ((phyPoll C d s).1, { (phyPoll C d s).2 with run := r }) := by
  cases hx : s.rx.headD none with
  | none =>
    rw [phyPoll_noByte hx, phyPoll_noByte (s := { s with run := r }) hx]
    rfl
  | some b =>
    rw [phyPoll_byte hx, phyPoll_byte (s := { s with run := r }) hx]
    exact classify_withRun C d b s.polled r

end Sys2Proof.Machine
end

