-- ==== Sys2Proof/Laws/Mac.lean ====
section
/-! SUPPORT. The MacLayer's laws: what an accepted frame leaves, and the case analyses that say everything a MAC command can
make of the outcome of the PHY. -/
namespace Sys2Proof.Machine

/-- The three statuses of an accepted frame (R187). -/
theorem sourceStatus_mem (self src : Byte) :
    sourceStatus self src ∈ [Status.readErrorSourceSelf, .readErrorSourceBroadcast, .noError] := by
  unfold sourceStatus
  split
  · simp
  · split <;> simp

/-- What an accepted frame of `r` bytes leaves (R187, R188). -/
theorem macAccept_eq (r : Nat) (s : State) :
    macAccept r s =
      { s with
        outbuf := s.outbuf.writeBytes 0 (s.frm.readBytes 2 (r - 2))
        outsrc := s.frm.read 1
        macSt := sourceStatus s.cfgSelf (s.frm.read 1)
        ret := BitVec.ofInt 32 ((r - 2 : Nat) : Int)
        rstat := sourceStatus s.cfgSelf (s.frm.read 1)
        run := .idle
        trace := s.trace ++ [.finish ((r - 2 : Nat) : Int) (sourceStatus s.cfgSelf (s.frm.read 1))] } := rfl

/-- What an accepted frame leaves, by its payload and its source (R187, R188). -/
theorem macAccept_of {s : State} {r : Nat} {payload : Bytes} {src : Byte} (h1 : s.frm.read 1 = src)
    (h2 : s.frm.readBytes 2 (r - 2) = payload) :
    macAccept r s =
      State.ended ((r - 2 : Nat) : Int) (sourceStatus s.cfgSelf src) { s with
        outbuf := s.outbuf.writeBytes 0 payload
        outsrc := src
        macSt := sourceStatus s.cfgSelf src } := by
  subst h1 h2
  rfl

/-- The filter, as a proposition (R185, R186). -/
theorem macAccepts_iff (r : Nat) (s : State) :
    macAccepts r s = true ↔ 2 ≤ r ∧ (s.frm.read 0 = s.cfgSelf ∨ s.frm.read 0 = bcast) := by
  simp only [macAccepts, Bool.and_eq_true, decide_eq_true_eq, Bool.or_eq_true, beq_iff_eq]

theorem macOutcomeBl_failure (again s : State) (pst : Status) :
    macOutcomeBl again (-1) pst s = macFinish (-1) pst s := if_pos (by decide)

theorem macOutcomeBl_zero (again s : State) (pst : Status) : macOutcomeBl again 0 pst s = again := by
  simp [macOutcomeBl]

/-- Everything a non-blocking MAC_RECV makes of a PHY outcome (R182, R185 to R188). -/
theorem macOutcomeNb_cases (r : Int) (s : State) :
    (r ≤ 0 ∧ macOutcomeNb r s = macFinish (-1) .readError s) ∨
    (0 < r ∧ macAccepts r.toNat s = true ∧ macOutcomeNb r s = macAccept r.toNat s) ∨
    (0 < r ∧ macAccepts r.toNat s = false ∧ macOutcomeNb r s = macFinish 0 .noData s) := by
  by_cases hr : r ≤ 0
  · exact .inl ⟨hr, by simp [macOutcomeNb, hr]⟩
  · rcases Bool.eq_false_or_eq_true (macAccepts r.toNat s) with ha | ha
    · exact .inr (.inl ⟨by omega, ha, by simp [macOutcomeNb, hr, ha]⟩)
    · exact .inr (.inr ⟨by omega, ha, by simp [macOutcomeNb, hr, ha]⟩)

/-- Everything a blocking MAC_RECV makes of a PHY outcome (R184 to R188). -/
theorem macOutcomeBl_cases (again : State) (r : Int) (pst : Status) (s : State) :
    (r < 0 ∧ macOutcomeBl again r pst s = macFinish (-1) pst s) ∨
    (0 < r ∧ macAccepts r.toNat s = true ∧ macOutcomeBl again r pst s = macAccept r.toNat s) ∨
    ((r = 0 ∨ 0 < r ∧ macAccepts r.toNat s = false) ∧ macOutcomeBl again r pst s = again) := by
  rcases Int.lt_trichotomy r 0 with hr | hr | hr
  · exact .inl ⟨hr, by simp [macOutcomeBl, hr]⟩
  · exact .inr (.inr ⟨.inl hr, by simp [macOutcomeBl, hr]⟩)
  · have h1 : ¬r < 0 := by omega
    have h2 : ¬r = 0 := by omega
    rcases Bool.eq_false_or_eq_true (macAccepts r.toNat s) with ha | ha
    · exact .inr (.inl ⟨hr, ha, by simp [macOutcomeBl, h1, h2, ha]⟩)
    · exact .inr (.inr ⟨.inr ⟨hr, ha⟩, by simp [macOutcomeBl, h1, h2, ha]⟩)

/-- What a non-blocking MAC_RECV makes of a delivered frame of `n` bytes (R182, R185 to R188). -/
theorem macOutcomeNb_frame (n : Nat) (s : State) :
    macOutcomeNb (n : Int) s =
      if n = 0 then macFinish (-1) .readError s
      else if macAccepts n s = true then macAccept n s else macFinish 0 .noData s := by
  obtain ⟨h, e⟩ | ⟨h, ha, e⟩ | ⟨h, ha, e⟩ := macOutcomeNb_cases (n : Int) s
  · rw [if_pos (by omega)]
    exact e
  · rw [if_neg (by omega), if_pos (by exact ha)]
    exact e
  · rw [if_neg (by omega), if_neg (by rw [show n = (n : Int).toNat from rfl, ha]; simp)]
    exact e

/-- What a blocking MAC_RECV makes of a delivered frame of `n` bytes (R184 to R188). -/
theorem macOutcomeBl_frame (n : Nat) (again s : State) (pst : Status) :
    macOutcomeBl again (n : Int) pst s =
      if n ≠ 0 ∧ macAccepts n s = true then macAccept n s else again := by
  obtain ⟨h, _⟩ | ⟨h, ha, e⟩ | ⟨h, e⟩ := macOutcomeBl_cases again (n : Int) pst s
  · omega
  · rw [if_pos ⟨by omega, ha⟩]
    exact e
  · rw [if_neg, e]
    rintro ⟨hn, ha⟩
    rcases h with h | ⟨_, h⟩
    · omega
    · rw [show (n : Int).toNat = n from rfl, ha] at h
      cases h

/-- The filter's two ways on a delivered frame `g` of at least one byte, as the statements say them (R185 to R188). -/
theorem filteredFrame_of {g : Bytes} {s dropped : State} (hw : s.outbuf.wf = true)
    (hg : s.frm.readBytes 0 g.length = g) (hne : g ≠ []) :
    FilteredFrame g s dropped (if macAccepts g.length s = true then macAccept g.length s else dropped) := by
  match g, hne with
  | [x], _ => simp [FilteredFrame, macAccepts]
  | dst :: src :: payload, _ =>
    simp only [List.length_cons, Memory.readBytes, List.cons.injEq, Nat.zero_add] at hg
    obtain ⟨h0, h1, h2⟩ := hg
    have hb : bcast = 0xFF#8 := rfl
    unfold FilteredFrame
    by_cases ha : macAccepts (dst :: src :: payload).length s = true
    · rw [if_pos ha, macAccept_of h1 (payload := payload) (by simpa using h2)]
      rw [macAccepts_iff, h0, hb] at ha
      exact .inr ⟨ha.2, s.outbuf.writeBytes 0 payload, sourceStatus s.cfgSelf src, rfl,
        Memory.readBytes_writeBytes hw _ _, fun i hi => Memory.read_writeBytes_outside hw (.inr (by omega)), rfl⟩
    · rw [if_neg ha]
      rw [macAccepts_iff, h0, hb] at ha
      exact .inl ⟨fun h => ha ⟨by simp, .inl h⟩, fun h => ha ⟨by simp, .inr h⟩, rfl⟩

/-- Everything MAC_SEND does: the size refusal, `WriteError`, or the sent frame (R171 to R174). -/
theorem macSendCommand_cases (C : Config) (dst : Byte) (size : BitVec 16) (s : State) :
    (s.macTxMax < size.toNat ∧ macSendCommand C dst size s = macFinish (-1) .oversize s) ∨
    (size.toNat ≤ s.macTxMax ∧ (phySend C (macBody dst size s) s).1.1 ≤ 0 ∧
      macSendCommand C dst size s = macFinish (-1) .writeError (phySend C (macBody dst size s) s).2) ∨
    (size.toNat ≤ s.macTxMax ∧ 0 < (phySend C (macBody dst size s) s).1.1 ∧
      macSendCommand C dst size s = macFinish size.toNat .noError (phySend C (macBody dst size s) s).2) := by
  by_cases hs : s.macTxMax < size.toNat
  · exact .inl ⟨hs, by simp [macSendCommand, hs]⟩
  · by_cases hr : (phySend C (macBody dst size s) s).1.1 ≤ 0
    · exact .inr (.inl ⟨by omega, hr, by simp [macSendCommand, hs, hr]⟩)
    · exact .inr (.inr ⟨by omega, by omega, by simp [macSendCommand, hs, hr]⟩)

end Sys2Proof.Machine
end

