-- ==== Sys2Proof/Laws/Engine.lean ====
section
/-! SUPPORT. The engine's laws: the block of this package is the block built with its configuration, a step always
answers a next state, and the one case analysis that says everything a step can do. -/
namespace Sys2Proof.Machine

/-! ## The block of this package -/

theorem exec_eq_execWith (i : Instr) (s : State) : exec i s = execWith Config.chosen i s := by
  cases i <;> rfl

theorem exec_eq_command (i : Instr) (s : State) : exec i s = .next (command Config.chosen i s) :=
  exec_eq_execWith i s

theorem exec_funext : exec = execWith Config.chosen := by
  funext i s
  exact exec_eq_execWith i s

theorem step_eq_stepWith (s : State) : step s = stepWith Config.chosen s := by
  rw [step, stepWith, exec_funext]

/-- What a block built with `C` answers, the block of this package answers where its configuration is `C`. -/
theorem answers_of {C : Config} {i : Instr} {s t : State} (h : command C i s = t) : Answers C i s t := by
  refine ⟨by rw [execWith, h], fun hC => ?_⟩
  subst hC
  rw [exec_eq_command, h]

theorem stepsTo_of {C : Config} {s t : State} (h : stepWith C s = .next t) : StepsTo C s t := by
  refine ⟨h, fun hC => ?_⟩
  subst hC
  rw [step_eq_stepWith, h]

/-! ## One step -/

theorem resetNow_of_not_asserted {s : State} (h : s.resetAsserted = false) : s.resetNow = .released := by
  simpa [State.resetAsserted] using h

theorem stepWith_atStart {C : Config} {s : State} (h : s.resetNow = .atStart) :
    stepWith C s = .next (resetBlock C s.sampled) := by
  simp only [stepWith, stepVia, h]

theorem stepWith_after {C : Config} {s : State} {k : Nat} (h : s.resetNow = .after k) :
    stepWith C s = resetAfter C k s.sampled (unresetStep C (execWith C) s.sampled) := by
  simp only [stepWith, stepVia, h]

theorem stepWith_unreset {C : Config} {s : State} (h : s.resetAsserted = false) :
    stepWith C s = unresetStep C (execWith C) s.sampled := by
  simp only [stepWith, stepVia, resetNow_of_not_asserted h]

theorem stepWith_idle {C : Config} {s : State} (h : s.resetAsserted = false) (hr : s.run = .idle) :
    stepWith C s = idleStep C (execWith C) s.sampled := by
  simp only [stepWith_unreset h, unresetStep, sampled_run, hr]

theorem stepWith_running {C : Config} {s : State} (h : s.resetAsserted = false) (hr : s.run ≠ .idle) :
    stepWith C s = .next (receiveRound C s.sampled) := by
  simp only [stepWith_unreset h, unresetStep, sampled_run]
  cases hrun : s.run with
  | idle => exact absurd hrun hr
  | phyRecv _ _ => rfl
  | macTop _ _ => rfl
  | macPhy _ _ => rfl

/-- Everything a step without reset can do: it always answers a next state, by exactly one of these ways. -/
theorem unresetStep_cases {C : Config} {s t : State} (h : unresetStep C (execWith C) s = .next t) :
    (s.run = .idle ∧ s.host = [] ∧ t = s) ∨
    (s.run = .idle ∧ ∃ bytes rest, s.host = .writeInbuf bytes :: rest ∧ t = hostWrite C bytes { s with host := rest }) ∨
    (s.run = .idle ∧ ∃ cmd a0 a1 rest i, s.host = .command cmd a0 a1 :: rest ∧
      decode cmd = .ok i ∧ t = command C i (latch cmd a0 a1 { s with host := rest })) ∨
    (s.run = .idle ∧ ∃ cmd a0 a1 rest e, s.host = .command cmd a0 a1 :: rest ∧
      decode cmd = .error e ∧ t = illegal (latch cmd a0 a1 { s with host := rest })) ∨
    (∃ tmo t0, s.run = .phyRecv tmo t0 ∧ t = phyRecvRound C tmo t0 s) ∨
    (∃ tmo t0, s.run = .macTop tmo t0 ∧ t = macTopRound C tmo t0 s) ∨
    (∃ tmo t0, s.run = .macPhy tmo t0 ∧ t = macPhyRound C tmo t0 s) := by
  cases hrun : s.run with
  | idle =>
    simp only [unresetStep, hrun, idleStep] at h
    cases hh : s.host with
    | nil =>
      rw [hh] at h
      exact .inl ⟨rfl, rfl, by cases h; rfl⟩
    | cons a rest =>
      rw [hh] at h
      cases a with
      | writeInbuf bytes => exact .inr (.inl ⟨rfl, bytes, rest, rfl, by cases h; rfl⟩)
      | command cmd a0 a1 =>
        cases hd : decode cmd with
        | ok i =>
          simp only [hd, execWith] at h
          exact .inr (.inr (.inl ⟨rfl, cmd, a0, a1, rest, i, rfl, hd, by cases h; rfl⟩))
        | error e =>
          simp only [hd] at h
          exact .inr (.inr (.inr (.inl ⟨rfl, cmd, a0, a1, rest, e, rfl, hd, by cases h; rfl⟩)))
  | phyRecv tmo t0 =>
    simp only [unresetStep, hrun, receiveRound] at h
    exact .inr (.inr (.inr (.inr (.inl ⟨tmo, t0, rfl, by cases h; rfl⟩))))
  | macTop tmo t0 =>
    simp only [unresetStep, hrun, receiveRound] at h
    exact .inr (.inr (.inr (.inr (.inr (.inl ⟨tmo, t0, rfl, by cases h; rfl⟩)))))
  | macPhy tmo t0 =>
    simp only [unresetStep, hrun, receiveRound] at h
    exact .inr (.inr (.inr (.inr (.inr (.inr ⟨tmo, t0, rfl, by cases h; rfl⟩)))))

theorem unresetStep_next (C : Config) (s : State) : ∃ t, unresetStep C (execWith C) s = .next t := by
  cases hrun : s.run with
  | idle =>
    simp only [unresetStep, hrun, idleStep]
    split
    · exact ⟨_, rfl⟩
    · exact ⟨_, rfl⟩
    · split
      · exact ⟨_, rfl⟩
      · exact ⟨_, rfl⟩
  | phyRecv _ _ => exact ⟨_, by simp only [unresetStep, hrun]; rfl⟩
  | macTop _ _ => exact ⟨_, by simp only [unresetStep, hrun]; rfl⟩
  | macPhy _ _ => exact ⟨_, by simp only [unresetStep, hrun]; rfl⟩

/-- Everything a step can do: reset as it begins, reset after some of its events, or the step without reset. -/
theorem stepWith_cases {C : Config} {s t : State} (h : stepWith C s = .next t) :
    (s.resetNow = .atStart ∧ t = resetBlock C s.sampled) ∨
    (∃ k u, s.resetNow = .after k ∧ unresetStep C (execWith C) s.sampled = .next u ∧
      t = resetBlock C (interrupted k s.sampled u)) ∨
    (s.resetAsserted = false ∧ unresetStep C (execWith C) s.sampled = .next t) := by
  cases hr : s.resetNow with
  | atStart =>
    rw [stepWith_atStart hr] at h
    exact .inl ⟨rfl, by cases h; rfl⟩
  | after k =>
    obtain ⟨u, hu⟩ := unresetStep_next C s.sampled
    rw [stepWith_after hr, hu] at h
    exact .inr (.inl ⟨k, u, rfl, hu, by cases h; rfl⟩)
  | released =>
    have hf : s.resetAsserted = false := by simp [State.resetAsserted, hr]
    rw [stepWith_unreset hf] at h
    exact .inr (.inr ⟨hf, h⟩)

/-- A step of any block is a next state. -/
theorem stepWith_next (C : Config) (s : State) : ∃ t, stepWith C s = .next t := by
  obtain ⟨u, hu⟩ := unresetStep_next C s.sampled
  simp only [stepWith, stepVia, hu]
  split
  · exact ⟨_, rfl⟩
  · exact ⟨_, rfl⟩
  · exact ⟨_, rfl⟩

/-! ## The events of a step -/

/-- Draws poll nothing. -/
theorem polledAnswers_draws {ds : List Event} (h : ∀ e ∈ ds, ∃ v, e = Event.draw v) : polledAnswers ds = [] := by
  induction ds with
  | nil => rfl
  | cons e ds ih =>
    obtain ⟨v, rfl⟩ := h e (.head _)
    exact ih fun e he => h e (.tail _ he)

/-- `u` comes from `s` by the events `es`: the trace grew by them, and what they polled, at most one answer and then the
oldest one, is gone from the receive input (R31, R76, R78). -/
structure ByEvents (s u : State) (es : List Event) : Prop where
  trace : u.trace = s.trace ++ es
  polls : (polledAnswers es = [] ∧ u.rx = s.rx) ∨ (polledAnswers es = [s.rx.headD none] ∧ u.rx = s.rx.tail)

theorem ByEvents.silent {s u : State} {es : List Event} (ht : u.trace = s.trace ++ es) (hp : polledAnswers es = [])
    (hx : u.rx = s.rx) : ByEvents s u es := ⟨ht, .inl ⟨hp, hx⟩⟩

/-- An event that polls nothing may follow. -/
theorem ByEvents.snoc {s u v : State} {es : List Event} {e : Event} (h : ByEvents s u es)
    (ht : v.trace = u.trace ++ [e]) (he : polledAnswers [e] = []) (hx : v.rx = u.rx) : ByEvents s v (es ++ [e]) := by
  refine ⟨by rw [ht, h.trace, List.append_assoc], ?_⟩
  rw [polledAnswers_append, he, List.append_nil, hx]
  exact h.polls

/-- An event that polls nothing may come before. -/
theorem ByEvents.cons {s u v : State} {es : List Event} {e : Event} (h : ByEvents u v es)
    (ht : u.trace = s.trace ++ [e]) (he : polledAnswers [e] = []) (hx : u.rx = s.rx) : ByEvents s v (e :: es) := by
  refine ⟨by rw [h.trace, ht, List.append_assoc]; rfl, ?_⟩
  rw [show e :: es = [e] ++ es from rfl, polledAnswers_append, he, List.nil_append, ← hx]
  exact h.polls

theorem ByEvents.of_eq {s u v : State} {es : List Event} (h : ByEvents s u es) (ht : v.trace = u.trace)
    (hx : v.rx = u.rx) : ByEvents s v es := ⟨ht.trans h.trace, by rw [hx]; exact h.polls⟩

theorem phyPoll_byEvents (C : Config) (d : Dest) (s : State) :
    ∃ ds, ByEvents s (phyPoll C d s).2 (.rxPoll (s.rx.headD none) :: ds) ∧ ∀ e ∈ ds, ∃ v, e = Event.draw v := by
  obtain ⟨ds, ht, hd⟩ := phyPoll_trace C d s
  have hx : (phyPoll C d s).2.rx = s.rx.tail := by rw [phyPoll_frame]; rfl
  exact ⟨ds, ⟨ht, .inr ⟨by simp [polledAnswers, polledAnswers_draws hd], hx⟩⟩, hd⟩

/-- A command leaves its events, and polls at most once. -/
theorem command_byEvents (C : Config) (i : Instr) (s : State) : ∃ es, ByEvents s (command C i s) es := by
  cases i with
  | init self dirid schreq defblk =>
    simp only [command, initCommand]
    split
    · exact ⟨_, .silent rfl rfl rfl⟩
    · exact ⟨_, .silent (List.append_assoc _ _ _) rfl rfl⟩
  | phySend size =>
    simp only [command]
    obtain ⟨_, e⟩ | ⟨_, _, e⟩ := phySendCommand_cases C size s <;> rw [e]
    · exact ⟨_, .silent rfl rfl rfl⟩
    · rw [phyTransmit_eq]
      exact ⟨_, .silent (List.append_assoc _ _ _)
        (by rw [polledAnswers_append, polledAnswers_frameEvents]; rfl) rfl⟩
  | phyRecv blk tdef =>
    simp only [command, phyRecvCommand]
    split
    · exact ⟨_, .silent rfl rfl rfl⟩
    · obtain ⟨ds, h, _⟩ := phyPoll_byEvents C .outbuf s
      exact ⟨_, h.snoc (e := .finish _ _) rfl rfl rfl⟩
    · exact ⟨_, .silent rfl rfl rfl⟩
  | macSend dst size =>
    simp only [command]
    have hs : ∃ es, ByEvents s (phySend C (macBody dst size s) s).2 es := by
      obtain ⟨_, e⟩ | ⟨_, e⟩ := phySend_cases C (macBody dst size s) s <;> rw [e]
      · exact ⟨[], .silent (by simp) rfl rfl⟩
      · rw [phyTransmit_eq]
        exact ⟨_, .silent rfl (polledAnswers_frameEvents C s _) rfl⟩
    obtain ⟨es, h⟩ := hs
    obtain ⟨_, e⟩ | ⟨_, _, e⟩ | ⟨_, _, e⟩ := macSendCommand_cases C dst size s <;> rw [e]
    · exact ⟨_, .silent rfl rfl rfl⟩
    · exact ⟨_, h.snoc (e := .finish _ _) rfl rfl rfl⟩
    · exact ⟨_, h.snoc (e := .finish _ _) rfl rfl rfl⟩
  | macRecv blk tdef =>
    simp only [command, macRecvCommand]
    split
    · exact ⟨_, .silent rfl rfl rfl⟩
    · obtain ⟨ds, h, _⟩ := phyPoll_byEvents C .frm s
      simp only [phyReceiveNb]
      obtain ⟨_, e⟩ | ⟨_, _, e⟩ | ⟨_, _, e⟩ := macOutcomeNb_cases (phyPoll C .frm s).1.nonBlocking.1
        { (phyPoll C .frm s).2 with phySt := (phyPoll C .frm s).1.nonBlocking.2 } <;> rw [e]
      · exact ⟨_, h.snoc (e := .finish _ _) rfl rfl rfl⟩
      · exact ⟨_, h.snoc (e := .finish _ _) rfl rfl rfl⟩
      · exact ⟨_, h.snoc (e := .finish _ _) rfl rfl rfl⟩
    · exact ⟨_, .silent rfl rfl rfl⟩

/-- A round of `phy_receive` reads the clock and polls at most once. -/
theorem phyReceiveRound_byEvents (C : Config) (d : Dest) (tmo : Word) (t0 : Nat) (s : State) :
    ∃ es, ByEvents s (phyReceiveRound C d tmo t0 s).2 es := by
  have hn : (now C s).2.trace = s.trace ++ [.now (now C s).1] := rfl
  unfold phyReceiveRound
  simp only []
  split
  · exact ⟨_, .silent hn rfl rfl⟩
  · obtain ⟨ds, h, _⟩ := phyPoll_byEvents C d (now C s).2
    split
    · exact ⟨_, (h.cons hn rfl rfl).of_eq rfl rfl⟩
    · exact ⟨_, h.cons hn rfl rfl⟩

/-- A step without reset leaves its events, and polls at most once (R31, R78). -/
theorem unresetStep_byEvents {C : Config} {s u : State} (h : unresetStep C (execWith C) s = .next u) :
    ∃ es, ByEvents s u es := by
  obtain ⟨_, _, rfl⟩ | ⟨_, _, _, _, rfl⟩ | ⟨_, cmd, a0, a1, rest, i, _, _, rfl⟩ | ⟨_, _, _, _, _, _, _, _, rfl⟩ |
    ⟨tmo, t0, _, rfl⟩ | ⟨tmo, t0, _, rfl⟩ | ⟨tmo, t0, _, rfl⟩ := unresetStep_cases h
  · exact ⟨[], .silent (by simp) rfl rfl⟩
  · exact ⟨[], .silent (by simp [hostWrite]) rfl rfl⟩
  · obtain ⟨es, h⟩ := command_byEvents C i (latch cmd a0 a1 { s with host := rest })
    exact ⟨es, h.trace, h.polls⟩
  · exact ⟨_, .silent rfl rfl rfl⟩
  · obtain ⟨es, h⟩ := phyReceiveRound_byEvents C .outbuf tmo t0 s
    unfold phyRecvRound
    simp only []
    split
    · exact ⟨_, h.snoc (e := .finish _ _) rfl rfl rfl⟩
    · exact ⟨_, h⟩
  · unfold macTopRound
    simp only []
    split
    · exact ⟨_, .silent (List.append_assoc _ _ _) rfl rfl⟩
    · exact ⟨_, .silent rfl rfl rfl⟩
  · obtain ⟨es, h⟩ := phyReceiveRound_byEvents C .frm tmo t0 s
    unfold macPhyRound
    simp only []
    split
    next out _ =>
      obtain ⟨_, e⟩ | ⟨_, _, e⟩ | ⟨_, e⟩ := macOutcomeBl_cases
        { (phyReceiveRound C .frm tmo t0 s).2 with run := .macTop tmo t0 } out.1 out.2
        (phyReceiveRound C .frm tmo t0 s).2 <;> rw [e]
      · exact ⟨_, h.snoc (e := .finish _ _) rfl rfl rfl⟩
      · exact ⟨_, h.snoc (e := .finish _ _) rfl rfl rfl⟩
      · exact ⟨_, h.of_eq rfl rfl⟩
    · exact ⟨_, h⟩

/-! ## Reset in the middle of a step -/

/-- What the environment has given up after some events, and what the trace holds (R245, R246). -/
theorem replay_eq (es : List Event) (s : State) :
    replay es s =
      { s with
        rx := s.rx.drop (polledAnswers es).length
        clock := s.clock + (s.ticks.take (clockReads es)).sum
        ticks := s.ticks.drop (clockReads es)
        trace := s.trace ++ es } := by
  induction es generalizing s with
  | nil => simp [replay, polledAnswers, clockReads]
  | cons e es ih =>
    cases e <;> simp only [replay, ih, polledAnswers, clockReads, emit, List.append_assoc, List.singleton_append,
      List.length_cons, List.drop_tail]
    cases h : s.ticks <;> simp [State.clockNext, h, Nat.add_assoc]

/-- What reset leaves after `k` of the events `es` by which a step leads from `s` to `u`. -/
theorem resetBlock_interrupted (C : Config) (k : Nat) {s u : State} {es : List Event} (h : u.trace = s.trace ++ es) :
    resetBlock C (interrupted k s u) =
      resetBlock C { u with
        rx := s.rx.drop (polledAnswers (es.take k)).length
        clock := s.clock + (s.ticks.take (clockReads (es.take k))).sum
        ticks := s.ticks.drop (clockReads (es.take k))
        resetIn := s.resetIn
        trace := s.trace ++ es.take k } := by
  simp only [interrupted, h, List.drop_left, replay_eq]
  rfl

/-- `n + 1` steps are one step and then `n`. -/
theorem runWith_succ {C : Config} {s t : State} (n : Nat) (h : stepWith C s = .next t) :
    runWith C (n + 1) s = runWith C n t := by
  simp only [runWith, h]

/-- Runs compose. -/
theorem runWith_add {C : Config} {s t : State} (m n : Nat) (h : runWith C m s = .next t) :
    runWith C (m + n) s = runWith C n t := by
  induction m generalizing s with
  | zero =>
    cases h
    rw [Nat.zero_add]
  | succ m ih =>
    obtain ⟨u, hu⟩ := stepWith_next C s
    rw [runWith_succ m hu] at h
    rw [show m + 1 + n = (m + n) + 1 by omega, runWith_succ (m + n) hu]
    exact ih h

/-! ## One round of a blocking receive -/

/-- A round of `phy_receive`: the deadline, or a poll whose outcome ends the receive or lets it go on (R152, R153). -/
theorem phyReceiveRound_cases (C : Config) (d : Dest) (tmo : Word) (t0 : Nat) (s : State) :
    (tmo.toNat < s.elapsedNext C t0 ∧
      phyReceiveRound C d tmo t0 s.sampled = (some (-1, .timeout), { s.checked C with phySt := .timeout })) ∨
    (s.elapsedNext C t0 ≤ tmo.toNat ∧ ∃ out, (phyPoll C d (s.checked C)).1.blocking = some out ∧
      phyReceiveRound C d tmo t0 s.sampled =
        (some out, { (phyPoll C d (s.checked C)).2 with phySt := out.2 })) ∨
    (s.elapsedNext C t0 ≤ tmo.toNat ∧ (phyPoll C d (s.checked C)).1.blocking = none ∧
      phyReceiveRound C d tmo t0 s.sampled = (none, (phyPoll C d (s.checked C)).2)) := by
  by_cases h : tmo.toNat < s.elapsedNext C t0
  · refine .inl ⟨h, ?_⟩
    simp only [State.elapsedNext] at h
    simp only [phyReceiveRound, now_sampled, h, if_true]
  · refine .inr ?_
    simp only [State.elapsedNext] at h
    cases ho : (phyPoll C d (s.checked C)).1.blocking with
    | some out =>
      refine .inl ⟨Nat.le_of_not_lt h, out, rfl, ?_⟩
      simp only [phyReceiveRound, now_sampled, h, if_false, ho]
    | none =>
      refine .inr ⟨Nat.le_of_not_lt h, rfl, ?_⟩
      simp only [phyReceiveRound, now_sampled, h, if_false, ho]

/-! ## Receives, by the outcome of their poll -/

/-- A non-blocking PHY_RECV is one poll and its outcome (R131, R153). -/
theorem phyRecvCommand_nb {C : Config} {blk : BitVec 2} {tdef : Bool} {s : State} (h : resolveBlk blk s = some .nb) :
    phyRecvCommand C blk tdef s =
      finish (phyPoll C .outbuf s).1.nonBlocking.1 (phyPoll C .outbuf s).1.nonBlocking.2
        { (phyPoll C .outbuf s).2 with phySt := (phyPoll C .outbuf s).1.nonBlocking.2 } := by
  simp only [phyRecvCommand, h, phyReceiveNb]

/-- A non-blocking MAC_RECV is one poll and what the MAC makes of its outcome (R181, R189). -/
theorem macRecvCommand_nb {C : Config} {blk : BitVec 2} {tdef : Bool} {s : State} (h : resolveBlk blk s = some .nb) :
    macRecvCommand C blk tdef s =
      macOutcomeNb (phyPoll C .frm s).1.nonBlocking.1
        { (phyPoll C .frm s).2 with phySt := (phyPoll C .frm s).1.nonBlocking.2 } := by
  simp only [macRecvCommand, h, phyReceiveNb]

/-- A step of a blocking PHY_RECV whose deadline has passed (R152). -/
theorem stepWith_phyRecv_timeout {C : Config} {s : State} {tmo : Word} {t0 : Nat} (hr : s.resetAsserted = false)
    (h : s.run = .phyRecv tmo t0) (he : tmo.toNat < s.elapsedNext C t0) :
    stepWith C s = .next (finish (-1) .timeout { s.checked C with phySt := .timeout }) := by
  rw [stepWith_running hr (by rw [h]; nofun), receiveRound, sampled_run, h]
  simp only [phyRecvRound]
  obtain ⟨_, e⟩ | ⟨_, _⟩ | ⟨_, _⟩ := phyReceiveRound_cases C .outbuf tmo t0 s
  · rw [e]
  · omega
  · omega

/-- A step of a blocking PHY_RECV whose poll ends it (R153). -/
theorem stepWith_phyRecv_done {C : Config} {s : State} {tmo : Word} {t0 : Nat} {out : Int × Status}
    (hr : s.resetAsserted = false) (h : s.run = .phyRecv tmo t0) (he : s.elapsedNext C t0 ≤ tmo.toNat)
    (hb : (phyPoll C .outbuf (s.checked C)).1.blocking = some out) :
    stepWith C s =
      .next (finish out.1 out.2 { (phyPoll C .outbuf (s.checked C)).2 with phySt := out.2 }) := by
  rw [stepWith_running hr (by rw [h]; nofun), receiveRound, sampled_run, h]
  simp only [phyRecvRound]
  obtain ⟨_, e⟩ | ⟨_, out', ho, e⟩ | ⟨_, hn, e⟩ := phyReceiveRound_cases C .outbuf tmo t0 s
  · omega
  · rw [hb] at ho
    cases ho
    rw [e]
  · rw [hb] at hn
    cases hn

/-- A step of a blocking PHY_RECV whose poll lets it go on (R153). -/
theorem stepWith_phyRecv_continue {C : Config} {s : State} {tmo : Word} {t0 : Nat} (hr : s.resetAsserted = false)
    (h : s.run = .phyRecv tmo t0) (he : s.elapsedNext C t0 ≤ tmo.toNat)
    (hb : (phyPoll C .outbuf (s.checked C)).1.blocking = none) :
    stepWith C s = .next (phyPoll C .outbuf (s.checked C)).2 := by
  rw [stepWith_running hr (by rw [h]; nofun), receiveRound, sampled_run, h]
  simp only [phyRecvRound]
  obtain ⟨_, e⟩ | ⟨_, out, ho, e⟩ | ⟨_, _, e⟩ := phyReceiveRound_cases C .outbuf tmo t0 s
  · omega
  · rw [hb] at ho
    cases ho
  · rw [e]

/-- A step of a blocking MAC_RECV at the top of its loop, past the deadline (R183). -/
theorem stepWith_macTop_timeout {C : Config} {s : State} {tmo : Word} {t0 : Nat} (hr : s.resetAsserted = false)
    (h : s.run = .macTop tmo t0) (he : tmo.toNat < s.elapsedNext C t0) :
    stepWith C s = .next (macFinish (-1) .timeout (s.checked C)) := by
  rw [stepWith_running hr (by rw [h]; nofun), receiveRound, sampled_run, h]
  simp only [State.elapsedNext] at he
  simp only [macTopRound, now_sampled, he, if_true]

/-- A step of a blocking MAC_RECV at the top of its loop, under the deadline (R183). -/
theorem stepWith_macTop_continue {C : Config} {s : State} {tmo : Word} {t0 : Nat} (hr : s.resetAsserted = false)
    (h : s.run = .macTop tmo t0) (he : s.elapsedNext C t0 ≤ tmo.toNat) :
    stepWith C s = .next { s.checked C with run := .macPhy tmo t0 } := by
  rw [stepWith_running hr (by rw [h]; nofun), receiveRound, sampled_run, h]
  simp only [State.elapsedNext] at he
  simp only [macTopRound, now_sampled, Nat.not_lt.mpr he, if_false]

/-- A step of a blocking MAC_RECV inside its PHY receive, past the deadline (R152, R184). -/
theorem stepWith_macPhy_timeout {C : Config} {s : State} {tmo : Word} {t0 : Nat} (hr : s.resetAsserted = false)
    (h : s.run = .macPhy tmo t0) (he : tmo.toNat < s.elapsedNext C t0) :
    stepWith C s = .next (macFinish (-1) .timeout { s.checked C with phySt := .timeout }) := by
  rw [stepWith_running hr (by rw [h]; nofun), receiveRound, sampled_run, h]
  simp only [macPhyRound]
  obtain ⟨_, e⟩ | ⟨_, _⟩ | ⟨_, _⟩ := phyReceiveRound_cases C .frm tmo t0 s
  · rw [e]
    rfl
  · omega
  · omega

/-- A step of a blocking MAC_RECV whose poll ends its PHY receive (R184 to R189). -/
theorem stepWith_macPhy_done {C : Config} {s : State} {tmo : Word} {t0 : Nat} {out : Int × Status}
    (hr : s.resetAsserted = false) (h : s.run = .macPhy tmo t0) (he : s.elapsedNext C t0 ≤ tmo.toNat)
    (hb : (phyPoll C .frm (s.checked C)).1.blocking = some out) :
    stepWith C s =
      .next (macOutcomeBl { (phyPoll C .frm (s.checked C)).2 with phySt := out.2, run := .macTop tmo t0 } out.1 out.2
        { (phyPoll C .frm (s.checked C)).2 with phySt := out.2 }) := by
  rw [stepWith_running hr (by rw [h]; nofun), receiveRound, sampled_run, h]
  simp only [macPhyRound]
  obtain ⟨_, e⟩ | ⟨_, out', ho, e⟩ | ⟨_, hn, e⟩ := phyReceiveRound_cases C .frm tmo t0 s
  · omega
  · rw [hb] at ho
    cases ho
    rw [e]
  · rw [hb] at hn
    cases hn

/-- A step of a blocking MAC_RECV whose poll lets its PHY receive go on (R153). -/
theorem stepWith_macPhy_continue {C : Config} {s : State} {tmo : Word} {t0 : Nat} (hr : s.resetAsserted = false)
    (h : s.run = .macPhy tmo t0) (he : s.elapsedNext C t0 ≤ tmo.toNat)
    (hb : (phyPoll C .frm (s.checked C)).1.blocking = none) :
    stepWith C s = .next (phyPoll C .frm (s.checked C)).2 := by
  rw [stepWith_running hr (by rw [h]; nofun), receiveRound, sampled_run, h]
  simp only [macPhyRound]
  obtain ⟨_, e⟩ | ⟨_, out, ho, e⟩ | ⟨_, _, e⟩ := phyReceiveRound_cases C .frm tmo t0 s
  · omega
  · rw [hb] at ho
    cases ho
  · rw [e]

end Sys2Proof.Machine
end

