-- ==== Sys2Proof/Laws/PerInstr.lean ====
section
/-! SUPPORT. Per instruction: the word of a command fits its row of spec/opcode_table.json, whatever its operands. -/
namespace Sys2Proof.Laws.TableRow

/-- The mask of a command's row (30_encoding.md R92). -/
def mask : Instr → Word
  | .init _ _ _ _ => 0xFF0000FC#32
  | .phySend _ => 0xFFFF0000#32
  | .phyRecv _ _ => 0xF1FFFFFF#32
  | .macSend _ _ => 0xFF000000#32
  | .macRecv _ _ => 0xF1FFFFFF#32

/-- The match value of a command's row (R92). -/
def value : Instr → Word
  | .init _ _ _ _ => 0x10000000#32
  | .phySend _ => 0x20000000#32
  | .phyRecv _ _ => 0x30000000#32
  | .macSend _ _ => 0x40000000#32
  | .macRecv _ _ => 0x50000000#32

/-- The encoding of `i` has the fixed bits of its row. -/
def Statement (i : Instr) : Prop := encode i &&& mask i = value i

theorem init (self dirid : Byte) (schreq : Scheme) (defblk : Mode) : Statement (.init self dirid schreq defblk) := by
  refine BitVec.eq_of_getLsbD_eq fun j hj => ?_
  cases schreq <;> cases defblk <;> interval_cases j <;>
    simp only [encode, mask, value, Scheme.bit, Mode.bit, BitVec.getLsbD_and, BitVec.getLsbD_append] <;> simp

theorem phySend (size : BitVec 16) : Statement (.phySend size) := by
  refine BitVec.eq_of_getLsbD_eq fun j hj => ?_
  interval_cases j <;> simp only [encode, mask, value, BitVec.getLsbD_and, BitVec.getLsbD_append] <;> simp

theorem phyRecv (blk : BitVec 2) (tdef : Bool) : Statement (.phyRecv blk tdef) := by
  refine BitVec.eq_of_getLsbD_eq fun j hj => ?_
  cases tdef <;> interval_cases j <;>
    simp only [encode, mask, value, tdefBit, BitVec.getLsbD_and, BitVec.getLsbD_append] <;> simp

theorem macSend (dst : Byte) (size : BitVec 16) : Statement (.macSend dst size) := by
  refine BitVec.eq_of_getLsbD_eq fun j hj => ?_
  interval_cases j <;> simp only [encode, mask, value, BitVec.getLsbD_and, BitVec.getLsbD_append] <;> simp

theorem macRecv (blk : BitVec 2) (tdef : Bool) : Statement (.macRecv blk tdef) := by
  refine BitVec.eq_of_getLsbD_eq fun j hj => ?_
  cases tdef <;> interval_cases j <;>
    simp only [encode, mask, value, tdefBit, BitVec.getLsbD_and, BitVec.getLsbD_append] <;> simp

end Sys2Proof.Laws.TableRow
end

