-- ==== Sys2Proof/Machine/HostView.lean ====
section
/-! DEFINITION. What the host sees of the block: the read-only view of the configuration and status registers, the result
port, and the output buffer with its source register (10_state.md R30, R36, R37), each with its width. DESIGN CHOICE: the
view shows `DIR` too, an output of which R30 does not say that the host can read it (assumption 20). -/
namespace Sys2Proof.Machine

/-- The registers and ports the host can read (R30). -/
structure HostView where
  /-- `CFG_SELF` (R40). -/
  cfgSelf : BitVec 8
  /-- `CFG_M` (R41). -/
  cfgM : BitVec 16
  /-- `CFG_SCHEME_REQ` (R42). -/
  cfgSchemeReq : BitVec 1
  /-- `CFG_DIRID` (R43). -/
  cfgDirid : BitVec 8
  /-- `CFG_DEFBLK` (R44). -/
  cfgDefblk : BitVec 1
  /-- `CFG_DEFTMO` (R45). -/
  cfgDeftmo : BitVec 32
  /-- `SCHEME`, the effective scheme (R46). -/
  scheme : Scheme
  /-- `PHY_ST` (R49). -/
  phySt : BitVec 8
  /-- `MAC_ST` (R50). -/
  macSt : BitVec 8
  /-- `RET` (R36). -/
  ret : BitVec 32
  /-- `RSTAT` (R36). -/
  rstat : BitVec 8
  /-- `OUTBUF`, all `MAXP_MAX` bytes (R37). -/
  outbuf : Bytes
  /-- `OUTSRC` (R37). -/
  outsrc : BitVec 8
  /-- `DIR` (R33). DESIGN CHOICE: R30's read-only view does not name it (assumption 20). -/
  dir : Dir
  deriving DecidableEq, Repr

/-- The host's view of a state (R30; `DIR` by assumption 20). -/
def State.hostView (C : Config) (s : State) : HostView where
  cfgSelf := s.cfgSelf
  cfgM := s.cfgM
  cfgSchemeReq := s.cfgSchemeReq.bit
  cfgDirid := s.cfgDirid
  cfgDefblk := s.cfgDefblk.bit
  cfgDeftmo := s.cfgDeftmo
  scheme := s.scheme
  phySt := s.phySt.code
  macSt := s.macSt.code
  ret := s.ret
  rstat := s.rstat.code
  outbuf := s.outbuf.readBytes 0 (frameSize C)
  outsrc := s.outsrc
  dir := s.dir

end Sys2Proof.Machine
end

