-- ==== Sys2Proof/Tests/Slice0.lean ====
section
/-! SUPPORT. Tests of single steps, with the expected results of 95_test_vectors.md and of the rules named, and for every
statement of Obligations.lean that has hypotheses a state that meets them. The block of the tests is the reference instance
of 95_test_vectors.md section 0, but where a test says otherwise. -/
namespace Sys2Proof.Tests
open Sys2Proof.Machine

/-! ## Helpers -/

/-- The instance of 95_test_vectors.md section 0. -/
abbrev R : Config := Config.reference

/-- Bytes from numbers. -/
def bytes (l : List Nat) : Bytes := l.map (BitVec.ofNat 8)

/-- `B4`: scheme B, `CFG_M = 4`, `CAP = 16`; the clock stands at 1000. -/
def b4 : State := { State.reset with cfgM := 4#16, clock := 1000 }

/-- `A4`: scheme A, `CFG_M = 4`, `CAP = 9`. -/
def a4 : State := { b4 with cfgSchemeReq := .A }

/-- `B8` with `CFG_SELF = 2`: scheme B, `CFG_M = 8`, `CAP = 24`. -/
def b8 : State := { State.reset with cfgM := 8#16, cfgSelf := 2#8, clock := 1000 }

/-- `INBUF` written by the host. -/
def holding (l : List Nat) (s : State) : State := { s with inbuf := Memory.writeBytes [] 0 (bytes l) }

/-- Inside a frame with these raw bytes accumulated. -/
def inFrame (l : List Nat) (s : State) : State :=
  { s with sync := true, len := l.length, acc := Memory.writeBytes [] 0 (bytes l) }

/-- The bytes that arrive. -/
def hearing (l : List Nat) (s : State) : State := { s with rx := (bytes l).map some }

/-- The host presents a command. -/
def given (cmd arg0 arg1 : Word) (s : State) : State := { s with host := [.command cmd arg0 arg1] }

/-- The result port and `PHY_ST`, `MAC_ST`. -/
def result (s : State) : Word × Status × Status × Status := (s.ret, s.rstat, s.phySt, s.macSt)

/-- `(SYNC, LEN, TAINT)`. -/
def triple (s : State) : Bool × Nat × Bool := (s.sync, s.len, s.taint)

/-- Whether an outcome is a next state. -/
def isNext (o : Host.Outcome State Fault Refusal) : Bool :=
  match o with
  | .next _ => true
  | .fault _ => false
  | .refused _ => false

/-- The state an outcome leads to; after reset where it is not a next state. -/
def reached (o : Host.Outcome State Fault Refusal) : State :=
  match o with
  | .next t => t
  | .fault _ => State.reset
  | .refused _ => State.reset

/-! ## Well-formedness: ill-formed terms are refused -/

theorem test_wellFormed_phyRecv_illegal : (Instr.phyRecv 0b11#2 false).wellFormed = false := by decide
theorem test_wellFormed_macRecv_illegal : (Instr.macRecv 0b11#2 true).wellFormed = false := by decide
theorem test_wellFormed_phyRecv_legal :
    (Instr.phyRecv 0b00#2 true).wellFormed = true ∧ (Instr.phyRecv 0b01#2 true).wellFormed = true ∧
    (Instr.phyRecv 0b10#2 true).wellFormed = true := by decide

/-! ## Decoding: words written out from the fields of 30_encoding.md R90, bit 31 first -/

theorem test_decode_init :
    decode (0b0001#4 ++ 0b0000#4 ++ 0x02#8 ++ 0x05#8 ++ 0b000000#6 ++ 0b1#1 ++ 0b0#1) =
      .ok (.init 0x02#8 0x05#8 .B .nb) := by rfl
theorem test_decode_phySend :
    decode (0b0010#4 ++ 0b000000000000#12 ++ 0x0004#16) = .ok (.phySend 4#16) := by rfl
theorem test_decode_phyRecv :
    decode (0b0011#4 ++ 0b10#2 ++ 0b1#1 ++ 0b0#25) = .ok (.phyRecv 0b10#2 true) := by rfl
theorem test_decode_macSend :
    decode (0b0100#4 ++ 0b0000#4 ++ 0xFF#8 ++ 0x0002#16) = .ok (.macSend 0xFF#8 2#16) := by rfl
theorem test_decode_macRecv :
    decode (0b0101#4 ++ 0b01#2 ++ 0b0#1 ++ 0b0#25) = .ok (.macRecv 0b01#2 false) := by rfl

/-- Vectors V2.5-12 to V2.5-23, each with the reason for which the word is refused. -/
theorem test_decode_illegal :
    decode 0x00000000#32 = .error .reservedOp ∧ decode 0x60000000#32 = .error .reservedOp ∧
    decode 0xF0000000#32 = .error .reservedOp ∧ decode 0x3C000000#32 = .error .illegalBlk ∧
    decode 0x5E000000#32 = .error .illegalBlk ∧ decode 0x30000001#32 = .error .mustBeZero ∧
    decode 0x31000000#32 = .error .mustBeZero ∧ decode 0x20010000#32 = .error .mustBeZero ∧
    decode 0x4F000000#32 = .error .mustBeZero ∧ decode 0x11000000#32 = .error .mustBeZero ∧
    decode 0x10000004#32 = .error .mustBeZero ∧ decode 0x12000000#32 = .error .mustBeZero := by
  refine ⟨?_, ?_, ?_, ?_, ?_, ?_, ?_, ?_, ?_, ?_, ?_, ?_⟩ <;> rfl

/-- The rows of spec/opcode_table.json, each by its match word. -/
theorem test_decodeTableWord :
    decodeTableWord 32 0x10000000 = some (.init 0#8 0#8 .A .nb) ∧
    decodeTableWord 32 0x20000000 = some (.phySend 0#16) ∧
    decodeTableWord 32 0x30000000 = some (.phyRecv 0b00#2 false) ∧
    decodeTableWord 32 0x40000000 = some (.macSend 0#8 0#16) ∧
    decodeTableWord 32 0x50000000 = some (.macRecv 0b00#2 false) ∧
    decodeTableWord 32 0x60000000 = none := by
  refine ⟨?_, ?_, ?_, ?_, ?_, ?_⟩ <;> rfl

/-- The block of this package runs each row's word as its first instruction after reset. -/
theorem test_step_runs_first :
    isNext (step (State.reset.withFetchWord 32 0x10000000)) = true ∧
    isNext (step (State.reset.withFetchWord 32 0x20000000)) = true ∧
    isNext (step (State.reset.withFetchWord 32 0x30000000)) = true ∧
    isNext (step (State.reset.withFetchWord 32 0x40000000)) = true ∧
    isNext (step (State.reset.withFetchWord 32 0x50000000)) = true := by
  refine ⟨?_, ?_, ?_, ?_, ?_⟩ <;> rfl

/-! ## INIT -/

/-- V2.5-3: scheme A requested with `M = 251` gives scheme B, `CAP = 510`; the request is kept. -/
theorem test_init_forced_scheme :
    (let t := command R (.init 0#8 0#8 .A .nb) { State.reset with arg0 := 251#32, arg1 := 1000#32 }
     (t.cfgM, t.cfgSchemeReq, t.scheme, t.cap, t.ret, t.rstat)) = (251#16, .A, .B, 510, 0#32, .noError) := by decide

/-- V2.5-8: `ARG0 = 301` is refused and the configuration stays. -/
theorem test_init_too_large :
    (let t := command R (.init 7#8 0#8 .B .nb) { b8 with arg0 := 301#32 }
     (t.cfgSelf, t.cfgM, t.ret, t.rstat)) = (2#8, 8#16, 0xFFFFFFFF#32, .unknownError) := by decide

/-! ## PHY_SEND -/

/-- V2.1-1: the wire bytes, and the length of the encoding. -/
theorem test_phySend_escapes :
    (let t := command R (.phySend 4#16) (holding [0x01, 0xC0, 0xDB, 0x02] b4)
     (result t, sentBytes t.trace)) =
      ((6#32, .noError, .noError, .noError), bytes [0xC0, 0x01, 0xDB, 0xDC, 0xDB, 0xDD, 0x02, 0xC0]) := by decide

/-- V2.1-14: the order of the events with direction control on. -/
theorem test_phySend_events :
    (command R (.phySend 1#16) (holding [0x41] { b4 with cfgDirid := 5#8 })).trace =
      [.dirSet .tx, .wait .pre 1, .txByte 0xC0#8, .txByte 0x41#8, .txByte 0xC0#8, .txFlush, .wait .post 1,
        .dirSet .rx, .finish 1 .noError] := by decide

/-! ## Reset -/

/-- R245, R246: reset after three events of a send cuts it there, with `DIR` back at `RX` and no event of its own. -/
theorem test_reset_cuts_a_send :
    (let t := reached (stepWith R { given 0x20000001#32 0#32 0#32 (holding [0x41] { b4 with cfgDirid := 5#8 }) with
       resetIn := [.after 3] })
     (t.trace, t.dir, t.cfgDirid, t.rstat, t.host)) =
      ([.dirSet .tx, .wait .pre 1, .txByte 0xC0#8], .rx, 0#8, .noError, []) := by decide

/-- Reset after the deadline check of a blocking receive and before its poll: the byte is not consumed. -/
theorem test_reset_cuts_a_receive :
    (let t := reached (stepWith R { hearing [0xC0] b4 with
       run := .phyRecv 100#32 1000, ticks := [7], resetIn := [.after 1] })
     (t.trace, t.rx, t.clock, t.sync, t.run)) = ([.now 1007], [some 0xC0#8], 1007, false, .idle) := by decide

/-! ## PHY_RECV -/

/-- V2.2-7 and V2.2-8: a byte at `LEN = CAP - 1` is stored, one at `LEN = CAP` overflows. -/
theorem test_phyRecv_boundary :
    (let t := command R (.phyRecv 0b00#2 true) (hearing [0x41] (inFrame (List.replicate 15 0x41) b4))
     let u := command R (.phyRecv 0b00#2 true) (hearing [0x41] (inFrame (List.replicate 16 0x41) b4))
     (result t, triple t, result u, triple u)) =
      ((0#32, .noError, .noError, .noError), (true, 16, false),
        (0xFFFFFFFF#32, .oversize, .oversize, .noError), (false, 0, false)) := by decide

/-- V2.2-11: the frame `DB DC` destuffs to `C0`. -/
theorem test_phyRecv_frame :
    (let t := command R (.phyRecv 0b00#2 true) (hearing [0xC0] (inFrame [0xDB, 0xDC] b4))
     (result t, triple t, t.outbuf.readBytes 0 2)) =
      ((1#32, .noError, .noError, .noError), (false, 0, false), bytes [0xC0, 0x00]) := by decide

/-- V2.2-21: across a wrap of the clock, a check at elapsed 100 polls and one at 101 ends with `Timeout`. -/
theorem test_phyRecv_clock_wrap :
    (let s := { b4 with run := .phyRecv 100#32 0xFFFFFFF0, clock := 0x100000000 }
     let t := receiveRound R { s with ticks := [0x54] }
     let u := receiveRound R { s with ticks := [0x55] }
     (t.run, u.run, result u)) =
      (.phyRecv 100#32 0xFFFFFFF0, .idle, (0xFFFFFFFF#32, .timeout, .timeout, .noError)) := by decide

/-! ## MAC_SEND -/

/-- V2.3-2: header, escaped payload, payload length. -/
theorem test_macSend_broadcast :
    (let t := command R (.macSend 0xFF#8 1#16) (holding [0xC0] b8)
     (result t, sentBytes t.trace)) =
      ((1#32, .noError, .noError, .noError), bytes [0xC0, 0xFF, 0x02, 0xDB, 0xDC, 0xC0]) := by decide

/-- V2.3-4: `SIZE > CFG_M` is refused by the MAC and `PHY_ST` stays. -/
theorem test_macSend_oversize :
    (let t := command R (.macSend 3#8 9#16) { b8 with phySt := .noData }
     (result t, t.trace)) = ((0xFFFFFFFF#32, .oversize, .noData, .oversize), [.finish (-1) .oversize]) := by decide

/-! ## MAC_RECV -/

/-- V2.4-5, its last byte: an echo of the node's own frame is delivered and flagged. -/
theorem test_macRecv_echo :
    (let t := receiveRound R (hearing [0xC0] (inFrame [0x02, 0x02, 0x48] { b8 with run := .macPhy 100#32 1000 }))
     (result t, t.outbuf.readBytes 0 1, t.outsrc, t.run)) =
      ((1#32, .readErrorSourceSelf, .noError, .readErrorSourceSelf), bytes [0x48], 2#8, .idle) := by decide

/-- V2.4-8, its last call: a runt frame is dropped. -/
theorem test_macRecv_runt :
    (let t := command R (.macRecv 0b00#2 true) (hearing [0xC0] (inFrame [0x02] { b8 with outsrc := 9#8 }))
     (result t, t.outbuf, t.outsrc)) = ((0#32, .noData, .noError, .noData), [], 9#8) := by decide

/-! ## The host's view -/

/-- R30: the registers the host reads after reset, by their numbers (R59). -/
theorem test_hostView_reset :
    (let v := State.reset.hostView R
     (v.cfgSelf, v.cfgM, v.cfgSchemeReq, v.cfgDeftmo, v.phySt, v.rstat, v.dir)) =
      (0#8, 64#16, 1#1, 1000#32, 0#8, 0#8, .rx) := by decide

/-! ## Witnesses: states that meet the hypotheses of the statements -/

/-- A blocking PHY_RECV in progress whose next deadline check sees exactly `T = 100` elapsed. -/
def waiting (s : State) : State := { s with run := .phyRecv 100#32 1000, ticks := [100] }

/-- A blocking MAC_RECV inside its PHY receive, likewise. -/
def waitingMac (s : State) : State := { s with run := .macPhy 100#32 1000, ticks := [100] }

/-- The hypotheses under which the receive statements speak of both modes at once. -/
abbrev BothModes (s : State) : Prop :=
  resolveBlk 0b00#2 s = some .nb ∧ s.resetAsserted = false ∧ s.run = .phyRecv 100#32 1000 ∧
    s.elapsedNext R 1000 ≤ (100#32).toNat

/-- The same for MAC_RECV. -/
abbrev BothModesMac (s : State) : Prop :=
  resolveBlk 0b00#2 s = some .nb ∧ s.resetAsserted = false ∧ s.run = .macPhy 100#32 1000 ∧
    s.elapsedNext R 1000 ≤ (100#32).toNat

/-- An idle block with a presented command. -/
abbrev Presented (w : Word) (s : State) : Prop :=
  s.resetAsserted = false ∧ s.run = .idle ∧ s.host = .command w 0#32 0#32 :: []

theorem witness_DecodeInvertsEncode :
    (Instr.phyRecv 0b10#2 true).wellFormed = true ∧ (Instr.macSend 0xFF#8 0xFFFF#16).wellFormed = true := by decide

theorem witness_EncodeInvertsDecode : decode 0x5A000000#32 = .ok (.macRecv 0b10#2 true) := by rfl

theorem witness_StepRunsTheDecodedCommand :
    Presented 0x20000004#32 (given 0x20000004#32 0#32 0#32 b4) ∧ decode 0x20000004#32 = .ok (.phySend 4#16) :=
  ⟨by decide, rfl⟩

theorem witness_IllegalCommandsEndWithUnknownError :
    (Presented 0x00000000#32 (given 0x00000000#32 0#32 0#32 b4) ∧ decode 0x00000000#32 = .error .reservedOp) ∧
    R.maxpMax < ({ b4 with arg0 := 301#32 } : State).arg0.toNat :=
  ⟨⟨by decide, rfl⟩, by decide⟩

theorem witness_IdleBlockWaitsForTheHost : b4.resetAsserted = false ∧ b4.run = .idle ∧ b4.host = [] := by decide

/-- At the array's full size, 608 bytes. -/
theorem witness_HostWriteFillsInbufOnly :
    (let s := { b4 with host := [.writeInbuf (List.replicate 608 0x41#8)] }
     s.resetAsserted = false ∧ s.run = .idle ∧ s.host = .writeInbuf (List.replicate 608 0x41#8) :: [] ∧
       s.inbuf.wf = true) ∧
    (List.replicate 608 0x41#8).length ≤ 2 * (R.maxpMax + 4) ∧ 2 * (R.maxpMax + 4) ≤ 608 := by
  refine ⟨⟨rfl, rfl, rfl, rfl⟩, ?_, ?_⟩
  · exact Nat.le_of_eq (List.length_replicate.trans rfl)
  · decide

theorem witness_NoCommandIsTakenWhileOneRuns :
    (waiting b4).resetAsserted = false ∧ (waiting b4).run ≠ .idle ∧ (receiveRound R (waiting b4).sampled).run ≠ .idle := by
  decide

/-- As a step of a receive begins, and after two events of a send. -/
theorem witness_ResetInputRestoresTheResetValues :
    ({ waiting b4 with resetIn := [.atStart] } : State).resetNow = .atStart ∧
    (let s := { given 0x20000001#32 0#32 0#32 b4 with resetIn := [.after 2] }
     s.resetNow = .after 2 ∧
       (∃ u, stepWith R { s with resetIn := .released :: s.resetIn.tail } = .next u)) :=
  ⟨by decide, by decide, stepWith_next _ _⟩

/-- On both sides of `SCHEME_A_LIMIT`, and at the largest `CFG_M`. -/
theorem witness_SchemeAndCapacityFollowFromTheConfiguration :
    ({ a4 with cfgM := 250#16 } : State).scheme = .A ∧ ({ a4 with cfgM := 251#16 } : State).scheme = .B ∧
    ({ a4 with cfgM := 300#16 } : State).cfgM.toNat ≤ R.maxpMax := by decide

theorem witness_InitConfiguresAndClears : ({ b4 with arg0 := 300#32 } : State).arg0.toNat ≤ R.maxpMax := by decide

theorem witness_InitCanLeaveAnyBufferContents :
    ({ b4 with arg0 := 300#32 } : State).arg0.toNat ≤ R.maxpMax ∧
    (List.replicate 608 0x41#8).length = rawSize R ∧ (List.replicate 300 0x42#8).length = frameSize R := by
  refine ⟨by decide, ?_, ?_⟩
  · exact List.length_replicate.trans rfl
  · exact List.length_replicate.trans rfl

/-- A step is always a next state, so the statements about every step of a block hold of something: here of a step that
runs MAC_SEND, of one that polls, and of one that takes the reset input. -/
theorem witness_every_step :
    (∃ t, stepWith R (given 0x40030002#32 0#32 0#32 b8) = .next t) ∧ (∃ t, stepWith R (waiting b4) = .next t) ∧
    ∃ t, stepWith R { b4 with resetIn := [.after 0] } = .next t :=
  ⟨stepWith_next _ _, stepWith_next _ _, stepWith_next _ _⟩

theorem witness_OnlyInitAndResetWriteTheConfiguration :
    Presented 0x10020002#32 (given 0x10020002#32 0#32 0#32 b4) ∧
    decode 0x10020002#32 = .ok (.init 0x02#8 0x00#8 .B .nb) := ⟨by decide, rfl⟩

/-- At `CAP + 1` in both schemes: 17 in B4, 10 in A4. -/
theorem witness_PhySendRefusesPayloadLongerThanCap :
    b4.scheme = .B ∧ (b4.cfgM.toNat + 4) * 2 < (17#16).toNat ∧ a4.scheme = .A ∧ a4.cfgM.toNat + 5 < (10#16).toNat := by
  decide

/-- Each side of the two checks: `SIZE = CAP + 1`; 16 bytes that encode to 32 (V2.1-6); 8 bytes that encode to `CAP`
(V2.1-7). -/
theorem witness_PhySendAlwaysCompletes :
    b4.cap < (17#16).toNat ∧
    (let s := holding (List.replicate 16 0xC0) b4
     (16#16).toNat ≤ s.cap ∧ s.cap < ((s.codec R).enc (s.inbuf.readBytes 0 16)).length) ∧
    (let s := holding (List.replicate 8 0xC0) b4
     (8#16).toNat ≤ s.cap ∧ ((s.codec R).enc (s.inbuf.readBytes 0 8)).length = s.cap) := by decide

/-- V2.1-6: 16 bytes that encode to 32. -/
theorem witness_PhySendRefusesEncodingLongerThanCap :
    (let s := holding (List.replicate 16 0xC0) b4
     (16#16).toNat ≤ s.cap ∧ s.cap < ((s.codec R).enc (s.inbuf.readBytes 0 16)).length) := by decide

/-- V2.1-7: 8 bytes that encode to exactly `CAP`. -/
theorem witness_PhySendTransmitsOneFrame :
    (let s := holding (List.replicate 8 0xC0) b4
     (8#16).toNat ≤ s.cap ∧ ((s.codec R).enc (s.inbuf.readBytes 0 8)).length = 16 ∧ s.cap = 16) := by decide

theorem witness_PhySendLeavesTheReceiverAlone :
    (inFrame [0x41] b4).run = .idle ∧ (inFrame [0x41] b4).dir = .rx ∧ (inFrame [0x41] b4).txScratch = [] := by decide

theorem witness_SentFrameHasDelimitersOnlyAtItsEnds :
    (let s := holding [0x01, 0xC0, 0xDB, 0x02] b4
     (4#16).toNat ≤ s.cap ∧ ((s.codec R).enc (s.inbuf.readBytes 0 4)).length ≤ s.cap) := by decide

theorem witness_PollWithoutByteChangesNoState : (waiting b4).rx.headD none = none ∧ BothModes (waiting b4) ∧
    BothModesMac (waitingMac b4) ∧ (waitingMac b4).rx.headD none = none := by decide

theorem witness_DelimiterOutsideAFrameStartsOne :
    (let s := waiting (hearing [0xC0] b4)
     s.rx.headD none = some (s.codec R).delim ∧ s.sync = false ∧ BothModes s ∧
       BothModesMac (waitingMac s)) := by decide

theorem witness_DelimiterWithNothingAccumulatedResyncs :
    (let s := waiting (hearing [0xC0] (inFrame [] b4))
     s.rx.headD none = some (s.codec R).delim ∧ s.sync = true ∧ s.len = 0 ∧ BothModes s ∧
       BothModesMac (waitingMac s)) := by decide

/-- At `LEN = CAP`. -/
theorem witness_ByteAtCapacityOverflows :
    (let s := waiting (hearing [0x41] (inFrame (List.replicate 16 0x41) b4))
     s.rx.headD none = some 0x41#8 ∧ 0x41#8 ≠ (s.codec R).delim ∧ s.sync = true ∧ s.cap ≤ s.len ∧ BothModes s ∧
       BothModesMac (waitingMac s)) := by decide

/-- At `LEN = CAP - 1`. -/
theorem witness_ByteInsideAFrameIsStored :
    (let s := waiting (hearing [0x41] (inFrame (List.replicate 15 0x41) b4))
     s.rx.headD none = some 0x41#8 ∧ 0x41#8 ≠ (s.codec R).delim ∧ s.sync = true ∧ s.len < s.cap ∧ s.acc.wf = true ∧
       BothModes s ∧
       BothModesMac (waitingMac s)) := by decide

theorem witness_ByteOutsideAFrameIsNoise :
    (let s := waiting (hearing [0x41] b4)
     s.rx.headD none = some 0x41#8 ∧ 0x41#8 ≠ (s.codec R).delim ∧ s.sync = false ∧ BothModes s ∧
       BothModesMac (waitingMac s)) := by decide

/-- V2.2-15: a frame of exactly `CFG_M` bytes. -/
theorem witness_FittingFrameIsDelivered :
    (let s := waiting (hearing [0xC0] (inFrame [0x41, 0x42, 0x43, 0x44] b4))
     s.rx.headD none = some (s.codec R).delim ∧ s.sync = true ∧ 0 < s.len ∧ s.taint = false ∧
       bytes [0x41, 0x42, 0x43, 0x44] = (s.codec R).dec (s.acc.readBytes 0 s.len) ∧
       (bytes [0x41, 0x42, 0x43, 0x44]).length ≤ s.cfgM.toNat ∧ s.outbuf.wf = true ∧ BothModes s) := by decide

/-- V2.2-16: a frame of `CFG_M + 1` bytes. -/
theorem witness_FrameTooLongFailsWithOversize :
    (let s := waiting (hearing [0xC0] (inFrame [0x41, 0x42, 0x43, 0x44, 0x45] b4))
     s.rx.headD none = some (s.codec R).delim ∧ s.sync = true ∧ 0 < s.len ∧ s.taint = false ∧
       s.cfgM.toNat < ((s.codec R).dec (s.acc.readBytes 0 s.len)).length ∧ BothModes s) := by decide

/-- V2.2-12: the end of a tainted frame, for both commands and in both modes. -/
theorem witness_TaintedFrameEndsInOneOfTheTwoOutcomes :
    (let s := waiting (hearing [0xC0] (inFrame [0x41] { b4 with taint := true }))
     s.rx.headD none = some (s.codec R).delim ∧ s.sync = true ∧ 0 < s.len ∧ s.taint = true ∧ s.outbuf.wf = true ∧
       s.frm.wf = true ∧ BothModes s ∧ BothModesMac (waitingMac s)) := by decide

/-- With a frame of exactly `CFG_M` bytes, and contents of the full size of `OUTBUF`. -/
theorem witness_EveryOutcomeOfATaintedFrameIsPossible :
    (let s := hearing [0xC0] (inFrame [0x41] { b4 with taint := true })
     s.rx.headD none = some (s.codec R).delim ∧ s.sync = true ∧ 0 < s.len ∧ s.taint = true ∧ s.outbuf.wf = true ∧
       resolveBlk 0b00#2 s = some .nb ∧ (bytes [1, 2, 3, 4]).length ≤ s.cfgM.toNat) ∧
    (List.replicate 300 0x42#8).length = frameSize R := by
  refine ⟨by decide, ?_⟩
  exact List.length_replicate.trans rfl

/-- `BLK = 00`, and `BLK = 10` with the default non-blocking. -/
theorem witness_NonBlockingReceivePollsOnce :
    0b00#2 = 0b00#2 ∧ (0b10#2 = 0b10#2 ∧ b4.cfgDefblk.bit = 0#1) := by decide

theorem witness_BlockingReceiveReadsItsStartTimeAtEntry :
    (0b10#2 = 0b10#2 ∧ ({ b4 with cfgDefblk := .bl } : State).cfgDefblk.bit = 1#1) := by decide

/-- One more than `T`, in each place of a deadline check; and exactly `T` at the top of a MAC iteration. -/
theorem witness_DeadlineCheckEndsTheReceiveWhenExpired :
    (let s := { waiting b4 with ticks := [101] }
     s.resetAsserted = false ∧ (100#32).toNat < s.elapsedNext R 1000 ∧ s.run = .phyRecv 100#32 1000) ∧
    (let s := { b4 with run := .macTop 100#32 1000, ticks := [101] }
     s.resetAsserted = false ∧ (100#32).toNat < s.elapsedNext R 1000 ∧ s.run = .macTop 100#32 1000) ∧
    (let s := { waitingMac b4 with ticks := [101] }
     s.resetAsserted = false ∧ (100#32).toNat < s.elapsedNext R 1000 ∧ s.run = .macPhy 100#32 1000) ∧
    (let s := { b4 with run := .macTop 100#32 1000, ticks := [100] }
     s.resetAsserted = false ∧ s.elapsedNext R 1000 ≤ (100#32).toNat ∧ s.run = .macTop 100#32 1000) := by decide

theorem witness_NoTimeoutBeforeTheDeadline :
    (let s := { waiting b4 with ticks := [101] }
     let t := receiveRound R s.sampled
     s.resetAsserted = false ∧ 1000 ≤ s.clock ∧ s.run = .phyRecv 100#32 (1000 % 2 ^ R.clkW) ∧ t.run = .idle ∧
       t.rstat = .timeout) ∧
    stepWith R { waiting b4 with ticks := [101] } = .next (receiveRound R (State.sampled { waiting b4 with ticks := [101] })) :=
  ⟨by decide, rfl⟩

/-- `T = 2^32 - 1`, and the byte that ends the receive, of PHY_RECV and of MAC_RECV. -/
theorem witness_LongestTimeoutNeverExpires :
    (let s := { hearing [0xC0] (inFrame [0x41] b4) with run := .phyRecv 0xFFFFFFFF#32 1000 }
     s.resetAsserted = false ∧ s.run = .phyRecv 0xFFFFFFFF#32 1000 ∧ 2 ^ R.clkW - 1 ≤ (0xFFFFFFFF#32).toNat ∧
       (receiveRound R s.sampled).run = .idle) ∧
    (let s := { hearing [0xC0] (inFrame [0x02, 0x01] b8) with run := .macPhy 0xFFFFFFFF#32 1000 }
     s.resetAsserted = false ∧ (receiveRound R s.sampled).run = .idle) := by decide

theorem witness_BlockingReceiveEndsOnceTheClockPassesTheDeadline :
    (let s := { b4 with run := .macTop 100#32 1000, ticks := [0, 100, 1], resetIn := [.released] }
     (∀ level ∈ s.resetIn.take 3, level = .released) ∧
       ((100#32).toNat : Int) < (((s.clock + (s.ticks.take 3).sum : Nat) : Int) - 1000) % 2 ^ R.clkW) := by decide

/-- V2.2-13 and V2.4-1, from their second event on. -/
theorem witness_BlockingReceivesFollowThePseudocode :
    (phyReceiveLoop R .outbuf 100#32 1000 4 (waiting (hearing [0xC0, 0x41, 0x42, 0xC0] b4))).isSome = true ∧
    (waiting (hearing [0xC0, 0x41, 0x42, 0xC0] b4)).resetIn = [] ∧
    (macReceiveLoop R 100#32 1000 6 1
      { hearing [0xC0, 0x02, 0x01, 0x48, 0x49, 0xC0] b8 with run := .macTop 100#32 1000 }).isSome = true := by decide

theorem witness_MacSendRefusesPayloadLongerThanM : b8.cfgM.toNat < (9#16).toNat := by decide

/-- V2.3-5: `SIZE = CFG_M`. -/
theorem witness_MacSendTransmitsHeaderAndPayload :
    (let s := holding [0x41, 0x42, 0x43, 0x44, 0x45, 0x46, 0x47, 0x48] b8
     let e := (s.codec R).enc ([0x03#8, s.cfgSelf] ++ s.inbuf.readBytes 0 8)
     (8#16).toNat ≤ s.cfgM.toNat ∧ 0 < e.length ∧ e.length ≤ s.cap) := by decide

/-- A codec that meets R8 and encodes every body to more than 24 bytes. -/
def longCodec : Codec where
  delim := 0xC0#8
  enc p := List.replicate 25 0x01#8 ++ slipEnc p
  dec x := slipDec (x.drop 25)
  delim_free p := by
    have := slipEnc_delim_free p
    simp [this]
  round_trip p := by
    rw [List.drop_left' (by simp)]
    exact slipDec_enc p

/-- A codec that meets R8 and encodes the body `03 02` to nothing. -/
def emptyCodec : Codec where
  delim := 0xC0#8
  enc p := if p = [0x03#8, 0x02#8] then [] else if p = [] then [0x03#8, 0x02#8] else slipEnc p
  dec x := if x = [] then [0x03#8, 0x02#8] else if x = [0x03#8, 0x02#8] then [] else slipDec x
  delim_free p := by
    have := slipEnc_delim_free p
    split
    · simp
    · split
      · decide
      · exact this
  round_trip p := by
    have h := slipDec_enc p
    by_cases h1 : p = [0x03#8, 0x02#8]
    · simp [h1]
    · by_cases h2 : p = []
      · simp [h2]
      · have h3 : slipEnc p ≠ [] := by
          intro e
          rw [e] at h
          exact h2 h.symm
        have h4 : slipEnc p ≠ [0x03#8, 0x02#8] := by
          intro e
          rw [e] at h
          exact h1 h.symm
        simp only [h1, h2, h3, h4, if_false]
        exact h

theorem witness_MacSendReportsWriteError :
    (let s := holding [0xAA] b8
     (1#16).toNat ≤ s.cfgM.toNat ∧
       s.cap < ((s.codec { R with codecB := longCodec }).enc ([0x03#8, s.cfgSelf] ++ s.inbuf.readBytes 0 1)).length) ∧
    (0#16).toNat ≤ b8.cfgM.toNat ∧
      [] = (b8.codec { R with codecB := emptyCodec }).enc ([0x03#8, b8.cfgSelf] ++ b8.inbuf.readBytes 0 0) := by decide

/-- V2.4-10: a body of exactly `CFG_M` bytes for this node; and one for all nodes from node `0xFF`. -/
theorem witness_MacReceiveDeliversFrameForThisNode :
    (let s := waitingMac (hearing [0xC0] (inFrame [0x02, 0x01, 0x41, 0x42, 0x43, 0x44, 0x45, 0x46] b8))
     s.rx.headD none = some (s.codec R).delim ∧ s.sync = true ∧ 0 < s.len ∧ s.taint = false ∧
       (s.codec R).dec (s.acc.readBytes 0 s.len) =
         0x02#8 :: 0x01#8 :: bytes [0x41, 0x42, 0x43, 0x44, 0x45, 0x46] ∧
       (bytes [0x41, 0x42, 0x43, 0x44, 0x45, 0x46]).length + 2 ≤ s.cfgM.toNat ∧ 0x02#8 = s.cfgSelf ∧
       s.outbuf.wf = true ∧ s.frm.wf = true ∧ BothModesMac s) ∧
    (let s := waitingMac (hearing [0xC0] (inFrame [0xFF, 0xFF] b8))
     (s.codec R).dec (s.acc.readBytes 0 s.len) = 0xFF#8 :: 0xFF#8 :: [] ∧ ([] : Bytes).length + 2 ≤ s.cfgM.toNat ∧
       BothModesMac s) := by decide

/-- V2.4-3 and V2.4-8: a frame for node 3, and a frame of one byte. -/
theorem witness_MacReceiveDropsForeignAndRuntFrames :
    (let s := waitingMac (hearing [0xC0] (inFrame [0x03, 0x01, 0xAA] b8))
     s.rx.headD none = some (s.codec R).delim ∧ s.sync = true ∧ 0 < s.len ∧ s.taint = false ∧
       (s.codec R).dec (s.acc.readBytes 0 s.len) = 0x03#8 :: bytes [0x01, 0xAA] ∧
       (bytes [0x01, 0xAA]).length + 1 ≤ s.cfgM.toNat ∧ 0x03#8 ≠ s.cfgSelf ∧ 0x03#8 ≠ 0xFF#8 ∧ s.frm.wf = true ∧
       BothModesMac s) ∧
    (let s := waitingMac (hearing [0xC0] (inFrame [0x02] b8))
     (s.codec R).dec (s.acc.readBytes 0 s.len) = 0x02#8 :: [] ∧ ([] : Bytes).length + 1 ≤ s.cfgM.toNat ∧ BothModesMac s) := by
  decide

/-- V2.4-13: no byte. -/
theorem witness_MacPollIsAPhyPollThatReportsReadError :
    resolveBlk 0b00#2 b8 = some .nb ∧ (command R (.phyRecv 0b00#2 true) b8).ret.toInt ≤ 0 := by decide

/-- An overflow, a frame of `CFG_M + 1` bytes (V2.4-11), and a zero-length frame (V2.4-15). -/
theorem witness_BlockingMacReceiveSurfacesPhyFailures :
    (let s := waitingMac (hearing [0x41] (inFrame (List.replicate 24 0x41) b8))
     BothModesMac s ∧ s.rx.headD none = some 0x41#8 ∧ 0x41#8 ≠ (s.codec R).delim ∧ s.sync = true ∧ s.cap ≤ s.len) ∧
    (let s := waitingMac (hearing [0xC0] (inFrame [0x02, 0x01, 0x41, 0x42, 0x43, 0x44, 0x45, 0x46, 0x47] b8))
     BothModesMac s ∧ s.rx.headD none = some (s.codec R).delim ∧ s.sync = true ∧ 0 < s.len ∧ s.taint = false ∧
       s.cfgM.toNat < ((s.codec R).dec (s.acc.readBytes 0 s.len)).length) ∧
    (let s := waitingMac (hearing [0xC0] (inFrame [0xDB] b8))
     BothModesMac s ∧ s.rx.headD none = some (s.codec R).delim ∧ s.sync = true ∧ 0 < s.len ∧ s.taint = false ∧
       (s.codec R).dec (s.acc.readBytes 0 s.len) = []) := by decide

/-- A drop and a failure in non-blocking mode; going on, and a failure, in blocking mode. -/
theorem witness_MacReceiveWritesOutputOnlyOnAcceptance :
    (command R (.macRecv 0b00#2 true) (hearing [0xC0] (inFrame [0x03, 0x01] b8))).rstat = .noData ∧
    (command R (.macRecv 0b00#2 true) b8).rstat = .readError ∧
    (receiveRound R (waitingMac b8).sampled).run ≠ .idle ∧
    (receiveRound R (State.sampled { waitingMac b8 with ticks := [101] })).rstat = .timeout := by decide

/-- Every command ends at once in some state; and a blocking receive in progress ends. -/
theorem witness_ResultStatusIsTheLayersStatus :
    (command R (.init 0#8 0#8 .B .nb) b4).run = .idle ∧ (command R (.phySend 0#16) b4).run = .idle ∧
    (command R (.phyRecv 0b00#2 true) b4).run = .idle ∧ (command R (.macSend 3#8 0#16) b8).run = .idle ∧
    (command R (.macRecv 0b00#2 true) b8).run = .idle ∧
    (receiveRound R (State.sampled { waiting b4 with ticks := [101] })).run = .idle ∧
    (receiveRound R (State.sampled { waitingMac b4 with ticks := [101] })).run = .idle := by decide

/-- One command that succeeds and one that fails. -/
theorem witness_SignOfTheReturnValueTellsFailure :
    Presented 0x32000000#32 (given 0x32000000#32 0#32 0#32 b4) ∧
    (command R (.phyRecv 0b00#2 true) b4).ret = 0#32 ∧
    (command R (.phyRecv 0b00#2 true) (hearing [0x41] b4)).ret = 0xFFFFFFFF#32 := by decide

/-- A PHY_SEND, a PHY_RECV, and a round of a blocking PHY_RECV. -/
theorem witness_PhyCommandsLeaveTheMacLayerAlone :
    (∃ size, Instr.phySend 0#16 = .phySend size) ∧ (∃ blk tdef, Instr.phyRecv 0b01#2 true = .phyRecv blk tdef) ∧
    (waiting b4).resetAsserted = false ∧ (waiting b4).run = .phyRecv 100#32 1000 :=
  ⟨⟨_, rfl⟩, ⟨_, _, rfl⟩, rfl, rfl⟩

theorem witness_OnlySendsUseTheTransmitInterface :
    (∃ e ∈ (command R (.phySend 0#16) b4).trace, e.isTransmit = true) := by decide

/-- A step of a blocking receive that polls. -/
theorem witness_ReceivedBytesAreConsumedOnceInOrder : ∃ t, stepWith R (waiting b4) = .next t := stepWith_next _ _

/-- The invariant, and the one on the status registers, hold of a state that a run reaches: inside a frame. -/
theorem witness_EveryStepKeepsTheInvariant : Inv R (inFrame [0x41, 0x42] b4) :=
  ⟨⟨by decide, by decide, by decide⟩, by decide, ⟨by decide, by decide⟩, ⟨by decide, by decide⟩, ⟨by decide, by decide⟩,
    ⟨by decide, by decide⟩, by decide, by decide⟩

theorem witness_EveryStepKeepsTheStatusesProducible :
    StatusInv { b4 with phySt := .errorData, macSt := .readErrorSourceSelf, rstat := .unknownError } :=
  ⟨by decide, by decide, by decide⟩

/-- Two states that differ in `ACC[2]`, past `LEN = 2`, and in `FRM`. -/
theorem witness_DeadBytesAreNeverRead :
    SameButDeadBytes (inFrame [0x41, 0x42] b4) { inFrame [0x41, 0x42, 0x43] b4 with len := 2, frm := [(0, 7#8)] } ∧
    (inFrame [0x41, 0x42] b4).acc.wf = true ∧ (inFrame [0x41, 0x42, 0x43] b4).acc.wf = true ∧
    Memory.wf [(0, 7#8)] = true := by
  refine ⟨⟨rfl, ?_⟩, by decide, by decide, by decide⟩
  intro i hi
  change i < 2 at hi
  interval_cases i <;> rfl

theorem witness_AccumulatorHoldsExactlyCapBytes :
    (let s := { hearing (List.replicate 17 0x41) (inFrame [] b4) with run := .phyRecv 100#32 1000 }
     s.resetIn = [] ∧ s.ticks = [] ∧ s.elapsedNext R 1000 ≤ (100#32).toNat ∧ s.acc.wf = true ∧ s.sync = true ∧
       s.len = 0 ∧ (List.replicate 16 0x41#8).length = s.cap ∧
       (∀ x ∈ List.replicate 16 0x41#8, x ≠ (s.codec R).delim) ∧ 0x41#8 ≠ (s.codec R).delim ∧
       s.rx = (List.replicate 16 0x41#8).map some ++ some 0x41#8 :: []) := by decide

theorem witness_BytesBeforeADelimiterAreDropped :
    (let s := { hearing [0x41, 0x42, 0xC0, 0x43] b4 with run := .phyRecv 100#32 1000 }
     s.resetIn = [] ∧ s.ticks = [] ∧ s.elapsedNext R 1000 ≤ (100#32).toNat ∧ s.sync = false ∧
       (∀ x ∈ bytes [0x41, 0x42], x ≠ (s.codec R).delim) ∧
       s.rx = (bytes [0x41, 0x42]).map some ++ some (s.codec R).delim :: [some 0x43#8]) := by decide

/-- P-a of 95_test_vectors.md section 1.3, in both modes: a payload of exactly `CFG_M` bytes with both escapes. -/
theorem witness_PhyFrameRoundTrip :
    (let s := holding [0x01, 0xC0, 0xDB, 0x02] b4
     let e := (s.codec R).enc (s.inbuf.readBytes 0 4)
     let r := hearing [0xC0, 0x01, 0xDB, 0xDC, 0xDB, 0xDD, 0x02, 0xC0] b4
     (4#16).toNat ≤ s.cfgM.toNat ∧ e.length ≤ s.cap ∧ 0 < e.length ∧ r.scheme = s.scheme ∧ r.cfgM = s.cfgM ∧
       r.run = .idle ∧ r.len = 0 ∧ r.resetIn = [] ∧ r.acc.wf = true ∧ r.outbuf.wf = true ∧
       (command R (.phySend 4#16) s).trace = s.trace ++ (frameEvents R s e ++ [.finish 6 .noError]) ∧
       r.rx = (sentBytes (frameEvents R s e)).map some ++ [] ∧ r.ticks.tail.sum ≤ r.cfgDeftmo.toNat) := by decide

/-- V2.3-5 with V2.4-10 and V2.4-11: the largest payload that round trips, and one byte more. -/
theorem witness_MacFrameRoundTripAndItsLimit :
    (let s := { holding [0x41, 0x42, 0x43, 0x44, 0x45, 0x46, 0x47] b8 with cfgSelf := 1#8 }
     let e := (s.codec R).enc ([0x02#8, s.cfgSelf] ++ s.inbuf.readBytes 0 7)
     let r := hearing [0xC0, 0x02, 0x01, 0x41, 0x42, 0x43, 0x44, 0x45, 0x46, 0x47, 0xC0]
       (given 0x56000000#32 0#32 0#32 b8)
     (7#16).toNat ≤ s.cfgM.toNat ∧ e.length ≤ s.cap ∧ 0 < e.length ∧ r.scheme = s.scheme ∧ r.cfgM = s.cfgM ∧
       r.run = .idle ∧ r.len = 0 ∧ r.resetIn = [] ∧ r.acc.wf = true ∧ r.outbuf.wf = true ∧ r.frm.wf = true ∧
       0x02#8 = r.cfgSelf ∧ r.host = .command 0x56000000#32 0#32 0#32 :: [] ∧
       r.ticks.tail.sum ≤ r.cfgDeftmo.toNat ∧ r.rx = (sentBytes (frameEvents R s e)).map some ++ [] ∧
       (6#16).toNat + 2 ≤ s.cfgM.toNat ∧ s.cfgM.toNat < (7#16).toNat + 2) := by decide

end Sys2Proof.Tests
end

section
/-! SUPPORT. The result of a command (00_scope.md R13, 60_exceptions.md R217): whatever ends a command ends it through
`finish`, with a result whose sign tells whether the status is a failure. -/
namespace Sys2Proof.Machine

/-! ## Results whose sign tells failure -/

/-- A result as R13 and R217 allow it: a success with a non-negative value that fits the result port, 0 for `NoData`; or a
failure with `-1`. -/
inductive ResultOk : Int → Status → Prop where
  | success {r : Int} {st : Status} (hst : st.isSuccess = true) (h0 : 0 ≤ r) (hlt : r < 2 ^ 31)
      (hnd : st = .noData → r = 0) : ResultOk r st
  | failure {st : Status} (hst : st.isSuccess = false) : ResultOk (-1) st

theorem ResultOk.lt {r : Int} {st : Status} (h : ResultOk r st) : r < 2 ^ 31 := by
  cases h with
  | success _ _ hlt _ => exact hlt
  | failure _ => decide

/-- The result port shows an allowed result as the integer it is (R10, R36). -/
theorem ResultOk.toInt_ofInt {r : Int} {st : Status} (h : ResultOk r st) : (BitVec.ofInt 32 r).toInt = r := by
  cases h with
  | success _ h0 hlt _ => exact BitVec.toInt_ofInt_eq_self (by decide) (by omega) hlt
  | failure _ => rfl

theorem ResultOk.failure_of_neg {r : Int} {st : Status} (h : ResultOk r st) (hr : r < 0) : ResultOk (-1) st := by
  cases h with
  | success _ h0 _ _ => omega
  | failure hst => exact .failure hst

/-- A length with `NoError` is an allowed result. -/
theorem ResultOk.length {n : Nat} (h : n < 2 ^ 31) : ResultOk n .noError :=
  .success rfl (by omega) (by omega) nofun

theorem Status.isSuccess_iff_mem (st : Status) :
    st.isSuccess = true ↔ st ∈ [.noError, .noData, .readErrorSourceBroadcast, .readErrorSourceSelf] := by
  cases st <;> decide

/-- An accepted frame's status is a success, and never `NoData` (R187). -/
theorem ResultOk.source {n : Nat} (self src : Byte) (h : n < 2 ^ 31) : ResultOk n (sourceStatus self src) := by
  have hmem := sourceStatus_mem self src
  simp only [List.mem_cons, List.not_mem_nil, or_false] at hmem
  rcases hmem with e | e | e <;> rw [e] <;> exact .success rfl (by omega) (by omega) nofun

/-! ## The outcomes of the PhyFramer -/

theorem phyPoll_frame_lt {C : Config} {d : Dest} {s : State} {n : Nat} (h : (phyPoll C d s).1 = .frame n) :
    n < 2 ^ 31 := by
  have hle : n ≤ s.cfgM.toNat := phyPoll_frame_length h
  have := s.cfgM.isLt
  omega

theorem phyPoll_nonBlocking_resultOk (C : Config) (d : Dest) (s : State) :
    ResultOk (phyPoll C d s).1.nonBlocking.1 (phyPoll C d s).1.nonBlocking.2 := by
  cases h : (phyPoll C d s).1 with
  | noByte => exact .success rfl (by decide) (by decide) fun _ => rfl
  | startOfFrame => exact .length (n := 0) (by decide)
  | resync => exact .length (n := 0) (by decide)
  | accumulate => exact .length (n := 0) (by decide)
  | noise => exact .failure rfl
  | overflow => exact .failure rfl
  | frame n => exact .length (phyPoll_frame_lt h)
  | tooLong => exact .failure rfl

theorem phyPoll_blocking_resultOk {C : Config} {d : Dest} {s : State} {out : Int × Status}
    (h : (phyPoll C d s).1.blocking = some out) : ResultOk out.1 out.2 := by
  obtain rfl | ⟨n, hn, rfl⟩ := PollCase.blocking_status h
  · exact .failure rfl
  · exact .length (phyPoll_frame_lt hn)

/-! ## What the PhyFramer leaves of the trace and of the receive in progress -/

theorem phyPoll_trace_prefix (C : Config) (d : Dest) (s : State) : s.trace <+: (phyPoll C d s).2.trace := by
  obtain ⟨ds, e, _⟩ := phyPoll_trace C d s
  exact ⟨_, e.symm⟩

theorem phyPoll_run (C : Config) (d : Dest) (s : State) : (phyPoll C d s).2.run = s.run := by
  rw [phyPoll_frame]; rfl

theorem phyTransmit_trace_prefix (C : Config) (e : Bytes) (s : State) : s.trace <+: (phyTransmit C e s).trace := by
  rw [phyTransmit_eq]
  exact List.prefix_append _ _

theorem phySend_trace_prefix (C : Config) (p : Bytes) (s : State) : s.trace <+: (phySend C p s).2.trace := by
  obtain ⟨_, e⟩ | ⟨_, e⟩ := phySend_cases C p s
  · simp only [e, List.prefix_refl]
  · rw [e]
    exact phyTransmit_trace_prefix C _ s

/-- A round of `phy_receive` ends it with an allowed result, or leaves the receive in progress (R152, R153). -/
theorem phyReceiveRound_result (C : Config) (d : Dest) (tmo : Word) (t0 : Nat) (s : State) :
    (∃ r st u, phyReceiveRound C d tmo t0 s.sampled = (some (r, st), u) ∧ ResultOk r st ∧ s.trace <+: u.trace) ∨
    (∃ u, phyReceiveRound C d tmo t0 s.sampled = (none, u) ∧ u.run = s.run) := by
  have hchecked : s.trace <+: (s.checked C).trace := List.prefix_append _ _
  obtain ⟨_, e⟩ | ⟨_, out, ho, e⟩ | ⟨_, _, e⟩ := phyReceiveRound_cases C d tmo t0 s
  · exact .inl ⟨_, _, _, e, .failure rfl, hchecked⟩
  · exact .inl ⟨_, _, _, e, phyPoll_blocking_resultOk ho, hchecked.trans (phyPoll_trace_prefix C d _)⟩
  · exact .inr ⟨_, e, phyPoll_run C d _⟩

/-! ## The end of a command -/

/-- `t` comes from `s` by events of which the last is the end of a command with an allowed result (R12, R13). -/
def EndsCommand (s t : State) : Prop :=
  ∃ r st u, t = finish r st u ∧ s.trace <+: u.trace ∧ ResultOk r st

theorem EndsCommand.finish {r : Int} {st : Status} {s u : State} (ht : s.trace <+: u.trace) (hr : ResultOk r st) :
    EndsCommand s (finish r st u) := ⟨r, st, u, rfl, ht, hr⟩

theorem EndsCommand.macFinish {r : Int} {st : Status} {s u : State} (ht : s.trace <+: u.trace) (hr : ResultOk r st) :
    EndsCommand s (macFinish r st u) := .finish (u := { u with macSt := st }) ht hr

theorem EndsCommand.illegal (s : State) : EndsCommand s (illegal s) := .finish (List.prefix_refl _) (.failure rfl)

theorem EndsCommand.macAccept {s u : State} {r : Int} (ht : s.trace <+: u.trace) (hr : r < 2 ^ 31) :
    EndsCommand s (macAccept r.toNat u) := .macFinish ht (.source _ _ (by omega))

/-! ## Commands -/

theorem initCommand_endsCommand (C : Config) (self dirid : Byte) (schreq : Scheme) (defblk : Mode) (s : State) :
    EndsCommand s (initCommand C self dirid schreq defblk s) := by
  unfold initCommand
  split
  · exact .illegal s
  · exact .finish (List.prefix_append _ _) (.length (n := 0) (by decide))

theorem phySendCommand_endsCommand (C : Config) (size : BitVec 16) (s : State) :
    EndsCommand s (phySendCommand C size s) := by
  have hcap := cap_lt s
  obtain ⟨_, e⟩ | ⟨_, hle, e⟩ := phySendCommand_cases C size s <;> rw [e]
  · exact .finish (List.prefix_refl _) (.failure rfl)
  · exact .finish (phyTransmit_trace_prefix C _ s) (.length (by omega))

theorem macSendCommand_endsCommand (C : Config) (dst : Byte) (size : BitVec 16) (s : State) :
    EndsCommand s (macSendCommand C dst size s) := by
  have hsize := size.isLt
  have hsend := phySend_trace_prefix C (macBody dst size s) s
  obtain ⟨_, e⟩ | ⟨_, _, e⟩ | ⟨_, _, e⟩ := macSendCommand_cases C dst size s <;> rw [e]
  · exact .macFinish (List.prefix_refl _) (.failure rfl)
  · exact .macFinish hsend (.failure rfl)
  · exact .macFinish hsend (.length (by omega))

theorem macOutcomeNb_endsCommand {s u : State} {r : Int} (ht : s.trace <+: u.trace) (hr : r < 2 ^ 31) :
    EndsCommand s (macOutcomeNb r u) := by
  obtain ⟨_, e⟩ | ⟨_, _, e⟩ | ⟨_, _, e⟩ := macOutcomeNb_cases r u <;> rw [e]
  · exact .macFinish ht (.failure rfl)
  · exact .macAccept ht hr
  · exact .macFinish ht (.success rfl (by decide) (by decide) fun _ => rfl)

/-- A PHY_RECV that leaves the block idle has ended: a blocking one enters its loop (R150, R153). -/
theorem phyRecvCommand_endsCommand {C : Config} {blk : BitVec 2} {tdef : Bool} {s : State}
    (h : (phyRecvCommand C blk tdef s).run = .idle) : EndsCommand s (phyRecvCommand C blk tdef s) := by
  cases hb : resolveBlk blk s with
  | none =>
    simp only [phyRecvCommand, hb]
    exact .illegal s
  | some m =>
    cases m with
    | nb =>
      rw [phyRecvCommand_nb hb]
      exact .finish (phyPoll_trace_prefix C _ s) (phyPoll_nonBlocking_resultOk C _ s)
    | bl =>
      simp only [phyRecvCommand, hb, reduceCtorEq] at h

/-- A MAC_RECV that leaves the block idle has ended: a blocking one enters its loop (R183, R189). -/
theorem macRecvCommand_endsCommand {C : Config} {blk : BitVec 2} {tdef : Bool} {s : State}
    (h : (macRecvCommand C blk tdef s).run = .idle) : EndsCommand s (macRecvCommand C blk tdef s) := by
  cases hb : resolveBlk blk s with
  | none =>
    simp only [macRecvCommand, hb]
    exact .illegal s
  | some m =>
    cases m with
    | nb =>
      rw [macRecvCommand_nb hb]
      exact macOutcomeNb_endsCommand (phyPoll_trace_prefix C _ s) (phyPoll_nonBlocking_resultOk C _ s).lt
    | bl =>
      simp only [macRecvCommand, hb, reduceCtorEq] at h

theorem command_endsCommand {C : Config} {i : Instr} {s : State} (h : (command C i s).run = .idle) :
    EndsCommand s (command C i s) := by
  cases i with
  | init self dirid schreq defblk => exact initCommand_endsCommand C self dirid schreq defblk s
  | phySend size => exact phySendCommand_endsCommand C size s
  | phyRecv blk tdef => exact phyRecvCommand_endsCommand h
  | macSend dst size => exact macSendCommand_endsCommand C dst size s
  | macRecv blk tdef => exact macRecvCommand_endsCommand h

/-! ## Rounds of a blocking receive -/

theorem phyRecvRound_endsCommand {C : Config} {tmo : Word} {t0 : Nat} {s : State} (hs : s.run ≠ .idle)
    (h : (phyRecvRound C tmo t0 s.sampled).run = .idle) : EndsCommand s (phyRecvRound C tmo t0 s.sampled) := by
  obtain ⟨r, st, u, e, hr, ht⟩ | ⟨u, e, hu⟩ := phyReceiveRound_result C .outbuf tmo t0 s <;>
    simp only [phyRecvRound, e] at h ⊢
  · exact .finish ht hr
  · exact absurd (hu.symm.trans h) hs

theorem macTopRound_endsCommand {C : Config} {tmo : Word} {t0 : Nat} {s : State}
    (h : (macTopRound C tmo t0 s).run = .idle) : EndsCommand s (macTopRound C tmo t0 s) := by
  simp only [macTopRound] at h ⊢
  split at h
  next he =>
    rw [if_pos he]
    exact .macFinish (List.prefix_append _ _) (.failure rfl)
  next => cases h

theorem macOutcomeBl_endsCommand {s again u : State} {r : Int} {st : Status} (ht : s.trace <+: u.trace)
    (hr : ResultOk r st) (hagain : again.run ≠ .idle) (h : (macOutcomeBl again r st u).run = .idle) :
    EndsCommand s (macOutcomeBl again r st u) := by
  obtain ⟨hneg, e⟩ | ⟨_, _, e⟩ | ⟨_, e⟩ := macOutcomeBl_cases again r st u <;> rw [e] at h ⊢
  · exact .macFinish ht (hr.failure_of_neg hneg)
  · exact .macAccept ht hr.lt
  · exact absurd h hagain

theorem macPhyRound_endsCommand {C : Config} {tmo : Word} {t0 : Nat} {s : State} (hs : s.run ≠ .idle)
    (h : (macPhyRound C tmo t0 s.sampled).run = .idle) : EndsCommand s (macPhyRound C tmo t0 s.sampled) := by
  obtain ⟨r, st, u, e, hr, ht⟩ | ⟨u, e, hu⟩ := phyReceiveRound_result C .frm tmo t0 s <;>
    simp only [macPhyRound, e] at h ⊢
  · exact macOutcomeBl_endsCommand ht hr nofun h
  · exact absurd (hu.symm.trans h) hs

/-! ## Steps -/

/-- A step that leaves the block idle, and in which a command was in progress or presented, ends that command. -/
theorem stepWith_endsCommand {C : Config} {s t : State} (hreset : s.resetAsserted = false)
    (hstep : stepWith C s = .next t) (hidle : t.run = .idle)
    (hcmd : s.run ≠ .idle ∨ ∃ cmd arg0 arg1 rest, s.host = .command cmd arg0 arg1 :: rest) : EndsCommand s t := by
  rw [stepWith_unreset hreset] at hstep
  obtain ⟨hr, hh, rfl⟩ | ⟨hr, _, _, hh, rfl⟩ | ⟨_, cmd, a0, a1, rest, i, _, _, rfl⟩ |
    ⟨_, cmd, a0, a1, rest, _, _, _, rfl⟩ | ⟨tmo, t0, hr, rfl⟩ | ⟨tmo, t0, _, rfl⟩ | ⟨tmo, t0, hr, rfl⟩ :=
    unresetStep_cases hstep
  · rw [sampled_run] at hr
    rw [sampled_host] at hh
    simp [hr, hh] at hcmd
  · rw [sampled_run] at hr
    rw [sampled_host] at hh
    simp [hr, hh] at hcmd
  · exact command_endsCommand hidle
  · exact EndsCommand.illegal (latch cmd a0 a1 { s.sampled with host := rest })
  · exact phyRecvRound_endsCommand (by rw [← sampled_run, hr]; nofun) hidle
  · exact macTopRound_endsCommand hidle
  · exact macPhyRound_endsCommand (by rw [← sampled_run, hr]; nofun) hidle

/-- Settles O49: every end of a command is a `finish` with an allowed result, which the result port shows unchanged. -/
theorem signOfTheReturnValueTellsFailure : Obligations.SignOfTheReturnValueTellsFailure := by
  unfold Obligations.SignOfTheReturnValueTellsFailure
  intro C s t hreset hstep hidle hcmd
  obtain ⟨r, st, u, rfl, ⟨es, hes⟩, hr⟩ := stepWith_endsCommand hreset hstep hidle hcmd
  have hret : (finish r st u).ret.toInt = r := hr.toInt_ofInt
  rw [hret, finish_rstat, ← Status.isSuccess_iff_mem]
  refine ⟨⟨es, by rw [hes, finish_trace]⟩, ?_⟩
  cases hr with
  | success hst h0 _ hnd => exact .inl ⟨hst, h0, fun h => by rw [finish_ret, hnd h]; rfl⟩
  | failure hst => exact .inr ⟨by simp [hst], rfl⟩

end Sys2Proof.Machine
end

section
/-! SUPPORT. The invariant of 10_state.md R56 and 20_memory.md R71 is inductive: each operation of the block keeps it, from
the buffers and the accumulation state up to a whole step. -/
namespace Sys2Proof.Machine

section
variable {C : Config} {s t : State}

/-! ## What the invariant reads -/

/-- The registers the invariant speaks of; `CFG_SCHEME_REQ` is among them because `CAP` depends on it (R46, R47). -/
def State.invariantPart (s : State) :
    BitVec 16 × Scheme × Bool × Nat × Bool × Memory × Memory × Memory × Memory × Memory × Dir :=
  (s.cfgM, s.cfgSchemeReq, s.sync, s.len, s.taint, s.acc, s.inbuf, s.frm, s.outbuf, s.txScratch, s.dir)

/-- An operation that touches no register the invariant speaks of keeps it. -/
theorem Inv.of_invariantPart_eq (h : Inv C s) (e : t.invariantPart = s.invariantPart := by rfl) :
    Inv C t := by
  obtain ⟨⟨hlen, hsync, htaint⟩, hm, hacc, hin, hfrm, hout, htx, hdir⟩ := h
  simp only [State.invariantPart, Prod.mk.injEq] at e
  obtain ⟨e1, e2, e3, e4, e5, e6, e7, e8, e9, e10, e11⟩ := e
  rw [State.cap, State.scheme, ← e1, ← e2, ← e4] at hlen
  exact ⟨⟨hlen, by rwa [e3, e4], by rwa [e3, e5]⟩, by rwa [e1], by rwa [e6], by rwa [e7], by rwa [e8], by rwa [e9],
    by rwa [e10], by rwa [e11]⟩

/-- A legal `CFG_M` keeps every frame the PhyFramer delivers inside its buffer (R41, R48, R71). -/
theorem Inv.phyRxMax_le (h : Inv C s) : s.phyRxMax ≤ frameSize C := h.cfgM_le

/-! ## The end of a command -/

theorem finish_inv (h : Inv C s) (r : Int) (st : Status) : Inv C (finish r st s) := h.of_invariantPart_eq

theorem macFinish_inv (h : Inv C s) (r : Int) (st : Status) : Inv C (macFinish r st s) := h.of_invariantPart_eq

theorem illegal_inv (h : Inv C s) : Inv C (illegal s) := h.of_invariantPart_eq

/-! ## The host's side -/

theorem hostWrite_inv (h : Inv C s) (bytes : Bytes) : Inv C (hostWrite C bytes s) := by
  obtain ⟨hlen, hsync, htaint⟩ := h.accumulation
  exact { h with
    accumulation := ⟨hlen, hsync, htaint⟩
    inbuf := h.inbuf.writeBytes (by simp) }

/-! ## INIT and reset -/

/-- Clearing the dynamic state gives the invariant back, whatever the accumulation state and the buffers held (R202). -/
theorem clearDynamic_inv (hm : s.cfgM.toNat ≤ C.maxpMax) (hin : ArrayInv (rawSize C) s.inbuf) (hdir : s.dir = .rx) :
    Inv C (clearDynamic C s) where
  accumulation := ⟨Nat.zero_le _, nofun, nofun⟩
  cfgM_le := hm
  acc := drawnArray_inv C _ _
  inbuf := hin
  frm := drawnArray_inv C _ _
  outbuf := drawnArray_inv C _ _
  txScratch := rfl
  dir := hdir

theorem emitBufferDraws_inv (h : Inv C s) : Inv C (emitBufferDraws s) := h.of_invariantPart_eq

/-- Reset needs nothing of the state it finds but the host's buffer, which it leaves alone (R245). -/
theorem resetBlock_inv (hin : ArrayInv (rawSize C) s.inbuf) : Inv C (resetBlock C s) :=
  clearDynamic_inv C.maxpMax_ge hin rfl

/-- INIT's value check makes the new `CFG_M` legal; the 16 bits of the register lose nothing of it (R41, R203). -/
theorem initCommand_inv (h : Inv C s) (self dirid : Byte) (schreq : Scheme) (defblk : Mode) :
    Inv C (initCommand C self dirid schreq defblk s) := by
  unfold initCommand
  split
  · exact illegal_inv h
  next harg =>
    have hm : (s.arg0.setWidth 16).toNat ≤ C.maxpMax := by
      rw [BitVec.toNat_setWidth]
      exact (Nat.mod_le _ _).trans (Nat.le_of_not_lt harg)
    refine finish_inv (emitBufferDraws_inv ?_) _ _
    exact clearDynamic_inv hm h.inbuf h.dir

/-! ## Sending -/

/-- A transmission taints only inside a frame, empties its scratch, and turns the direction back (R126, R128). -/
theorem phyTransmit_inv (h : Inv C s) (e : Bytes) : Inv C (phyTransmit C e s) := by
  obtain ⟨hlen, hsync, htaint⟩ := h.accumulation
  have htaint' : (s.taint || s.sync) = true → s.sync = true := fun ht => (Bool.or_eq_true_iff.1 ht).elim htaint id
  rw [phyTransmit_eq]
  exact { h with
    accumulation := ⟨hlen, hsync, htaint'⟩
    txScratch := rfl
    dir := by simp [h.dir] }

theorem phySend_inv (h : Inv C s) (p : Bytes) : Inv C (phySend C p s).2 := by
  obtain ⟨_, e⟩ | ⟨_, e⟩ := phySend_cases C p s <;> rw [e]
  · exact h.of_invariantPart_eq
  · exact phyTransmit_inv h _

theorem phySendCommand_inv (h : Inv C s) (size : BitVec 16) : Inv C (phySendCommand C size s) := by
  obtain ⟨_, e⟩ | ⟨_, _, e⟩ := phySendCommand_cases C size s <;> rw [e]
  · exact h.of_invariantPart_eq
  · exact finish_inv (phyTransmit_inv h _) _ _

theorem macSendCommand_inv (h : Inv C s) (dst : Byte) (size : BitVec 16) : Inv C (macSendCommand C dst size s) := by
  have hsend := phySend_inv h (macBody dst size s)
  obtain ⟨_, e⟩ | ⟨_, _, e⟩ | ⟨_, _, e⟩ := macSendCommand_cases C dst size s <;> rw [e]
  · exact macFinish_inv h _ _
  · exact macFinish_inv hsend _ _
  · exact macFinish_inv hsend _ _

/-! ## The buffer of a receive -/

theorem Inv.dest (h : Inv C s) (d : Dest) : ArrayInv (frameSize C) (s.dest d) := by
  cases d with
  | outbuf => exact h.outbuf
  | frm => exact h.frm

theorem setDest_inv (h : Inv C s) (d : Dest) {m : Memory} (hm : ArrayInv (frameSize C) m) : Inv C (s.setDest d m) := by
  obtain ⟨hlen, hsync, htaint⟩ := h.accumulation
  cases d with
  | outbuf => exact { h with accumulation := ⟨hlen, hsync, htaint⟩, outbuf := hm }
  | frm => exact { h with accumulation := ⟨hlen, hsync, htaint⟩, frm := hm }

/-- A frame of at most `PHY_RX_MAX` bytes fits its buffer (R48, R141). -/
theorem setDest_writeBytes_inv (h : Inv C s) (d : Dest) {f : Bytes} (hf : f.length ≤ s.phyRxMax) :
    Inv C (s.setDest d ((s.dest d).writeBytes 0 f)) :=
  setDest_inv h d ((h.dest d).writeBytes (by have := h.phyRxMax_le; omega))

theorem drawDest_inv (h : Inv C s) (d : Dest) : Inv C (drawDest C d s) :=
  (setDest_inv h d (drawnArray_inv C (frameSize C) s.draws)).of_invariantPart_eq

/-! ## Poll iterations -/

theorem polled_inv (h : Inv C s) : Inv C s.polled := h.of_invariantPart_eq

theorem openFrame_inv (h : Inv C s) : Inv C (openFrame s) :=
  { h with accumulation := ⟨Nat.zero_le _, nofun, nofun⟩ }

theorem dropFrame_inv (h : Inv C s) : Inv C (dropFrame s) :=
  { h with accumulation := ⟨Nat.zero_le _, nofun, nofun⟩ }

/-- A byte accumulated below `CAP` stands inside `ACC`, and leaves `LEN` at most `CAP` (R140). -/
theorem accumulate_inv (h : Inv C s) (hs : s.sync = true) (hl : s.len < s.cap) (b : Byte) :
    Inv C { s with acc := s.acc.write s.len b, len := s.len + 1 } :=
  { h with
    accumulation := ⟨hl, fun _ => hs, fun _ => hs⟩
    acc := h.acc.write b (hl.trans_le (cap_le_rawSize h.cfgM_le)) }

theorem deliver_inv (h : Inv C s) (d : Dest) (f : Bytes) : Inv C (deliver C d f s).2 := by
  obtain ⟨_, e⟩ | ⟨hf, e⟩ := deliver_cases C d f s <;> rw [e]
  · exact drawDest_inv h d
  · exact setDest_writeBytes_inv h d hf

theorem endOfFrameTainted_inv (h : Inv C s) (d : Dest) : Inv C (endOfFrameTainted C d s).2 := by
  have hdrop := dropFrame_inv h
  simp only [endOfFrameTainted]
  split
  · exact (setDest_writeBytes_inv hdrop d (List.length_take_le _ _)).of_invariantPart_eq
  · exact drawDest_inv hdrop d

theorem classify_inv (h : Inv C s) (d : Dest) (b : Byte) : Inv C (classify C d b s).2 := by
  obtain ⟨_, _, e⟩ | ⟨_, _, _, e⟩ | ⟨_, _, _, _, e⟩ | ⟨_, _, _, _, e⟩ | ⟨_, _, e⟩ | ⟨_, _, _, e⟩ | ⟨_, hs, hl, e⟩ :=
    classify_cases C d b s <;> rw [e]
  · exact openFrame_inv h
  · exact openFrame_inv h
  · exact deliver_inv (dropFrame_inv h) d _
  · exact endOfFrameTainted_inv h d
  · exact h
  · exact dropFrame_inv h
  · exact accumulate_inv h hs hl b

theorem phyPoll_inv (h : Inv C s) (d : Dest) : Inv C (phyPoll C d s).2 := by
  cases hx : s.rx.headD none with
  | none => rw [phyPoll_noByte hx]; exact polled_inv h
  | some b => rw [phyPoll_byte hx]; exact classify_inv (polled_inv h) d b

/-! ## The length a poll iteration answers -/

/-- No outcome of a poll is longer than the frame it delivered (R146). -/
theorem PollCase.nonBlocking_le {c : PollCase} {m : Nat} (h : ∀ n, c = .frame n → n ≤ m) : c.nonBlocking.1 ≤ m := by
  cases c with
  | frame n => exact Int.ofNat_le.2 (h n rfl)
  | _ => simp only [PollCase.nonBlocking]; omega

theorem PollCase.blocking_le {c : PollCase} {m : Nat} {out : Int × Status} (h : ∀ n, c = .frame n → n ≤ m)
    (hout : c.blocking = some out) : out.1 ≤ m := by
  obtain rfl | ⟨n, hn, rfl⟩ := PollCase.blocking_status hout
  · change (-1 : Int) ≤ m
    omega
  · exact Int.ofNat_le.2 (h n hn)

/-- A delivered frame is inside the frame buffers (R48, R71). -/
theorem Inv.phyPoll_frame_le (h : Inv C s) {d : Dest} {n : Nat} (hn : (phyPoll C d s).1 = .frame n) :
    n ≤ frameSize C := (phyPoll_frame_length hn).trans h.phyRxMax_le

/-! ## What MAC_RECV makes of a frame -/

/-- The payload of a frame that fits `FRM` fits `OUTBUF` (R71, R188). -/
theorem macAccept_inv (h : Inv C s) {r : Nat} (hr : r ≤ frameSize C) : Inv C (macAccept r s) := by
  have hout : ArrayInv (frameSize C) (s.outbuf.writeBytes 0 (s.frm.readBytes 2 (r - 2))) :=
    h.outbuf.writeBytes (by rw [Memory.readBytes_length]; omega)
  exact (setDest_inv h .outbuf hout).of_invariantPart_eq

theorem macOutcomeNb_inv (h : Inv C s) {r : Int} (hr : r ≤ frameSize C) : Inv C (macOutcomeNb r s) := by
  obtain ⟨_, e⟩ | ⟨_, _, e⟩ | ⟨_, _, e⟩ := macOutcomeNb_cases r s <;> rw [e]
  · exact macFinish_inv h _ _
  · exact macAccept_inv h (by omega)
  · exact macFinish_inv h _ _

theorem macOutcomeBl_inv {again : State} (hagain : Inv C again) (h : Inv C s) {r : Int} (hr : r ≤ frameSize C)
    (pst : Status) : Inv C (macOutcomeBl again r pst s) := by
  obtain ⟨_, e⟩ | ⟨_, _, e⟩ | ⟨_, e⟩ := macOutcomeBl_cases again r pst s <;> rw [e]
  · exact macFinish_inv h _ _
  · exact macAccept_inv h (by omega)
  · exact hagain

/-! ## Commands -/

theorem phyRecvCommand_inv (h : Inv C s) (blk : BitVec 2) (tdef : Bool) : Inv C (phyRecvCommand C blk tdef s) := by
  cases hb : resolveBlk blk s with
  | none =>
    simp only [phyRecvCommand, hb]
    exact illegal_inv h
  | some m =>
    cases m with
    | nb =>
      rw [phyRecvCommand_nb hb]
      exact (phyPoll_inv h .outbuf).of_invariantPart_eq
    | bl =>
      simp only [phyRecvCommand, hb]
      exact h.of_invariantPart_eq

theorem macRecvCommand_inv (h : Inv C s) (blk : BitVec 2) (tdef : Bool) : Inv C (macRecvCommand C blk tdef s) := by
  cases hb : resolveBlk blk s with
  | none =>
    simp only [macRecvCommand, hb]
    exact illegal_inv h
  | some m =>
    cases m with
    | nb =>
      rw [macRecvCommand_nb hb]
      exact macOutcomeNb_inv (phyPoll_inv h .frm).of_invariantPart_eq
        (PollCase.nonBlocking_le fun _ hn => h.phyPoll_frame_le hn)
    | bl =>
      simp only [macRecvCommand, hb]
      exact h.of_invariantPart_eq

theorem command_inv (h : Inv C s) (i : Instr) : Inv C (command C i s) := by
  cases i with
  | init self dirid schreq defblk => exact initCommand_inv h self dirid schreq defblk
  | phySend size => exact phySendCommand_inv h size
  | phyRecv blk tdef => exact phyRecvCommand_inv h blk tdef
  | macSend dst size => exact macSendCommand_inv h dst size
  | macRecv blk tdef => exact macRecvCommand_inv h blk tdef

/-! ## Rounds of a blocking receive -/

theorem checked_inv (h : Inv C s) : Inv C (s.checked C) := h.of_invariantPart_eq

/-- A round of `phy_receive` keeps the invariant, and an outcome that ends it is no longer than the frame buffers. -/
theorem phyReceiveRound_inv (h : Inv C s) (d : Dest) (tmo : Word) (t0 : Nat) :
    Inv C (phyReceiveRound C d tmo t0 s.sampled).2 ∧
      ∀ out, (phyReceiveRound C d tmo t0 s.sampled).1 = some out → out.1 ≤ frameSize C := by
  have hchecked := checked_inv h
  have hpoll := phyPoll_inv hchecked d
  obtain ⟨_, e⟩ | ⟨_, out, ho, e⟩ | ⟨_, _, e⟩ := phyReceiveRound_cases C d tmo t0 s <;> rw [e]
  · refine ⟨hchecked.of_invariantPart_eq, ?_⟩
    rintro out ⟨⟩
    change (-1 : Int) ≤ frameSize C
    omega
  · refine ⟨hpoll.of_invariantPart_eq, ?_⟩
    rintro out ⟨⟩
    exact PollCase.blocking_le (fun _ hn => hchecked.phyPoll_frame_le hn) ho
  · exact ⟨hpoll, nofun⟩

theorem phyRecvRound_inv (h : Inv C s) (tmo : Word) (t0 : Nat) : Inv C (phyRecvRound C tmo t0 s.sampled) := by
  obtain ⟨hround, _⟩ := phyReceiveRound_inv h .outbuf tmo t0
  simp only [phyRecvRound]
  split
  · exact finish_inv hround _ _
  · exact hround

theorem macTopRound_inv (h : Inv C s) (tmo : Word) (t0 : Nat) : Inv C (macTopRound C tmo t0 s) := by
  simp only [macTopRound]
  split <;> exact h.of_invariantPart_eq

theorem macPhyRound_inv (h : Inv C s) (tmo : Word) (t0 : Nat) : Inv C (macPhyRound C tmo t0 s.sampled) := by
  obtain ⟨hround, hle⟩ := phyReceiveRound_inv h .frm tmo t0
  simp only [macPhyRound]
  split
  next out ho => exact macOutcomeBl_inv hround.of_invariantPart_eq hround (hle out ho) _
  next => exact hround

/-! ## Steps -/

theorem sampled_inv (h : Inv C s) : Inv C s.sampled := h.of_invariantPart_eq

theorem unresetStep_inv (h : Inv C s) (hstep : unresetStep C (execWith C) s.sampled = .next t) : Inv C t := by
  obtain ⟨_, _, rfl⟩ | ⟨_, bytes, rest, _, rfl⟩ | ⟨_, cmd, a0, a1, rest, i, _, _, rfl⟩ |
    ⟨_, cmd, a0, a1, rest, _, _, _, rfl⟩ | ⟨tmo, t0, _, rfl⟩ | ⟨tmo, t0, _, rfl⟩ | ⟨tmo, t0, _, rfl⟩ :=
    unresetStep_cases hstep
  · exact sampled_inv h
  · exact hostWrite_inv h.of_invariantPart_eq bytes
  · exact command_inv h.of_invariantPart_eq i
  · exact illegal_inv h.of_invariantPart_eq
  · exact phyRecvRound_inv h tmo t0
  · exact macTopRound_inv (sampled_inv h) tmo t0
  · exact macPhyRound_inv h tmo t0

theorem stepWith_inv (h : Inv C s) (hstep : stepWith C s = .next t) : Inv C t := by
  obtain ⟨_, rfl⟩ | ⟨k, u, _, hu, rfl⟩ | ⟨_, hu⟩ := stepWith_cases hstep
  · exact resetBlock_inv h.inbuf
  · exact resetBlock_inv (unresetStep_inv h hu).inbuf
  · exact unresetStep_inv h hu

end

/-- Settles O54: the invariant is inductive over a step of any block, with reset at its start, in its middle or not at
all. -/
theorem everyStepKeepsTheInvariant : Obligations.EveryStepKeepsTheInvariant := by
  unfold Obligations.EveryStepKeepsTheInvariant
  intro C s t h hstep
  exact stepWith_inv h hstep

end Sys2Proof.Machine
end

section
/-! SUPPORT. The legal command words by their fixed bits (30_encoding.md R92): a mask asks of a word what the fields under it
hold, and the decoder asks nothing else. -/
namespace Sys2Proof

/-! ## Masks and fields -/

/-- The word that holds `v` from bit `start` up and zeros elsewhere. -/
def fieldWord {n : Nat} (start : Nat) (v : BitVec n) : Word := v.setWidth 32 <<< start

theorem getLsbD_fieldWord {n : Nat} (start : Nat) (v : BitVec n) {j : Nat} (hj : j < 32) :
    (fieldWord start v).getLsbD j = (decide (start ≤ j) && v.getLsbD (j - start)) := by
  simp [fieldWord, hj, ← decide_not]

/-- A field holds `v` when the word, masked to that field, is `v` there. -/
theorem extractLsb'_eq_iff_mask {n : Nat} (w : Word) (start : Nat) (v : BitVec n) (hn : start + n ≤ 32) :
    w.extractLsb' start n = v ↔ w &&& fieldWord start (BitVec.allOnes n) = fieldWord start v := by
  constructor
  · rintro rfl
    refine BitVec.eq_of_getLsbD_eq fun j hj => ?_
    rw [BitVec.getLsbD_and, getLsbD_fieldWord _ _ hj, getLsbD_fieldWord _ _ hj]
    by_cases hs : start ≤ j
    · simp [hs, Bool.and_comm]
    · simp [hs]
  · intro h
    refine BitVec.eq_of_getLsbD_eq fun j hj => ?_
    have hbit := congrArg (·.getLsbD (start + j)) h
    have hlt : start + j < 32 := by omega
    simpa [getLsbD_fieldWord _ _ hlt, hj] using hbit

/-- A mask of the operation code and of bits `z` that must be 0 asks for the one and for the other (R92). -/
theorem opMask_iff (w : Word) (op : BitVec 4) {z : Word} (hz : 0xF0000000#32 &&& z = 0#32) :
    w &&& (0xF0000000#32 ||| z) = fieldWord 28 op ↔ fieldOp w = op ∧ w &&& z = 0#32 := by
  rw [fieldOp, extractLsb'_eq_iff_mask w 28 op (by decide)]
  change _ ↔ w &&& 0xF0000000#32 = _ ∧ _
  have hop : fieldWord 28 op &&& 0xF0000000#32 = fieldWord 28 op := by
    revert op
    decide
  have hopz : fieldWord 28 op &&& z = 0#32 := by rw [← hop, BitVec.and_assoc, hz, BitVec.and_zero]
  have cutOp : (0xF0000000#32 ||| z) &&& 0xF0000000#32 = 0xF0000000#32 := by
    rw [BitVec.and_or_distrib_right, BitVec.and_comm z, hz, BitVec.and_self, BitVec.or_zero]
  have cutZ : (0xF0000000#32 ||| z) &&& z = z := by
    rw [BitVec.and_or_distrib_right, hz, BitVec.and_self, BitVec.zero_or]
  constructor
  · intro h
    constructor
    · rw [← cutOp, ← BitVec.and_assoc, h, hop]
    · rw [← cutZ, ← BitVec.and_assoc, h, hopz]
  · rintro ⟨h, h'⟩
    rw [BitVec.and_or_distrib_left, h, h', BitVec.or_zero]

/-! ## The five masks of R92 -/

theorem initMask_iff (w : Word) :
    w &&& 0xFF0000FC#32 = 0x10000000#32 ↔
      fieldOp w = 0x1#4 ∧ w.extractLsb' 24 4 = 0#4 ∧ w.extractLsb' 2 6 = 0#6 := by
  rw [extractLsb'_eq_iff_mask w 24 0#4 (by decide), extractLsb'_eq_iff_mask w 2 0#6 (by decide)]
  refine (opMask_iff w 0x1#4 (z := 0x0F0000FC#32) (by decide)).trans (and_congr_right' ?_)
  change _ ↔ w &&& 0x0F000000#32 = 0#32 ∧ w &&& 0x000000FC#32 = 0#32
  rw [← BitVec.or_eq_zero_iff, ← BitVec.and_or_distrib_left]
  rfl

theorem phySendMask_iff (w : Word) :
    w &&& 0xFFFF0000#32 = 0x20000000#32 ↔ fieldOp w = 0x2#4 ∧ w.extractLsb' 16 12 = 0#12 := by
  rw [extractLsb'_eq_iff_mask w 16 0#12 (by decide)]
  exact opMask_iff w 0x2#4 (z := 0x0FFF0000#32) (by decide)

theorem macSendMask_iff (w : Word) :
    w &&& 0xFF000000#32 = 0x40000000#32 ↔ fieldOp w = 0x4#4 ∧ w.extractLsb' 24 4 = 0#4 := by
  rw [extractLsb'_eq_iff_mask w 24 0#4 (by decide)]
  exact opMask_iff w 0x4#4 (z := 0x0F000000#32) (by decide)

/-- The mask of the two receive commands, which differ in `OP` alone. -/
theorem recvMask_iff (w : Word) (op : BitVec 4) :
    w &&& 0xF1FFFFFF#32 = fieldWord 28 op ↔ fieldOp w = op ∧ w.extractLsb' 0 25 = 0#25 := by
  rw [extractLsb'_eq_iff_mask w 0 0#25 (by decide)]
  exact opMask_iff w op (z := 0x01FFFFFF#32) (by decide)

/-- `BLK` other than `0b11` (R95). -/
theorem blkMask_iff (w : Word) : w &&& 0x0C000000#32 ≠ 0x0C000000#32 ↔ blkLegal (fieldBlk w) = true := by
  rw [blkLegal, bne_iff_ne, fieldBlk]
  exact (extractLsb'_eq_iff_mask w 26 0b11#2 (by decide)).not.symm

/-! ## The words that decode -/

/-- A receive word decodes when its bits that must be 0 are and its `BLK` is legal (R97). -/
theorem decodeRecv_of_fields {make : BitVec 2 → Bool → Instr} {w : Word} (h0 : w.extractLsb' 0 25 = 0#25)
    (hblk : blkLegal (fieldBlk w) = true) : decodeRecv make w = .ok (make (fieldBlk w) (fieldTdef w == 1#1)) := by
  rw [decodeRecv, if_pos h0, if_pos hblk]

/-- A word decodes exactly when its operation code is one of the five, the bits that must be 0 for it are, and `BLK` is legal
on a receive (R97). -/
theorem exists_decode_ok_iff (w : Word) :
    (∃ i, decode w = .ok i) ↔
      (fieldOp w = 0x1#4 ∧ w.extractLsb' 24 4 = 0#4 ∧ w.extractLsb' 2 6 = 0#6) ∨
      (fieldOp w = 0x2#4 ∧ w.extractLsb' 16 12 = 0#12) ∨
      ((fieldOp w = 0x3#4 ∧ w.extractLsb' 0 25 = 0#25) ∧ blkLegal (fieldBlk w) = true) ∨
      (fieldOp w = 0x4#4 ∧ w.extractLsb' 24 4 = 0#4) ∨
      ((fieldOp w = 0x5#4 ∧ w.extractLsb' 0 25 = 0#25) ∧ blkLegal (fieldBlk w) = true) := by
  constructor
  · rintro ⟨i, h⟩
    obtain ⟨hop, h24, h2, -⟩ | ⟨hop, h16, -⟩ | ⟨hop, h0, hblk, -⟩ | ⟨hop, h24, -⟩ | ⟨hop, h0, hblk, -⟩ :=
      decode_ok_cases h
    · exact .inl ⟨hop, h24, h2⟩
    · exact .inr (.inl ⟨hop, h16⟩)
    · exact .inr (.inr (.inl ⟨⟨hop, h0⟩, hblk⟩))
    · exact .inr (.inr (.inr (.inl ⟨hop, h24⟩)))
    · exact .inr (.inr (.inr (.inr ⟨⟨hop, h0⟩, hblk⟩)))
  · rintro (⟨hop, h24, h2⟩ | ⟨hop, h16⟩ | ⟨⟨hop, h0⟩, hblk⟩ | ⟨hop, h24⟩ | ⟨⟨hop, h0⟩, hblk⟩)
    · simp [decode, hop, decodeInit, h24, h2]
    · simp [decode, hop, decodePhySend, h16]
    · simp [decode, hop, decodeRecv_of_fields h0 hblk]
    · simp [decode, hop, decodeMacSend, h24]
    · simp [decode, hop, decodeRecv_of_fields h0 hblk]

/-- Settles O4: the decoder asks of a word its fields, and each mask asks the same fields of it. -/
theorem legalWordsAreThoseOfTheMasks : Obligations.LegalWordsAreThoseOfTheMasks := by
  unfold Obligations.LegalWordsAreThoseOfTheMasks
  intro w
  have phyRecvMask := and_congr (recvMask_iff w 0x3#4) (blkMask_iff w)
  have macRecvMask := and_congr (recvMask_iff w 0x5#4) (blkMask_iff w)
  rw [exists_decode_ok_iff, initMask_iff, phySendMask_iff, macSendMask_iff]
  exact or_congr_right (or_congr_right (or_congr phyRecvMask.symm (or_congr_right macRecvMask.symm)))

end Sys2Proof
end

section
/-! SUPPORT. PHY_SEND (40_phy_framer.md R121 to R128): it refuses or transmits one frame, and each of the two ways fixes the
whole next state and every event. -/
namespace Sys2Proof.Machine

/-- A refused PHY_SEND changes `PHY_ST` and the result only (R121, R123). -/
theorem phySend_answers_refused {C : Config} {size : BitVec 16} {s : State}
    (h : s.cap < size.toNat ∨ s.cap < ((s.codec C).enc (s.inbuf.readBytes 0 size.toNat)).length) :
    Answers C (.phySend size) s (State.ended (-1) .oversize { s with phySt := .oversize }) := by
  obtain ⟨_, e⟩ | ⟨_, _, _⟩ := phySendCommand_cases C size s
  · exact answers_of e
  · omega

/-- The state after a PHY_SEND that transmits the encoding `e` (R124, R126, R128). -/
def State.transmitted (C : Config) (e : Bytes) (s : State) : State :=
  { s with
    trace := s.trace ++ frameEvents C s e
    dir := if s.cfgDirid = 0#8 then s.dir else .rx
    taint := s.taint || s.sync
    txScratch := []
    phySt := .noError }

/-- A PHY_SEND that passes both checks transmits the encoding and returns its length (R124 to R128). -/
theorem phySend_answers_sent {C : Config} {size : BitVec 16} {s : State} {e : Bytes} (hn : size.toNat ≤ s.cap)
    (he : (s.codec C).enc (s.inbuf.readBytes 0 size.toNat) = e) (hl : e.length ≤ s.cap) :
    Answers C (.phySend size) s (State.ended e.length .noError (s.transmitted C e)) := by
  subst he
  obtain ⟨_, _⟩ | ⟨_, _, hsend⟩ := phySendCommand_cases C size s
  · omega
  · rw [phyTransmit_eq] at hsend
    exact answers_of hsend

/-- Every event of a frame is one of the transmit interface or of the direction output (R126, R127). -/
theorem isTransmit_of_mem_frameEvents (C : Config) (s : State) (e : Bytes) :
    ∀ ev ∈ frameEvents C s e, ev.isTransmit = true := by
  unfold frameEvents
  split <;> simp [or_imp, forall_and, Event.isTransmit]

/-- Settles O17: the size check comes first. -/
theorem phySendRefusesPayloadLongerThanCap : Obligations.PhySendRefusesPayloadLongerThanCap := by
  unfold Obligations.PhySendRefusesPayloadLongerThanCap
  intro C size s h
  have hcap : s.cap < size.toNat := by
    unfold State.cap
    cases hs : s.scheme <;> rw [hs] at h <;> exact h
  exact phySend_answers_refused (.inl hcap)

/-- Settles O18: the check of the encoding's length comes before anything is emitted. -/
theorem phySendRefusesEncodingLongerThanCap : Obligations.PhySendRefusesEncodingLongerThanCap := by
  unfold Obligations.PhySendRefusesEncodingLongerThanCap
  intro C size s _ h
  exact phySend_answers_refused (.inr h)

/-- Settles O19: what passes both checks is transmitted as one frame. -/
theorem phySendTransmitsOneFrame : Obligations.PhySendTransmitsOneFrame := by
  unfold Obligations.PhySendTransmitsOneFrame
  intro C size s e hn he hl
  simpa [State.transmitted, frameEvents] using phySend_answers_sent hn he.symm hl

/-- Settles O21: neither a refusal nor a transmission reaches the receiver's state or its interface. -/
theorem phySendLeavesTheReceiverAlone : Obligations.PhySendLeavesTheReceiverAlone := by
  unfold Obligations.PhySendLeavesTheReceiverAlone
  intro C size s hrun hdir htx
  obtain ⟨refused, _⟩ | ⟨hn, hl, _⟩ := phySendCommand_cases C size s
  · refine ⟨_, phySend_answers_refused refused, ?_, [], ?_, nofun⟩
    · simp [State.ended, ← hrun]
    · rw [List.append_nil]
      rfl
  · generalize he : (s.codec C).enc (s.inbuf.readBytes 0 size.toNat) = e at hl
    have hcap := cap_lt s
    have hret : (BitVec.ofInt 32 (e.length : Int)).toInt = e.length :=
      (ResultOk.length (by omega)).toInt_ofInt
    refine ⟨_, phySend_answers_sent hn he hl, ?_, frameEvents C s e, ?_, isTransmit_of_mem_frameEvents C s e⟩
    · simp [State.ended, State.transmitted, hrun, hdir, htx]
    · simp only [State.ended, State.transmitted, hret]

end Sys2Proof.Machine
end

section
/-! SUPPORT. Receives whose poll delivers no frame (40_phy_framer.md R134 to R143), and the deadline (R152): what such a poll
makes of a command or of a step is said once for every case of the poll. -/
namespace Sys2Proof.Machine

/-! ## A non-blocking receive, by its poll -/

/-- A non-blocking PHY_RECV ends with the outcome of its poll (R131, R153). -/
theorem phyRecv_answers_nb {C : Config} {blk : BitVec 2} {tdef : Bool} {s u : State} {c : PollCase}
    (hb : resolveBlk blk s = some .nb) (hp : phyPoll C .outbuf s = (c, u)) :
    Answers C (.phyRecv blk tdef) s
      (State.ended c.nonBlocking.1 c.nonBlocking.2 { u with phySt := c.nonBlocking.2 }) := by
  refine answers_of ((phyRecvCommand_nb hb).trans ?_)
  rw [hp, finish_eq_ended]

/-- A non-blocking MAC_RECV whose poll delivers nothing ends with `ReadError` (R182). -/
theorem macRecv_answers_nb_readError {C : Config} {blk : BitVec 2} {tdef : Bool} {s u : State} {c : PollCase}
    (hb : resolveBlk blk s = some .nb) (hp : phyPoll C .frm s = (c, u)) (hc : c.nonBlocking.1 ≤ 0) :
    Answers C (.macRecv blk tdef) s
      (State.ended (-1) .readError { u with phySt := c.nonBlocking.2, macSt := .readError }) := by
  refine answers_of ((macRecvCommand_nb hb).trans ?_)
  rw [hp, macOutcomeNb, if_pos hc]
  rfl

/-- Both non-blocking receives on a poll that delivers nothing, which goes the same way for either destination. -/
theorem receives_answer_nb {C : Config} {blk : BitVec 2} {tdef : Bool} {s u : State} {c : PollCase}
    (hb : resolveBlk blk s = some .nb) (hp : ∀ d, phyPoll C d s = (c, u)) (hc : c.nonBlocking.1 ≤ 0) :
    Answers C (.phyRecv blk tdef) s
        (State.ended c.nonBlocking.1 c.nonBlocking.2 { u with phySt := c.nonBlocking.2 }) ∧
      Answers C (.macRecv blk tdef) s
        (State.ended (-1) .readError { u with phySt := c.nonBlocking.2, macSt := .readError }) :=
  ⟨phyRecv_answers_nb hb (hp _), macRecv_answers_nb_readError hb (hp _) hc⟩

/-! ## A step of a blocking receive, by its poll -/

/-- A step of either blocking receive whose poll lets it go on (R146, R153). -/
theorem stepsTo_of_poll_continues {C : Config} {s u : State} {tmo : Word} {t0 : Nat} {c : PollCase}
    (hr : s.resetAsserted = false) (hrun : s.run = .phyRecv tmo t0 ∨ s.run = .macPhy tmo t0)
    (he : s.elapsedNext C t0 ≤ tmo.toNat) (hp : ∀ d, phyPoll C d (s.checked C) = (c, u)) (hc : c.blocking = none) :
    StepsTo C s u := by
  have hb : ∀ d, (phyPoll C d (s.checked C)).1.blocking = none := fun d => by rw [hp d]; exact hc
  refine stepsTo_of ?_
  rcases hrun with h | h
  · rw [stepWith_phyRecv_continue hr h he (hb _), hp]
  · rw [stepWith_macPhy_continue hr h he (hb _), hp]

/-- A step of a blocking PHY_RECV whose poll fails it (R146, R153). -/
theorem phyRecv_stepsTo_of_poll_fails {C : Config} {s u : State} {tmo : Word} {t0 : Nat} {c : PollCase} {st : Status}
    (hr : s.resetAsserted = false) (hrun : s.run = .phyRecv tmo t0) (he : s.elapsedNext C t0 ≤ tmo.toNat)
    (hp : phyPoll C .outbuf (s.checked C) = (c, u)) (hc : c.blocking = some (-1, st)) :
    StepsTo C s (State.ended (-1) st { u with phySt := st }) := by
  refine stepsTo_of ?_
  rw [stepWith_phyRecv_done hr hrun he (by rw [hp]; exact hc), hp, finish_eq_ended]

/-- A step of a blocking MAC_RECV whose poll fails its PHY receive: the MAC takes over the status (R184). -/
theorem macRecv_stepsTo_of_poll_fails {C : Config} {s u : State} {tmo : Word} {t0 : Nat} {c : PollCase} {st : Status}
    (hr : s.resetAsserted = false) (hrun : s.run = .macPhy tmo t0) (he : s.elapsedNext C t0 ≤ tmo.toNat)
    (hp : phyPoll C .frm (s.checked C) = (c, u)) (hc : c.blocking = some (-1, st)) :
    StepsTo C s (State.ended (-1) st { u with phySt := st, macSt := st }) := by
  refine stepsTo_of ?_
  rw [stepWith_macPhy_done hr hrun he (by rw [hp]; exact hc), macOutcomeBl_failure, hp]
  rfl

/-! ## The cases of a poll iteration that deliver no frame -/

/-- Settles O23: no byte. -/
theorem pollWithoutByteChangesNoState : Obligations.PollWithoutByteChangesNoState := by
  unfold Obligations.PollWithoutByteChangesNoState
  intro C s h
  constructor
  · intro blk tdef hb
    exact receives_answer_nb hb (fun _ => phyPoll_noByte h) (by decide)
  · intro tmo t0 hr hrun he
    exact stepsTo_of_poll_continues hr hrun he (fun _ => phyPoll_noByte (s := s.checked C) h) rfl

/-- Settles O24: start of frame. -/
theorem delimiterOutsideAFrameStartsOne : Obligations.DelimiterOutsideAFrameStartsOne := by
  unfold Obligations.DelimiterOutsideAFrameStartsOne
  intro C s h hs
  constructor
  · intro blk tdef hb
    exact receives_answer_nb hb (fun _ => phyPoll_start h hs) (by decide)
  · intro tmo t0 hr hrun he
    exact stepsTo_of_poll_continues hr hrun he (fun _ => phyPoll_start (s := s.checked C) h hs) rfl

/-- With `SYNC` set and nothing accumulated, opening a frame clears `TAINT` only (R137). -/
theorem openFrame_of_empty {s : State} (hs : s.sync = true) (hl : s.len = 0) :
    openFrame s = { s with taint := false } := by
  rw [openFrame, ← hs, ← hl]

/-- A resync clears `TAINT` only (R137). -/
theorem phyPoll_resync_taint {C : Config} {s : State} (d : Dest) (h : s.rx.headD none = some (s.codec C).delim)
    (hs : s.sync = true) (hl : s.len = 0) : phyPoll C d s = (.resync, { s.polled with taint := false }) := by
  rw [phyPoll_resync h hs hl, openFrame_of_empty (s := s.polled) hs hl]

/-- Settles O25: resync. -/
theorem delimiterWithNothingAccumulatedResyncs : Obligations.DelimiterWithNothingAccumulatedResyncs := by
  unfold Obligations.DelimiterWithNothingAccumulatedResyncs
  intro C s h hs hl
  constructor
  · intro blk tdef hb
    exact receives_answer_nb hb (phyPoll_resync_taint · h hs hl) (by decide)
  · intro tmo t0 hr hrun he
    exact stepsTo_of_poll_continues hr hrun he (phyPoll_resync_taint (s := s.checked C) · h hs hl) rfl

/-- Settles O26: overflow, the one case of these that ends a blocking receive. -/
theorem byteAtCapacityOverflows : Obligations.ByteAtCapacityOverflows := by
  unfold Obligations.ByteAtCapacityOverflows
  intro C s b h hb hs hl
  constructor
  · intro blk tdef hnb
    exact receives_answer_nb hnb (fun _ => phyPoll_overflow h hb hs hl) (by decide)
  · intro tmo t0 hr he
    have hp := fun d => phyPoll_overflow (d := d) (s := s.checked C) h hb hs hl
    exact ⟨fun hrun => phyRecv_stepsTo_of_poll_fails hr hrun he (hp _) rfl,
      fun hrun => macRecv_stepsTo_of_poll_fails hr hrun he (hp _) rfl⟩

/-- Settles O27: accumulate; the witness is `ACC` after the one write at `LEN`. -/
theorem byteInsideAFrameIsStored : Obligations.ByteInsideAFrameIsStored := by
  unfold Obligations.ByteInsideAFrameIsStored
  intro C s b h hb hs hl hw
  refine ⟨s.acc.write s.len b, Memory.write_wf hw _ _, Memory.read_write hw _ _, ?_, ?_⟩
  · intro blk tdef hnb
    exact receives_answer_nb hnb (fun _ => phyPoll_accumulate h hb hs hl) (by decide)
  · intro tmo t0 hr hrun he
    exact stepsTo_of_poll_continues hr hrun he (fun _ => phyPoll_accumulate (s := s.checked C) h hb hs hl) rfl

/-- Settles O28: noise. -/
theorem byteOutsideAFrameIsNoise : Obligations.ByteOutsideAFrameIsNoise := by
  unfold Obligations.ByteOutsideAFrameIsNoise
  intro C s b h hb hs
  constructor
  · intro blk tdef hnb
    exact receives_answer_nb hnb (fun _ => phyPoll_noise h hb hs) (by decide)
  · intro tmo t0 hr hrun he
    exact stepsTo_of_poll_continues hr hrun he (fun _ => phyPoll_noise (s := s.checked C) h hb hs) rfl

/-! ## The deadline -/

/-- Settles O35: each of the three deadline checks, expired, and the MAC's own where time is left. -/
theorem deadlineCheckEndsTheReceiveWhenExpired : Obligations.DeadlineCheckEndsTheReceiveWhenExpired := by
  unfold Obligations.DeadlineCheckEndsTheReceiveWhenExpired
  intro C s tmo t0 hr
  refine ⟨elapsed_eq C s.clockNext t0, fun expired => ⟨?_, ?_, ?_⟩, ?_⟩
  · intro hrun
    exact stepsTo_of (stepWith_phyRecv_timeout hr hrun expired)
  · intro hrun
    exact stepsTo_of (stepWith_macTop_timeout hr hrun expired)
  · intro hrun
    exact stepsTo_of (stepWith_macPhy_timeout hr hrun expired)
  · intro timeLeft hrun
    exact stepsTo_of (stepWith_macTop_continue hr hrun timeLeft)

end Sys2Proof.Machine
end

section
/-! SUPPORT. The MacLayer (41_mac_layer.md): the refusal of MAC_SEND (R171), the PHY receive under a non-blocking MAC_RECV
(R182), and when a MAC_RECV writes what the host reads (R190). -/
namespace Sys2Proof.Machine

/-! ## The destination of a poll (R144): it decides where a frame goes, and nothing else -/

theorem deliver_frm_eq (C : Config) (f : Bytes) (s : State) :
    ∃ m, deliver C .frm f s =
      ((deliver C .outbuf f s).1, { (deliver C .outbuf f s).2 with frm := m, outbuf := s.outbuf }) := by
  obtain ⟨h, e⟩ | ⟨h, e⟩ := deliver_cases C .outbuf f s <;> rw [e]
  · rw [deliver_tooLong h]
    exact ⟨drawnArray C (frameSize C) s.draws, rfl⟩
  · rw [deliver_fits h]
    exact ⟨s.frm.writeBytes 0 f, rfl⟩

theorem endOfFrameTainted_frm_eq (C : Config) (s : State) :
    ∃ m, endOfFrameTainted C .frm s =
      ((endOfFrameTainted C .outbuf s).1, { (endOfFrameTainted C .outbuf s).2 with frm := m, outbuf := s.outbuf }) := by
  cases h : C.drawFits s.draws with
  | false =>
    rw [endOfFrameTainted_none h, endOfFrameTainted_none h]
    exact ⟨drawnArray C (frameSize C) s.draws, rfl⟩
  | true =>
    rw [endOfFrameTainted_frm h rfl, endOfFrameTainted_outbuf h rfl]
    exact ⟨s.frm.writeBytes 0 ((C.drawBytes s.draws).take s.phyRxMax), rfl⟩

theorem classify_frm_eq (C : Config) (b : Byte) (s : State) :
    ∃ m, classify C .frm b s =
      ((classify C .outbuf b s).1, { (classify C .outbuf b s).2 with frm := m, outbuf := s.outbuf }) := by
  obtain ⟨hb, hs, e⟩ | ⟨hb, hs, hl, e⟩ | ⟨hb, hs, hl, ht, e⟩ | ⟨hb, hs, hl, ht, e⟩ | ⟨hb, hs, e⟩ | ⟨hb, hs, hl, e⟩ |
    ⟨hb, hs, hl, e⟩ := classify_cases C .outbuf b s <;> rw [e]
  · exact ⟨s.frm, classify_start hb hs⟩
  · exact ⟨s.frm, classify_resync hb hs hl⟩
  · rw [classify_end hb hs hl ht]
    exact deliver_frm_eq C _ (dropFrame s)
  · rw [classify_end_tainted hb hs hl ht]
    exact endOfFrameTainted_frm_eq C s
  · exact ⟨s.frm, classify_noise hb hs⟩
  · exact ⟨s.frm, classify_overflow hb hs hl⟩
  · exact ⟨s.frm, classify_accumulate hb hs hl⟩

theorem phyPoll_frm_eq (C : Config) (s : State) :
    ∃ m, phyPoll C .frm s =
      ((phyPoll C .outbuf s).1, { (phyPoll C .outbuf s).2 with frm := m, outbuf := s.outbuf }) := by
  cases h : s.rx.headD none with
  | none =>
    rw [phyPoll_noByte h, phyPoll_noByte h]
    exact ⟨s.frm, rfl⟩
  | some b =>
    rw [phyPoll_byte h, phyPoll_byte h]
    exact classify_frm_eq C b s.polled

theorem phyPoll_rx (C : Config) (d : Dest) (s : State) : (phyPoll C d s).2.rx = s.polled.rx := by
  rw [phyPoll_frame]

/-- What a poll for MAC_RECV leaves, by the poll of PHY_RECV in the same state: it moves the receiver the same way, and
else it touches `FRM` only (R133, R144). -/
theorem phyPoll_frm_of_outbuf {C : Config} {s u : State} {c : PollCase} (h : phyPoll C .outbuf s = (c, u)) :
    ∃ m, phyPoll C .frm s = (c, { s.polled with
      sync := u.sync, len := u.len, acc := u.acc, taint := u.taint, frm := m, trace := u.trace, draws := u.draws }) := by
  obtain ⟨m, hm⟩ := phyPoll_frm_eq C s
  have hframe := phyPoll_frame C .outbuf s
  rw [h] at hm hframe
  refine ⟨m, hm.trans ?_⟩
  conv_lhs => rw [hframe]
  rfl

/-! ## What MAC_RECV makes of the outcome of its PHY receive -/

/-- A non-blocking MAC_RECV ends, and writes at most `MAC_ST`, `OUTBUF` and `OUTSRC` beside what its PHY receive left; with
`ReadError`, and neither buffer nor source, where that one had no positive length (R182 to R188). -/
theorem macRecv_answers_nb {C : Config} {blk : BitVec 2} {tdef : Bool} {s v : State} {c : PollCase}
    (hb : resolveBlk blk s = some .nb) (hp : phyPoll C .frm s = (c, v)) :
    ∃ ret st out src,
      Answers C (.macRecv blk tdef) s (State.ended ret st { v with
        phySt := c.nonBlocking.2, macSt := st, outbuf := out, outsrc := src }) ∧
      (c.nonBlocking.1 ≤ 0 → ret = -1 ∧ st = .readError ∧ out = v.outbuf ∧ src = v.outsrc) := by
  have hrecv := macRecvCommand_nb (C := C) (tdef := tdef) hb
  rw [hp] at hrecv
  obtain ⟨hc, _⟩ | ⟨hc, _, e⟩ | ⟨hc, _, e⟩ := macOutcomeNb_cases c.nonBlocking.1 { v with phySt := c.nonBlocking.2 }
  · exact ⟨_, _, _, _, macRecv_answers_nb_readError hb hp hc, fun _ => ⟨rfl, rfl, rfl, rfl⟩⟩
  · exact ⟨_, _, _, _, answers_of (hrecv.trans (e.trans (macAccept_of rfl rfl))), fun hle => by omega⟩
  · exact ⟨_, _, _, _, answers_of (hrecv.trans e), fun hle => by omega⟩

/-- Settles O45: both receives poll alike, and the result port shows the outcome on which MAC_RECV decides. -/
theorem macPollIsAPhyPollThatReportsReadError : Obligations.MacPollIsAPhyPollThatReportsReadError := by
  unfold Obligations.MacPollIsAPhyPollThatReportsReadError
  intro C s blk tdef hb
  have hok := phyPoll_nonBlocking_resultOk C .outbuf s
  have hrx := phyPoll_rx C .outbuf s
  rcases hphy : phyPoll C .outbuf s with ⟨c, u⟩
  rw [hphy] at hok hrx
  obtain ⟨m, hmac⟩ := phyPoll_frm_of_outbuf hphy
  obtain ⟨ret, st, out, src, hanswers, hfailed⟩ := macRecv_answers_nb (tdef := tdef) hb hmac
  refine ⟨_, _, hanswers, phyRecv_answers_nb hb hphy, rfl, rfl, rfl, rfl, rfl, hrx.symm, ?_, rfl, fun hret => ?_⟩
  · simp only [State.ended, List.dropLast_concat]
  · have hc : c.nonBlocking.1 ≤ 0 := hok.toInt_ofInt.symm.trans_le hret
    obtain ⟨rfl, rfl, rfl, rfl⟩ := hfailed hc
    simp only [State.ended, List.dropLast_concat]

/-! ## When MAC_RECV writes what the host reads -/

/-- `OUTBUF` and `OUTSRC` of `s` stand in `t`, or `t` is the end of a command by an accepted frame (R187, R188, R190). -/
def KeepsOutputOrAccepts (s t : State) : Prop :=
  (t.outbuf = s.outbuf ∧ t.outsrc = s.outsrc) ∨
  (t.run = .idle ∧ t.rstat ∈ [Status.readErrorSourceSelf, .readErrorSourceBroadcast, .noError])

theorem KeepsOutputOrAccepts.keeps {s t : State} {others : List Status} (h : KeepsOutputOrAccepts s t)
    (hothers : ∀ st ∈ [Status.readErrorSourceSelf, .readErrorSourceBroadcast, .noError], st ∉ others)
    (ht : t.run ≠ .idle ∨ t.rstat ∈ others) : t.outbuf = s.outbuf ∧ t.outsrc = s.outsrc := by
  rcases h with kept | ⟨hidle, hst⟩
  · exact kept
  · exact absurd ht (not_or.mpr ⟨not_not.mpr hidle, hothers _ hst⟩)

theorem KeepsOutputOrAccepts.of_poll {C : Config} {s t : State} (h : KeepsOutputOrAccepts (phyPoll C .frm s).2 t) :
    KeepsOutputOrAccepts s t := by
  have hsrc : (phyPoll C .frm s).2.outsrc = s.outsrc := by rw [phyPoll_frame]; rfl
  rwa [KeepsOutputOrAccepts, phyPoll_frm_outbuf, hsrc] at h

theorem macAccept_accepts (r : Nat) (s u : State) : KeepsOutputOrAccepts s (macAccept r u) :=
  .inr ⟨rfl, sourceStatus_mem _ _⟩

theorem macOutcomeNb_keepsOutputOrAccepts (r : Int) (s : State) : KeepsOutputOrAccepts s (macOutcomeNb r s) := by
  obtain ⟨_, e⟩ | ⟨_, _, e⟩ | ⟨_, _, e⟩ := macOutcomeNb_cases r s <;> rw [e]
  · exact .inl ⟨rfl, rfl⟩
  · exact macAccept_accepts _ _ _
  · exact .inl ⟨rfl, rfl⟩

theorem macOutcomeBl_keepsOutputOrAccepts {s again : State} (h : KeepsOutputOrAccepts s again) (r : Int) (pst : Status) :
    KeepsOutputOrAccepts s (macOutcomeBl again r pst s) := by
  obtain ⟨_, e⟩ | ⟨_, _, e⟩ | ⟨_, e⟩ := macOutcomeBl_cases again r pst s <;> rw [e]
  · exact .inl ⟨rfl, rfl⟩
  · exact macAccept_accepts _ _ _
  · exact h

theorem macRecvCommand_keepsOutputOrAccepts (C : Config) (blk : BitVec 2) (tdef : Bool) (s : State) :
    KeepsOutputOrAccepts s (macRecvCommand C blk tdef s) := by
  cases hb : resolveBlk blk s with
  | none =>
    simp only [macRecvCommand, hb]
    exact .inl ⟨rfl, rfl⟩
  | some m =>
    cases m with
    | nb =>
      rw [macRecvCommand_nb hb]
      exact .of_poll (macOutcomeNb_keepsOutputOrAccepts _ _)
    | bl =>
      simp only [macRecvCommand, hb]
      exact .inl ⟨rfl, rfl⟩

theorem macTopRound_keepsOutputOrAccepts (C : Config) (tmo : Word) (t0 : Nat) (s : State) :
    KeepsOutputOrAccepts s (macTopRound C tmo t0 s) := by
  simp only [macTopRound]
  split <;> exact .inl ⟨rfl, rfl⟩

theorem macPhyRound_keepsOutputOrAccepts (C : Config) (tmo : Word) (t0 : Nat) (s : State) :
    KeepsOutputOrAccepts s (macPhyRound C tmo t0 s.sampled) := by
  obtain ⟨_, e⟩ | ⟨_, out, _, e⟩ | ⟨_, _, e⟩ := phyReceiveRound_cases C .frm tmo t0 s <;> simp only [macPhyRound, e]
  · rw [macOutcomeBl_failure]
    exact .inl ⟨rfl, rfl⟩
  · exact KeepsOutputOrAccepts.of_poll (s := s.checked C) (macOutcomeBl_keepsOutputOrAccepts (.inl ⟨rfl, rfl⟩) _ _)
  · exact KeepsOutputOrAccepts.of_poll (s := s.checked C) (.inl ⟨rfl, rfl⟩)

/-- A step of a blocking MAC_RECV in progress is one of its rounds (R181, R183, R189). -/
theorem stepWith_macRecv_keepsOutputOrAccepts {C : Config} {s t : State} {tmo : Word} {t0 : Nat}
    (hreset : s.resetAsserted = false) (hrun : s.run = .macTop tmo t0 ∨ s.run = .macPhy tmo t0)
    (hstep : stepWith C s = .next t) : KeepsOutputOrAccepts s t := by
  rcases hrun with h | h <;>
    rw [stepWith_running hreset (by rw [h]; nofun), receiveRound, sampled_run, h] at hstep <;> cases hstep
  · exact macTopRound_keepsOutputOrAccepts C tmo t0 s.sampled
  · exact macPhyRound_keepsOutputOrAccepts C tmo t0 s

/-- Settles O47: a MAC_RECV keeps `OUTBUF` and `OUTSRC` or ends by an accepted frame, with none of the statuses named. -/
theorem macReceiveWritesOutputOnlyOnAcceptance : Obligations.MacReceiveWritesOutputOnlyOnAcceptance := by
  unfold Obligations.MacReceiveWritesOutputOnlyOnAcceptance
  constructor
  · intro C s blk tdef
    exact ⟨_, answers_of rfl, (macRecvCommand_keepsOutputOrAccepts C blk tdef s).keeps (by decide)⟩
  · intro C s t tmo t0 hreset hrun hstep
    exact (stepWith_macRecv_keepsOutputOrAccepts hreset hrun hstep).keeps (by decide)

/-! ## The refusal of MAC_SEND -/

/-- Settles O40: the size check comes before `phy_send` is invoked. -/
theorem macSendRefusesPayloadLongerThanM : Obligations.MacSendRefusesPayloadLongerThanM := by
  unfold Obligations.MacSendRefusesPayloadLongerThanM
  intro C dst size s h
  have hmax : s.macTxMax < size.toNat := h
  obtain ⟨_, e⟩ | ⟨hle, _⟩ | ⟨hle, _⟩ := macSendCommand_cases C dst size s
  · exact answers_of e
  · omega
  · omega

end Sys2Proof.Machine
end

section
/-! SUPPORT. INIT and the illegal commands (42_control.md): what INIT does on either side of its value check (R201 to R206),
and the end of a presented word that is no command (R205). -/
namespace Sys2Proof.Machine

/-! ## Presented words that are no command -/

/-- An idle block that takes a word which decodes to no command ends it as illegal, the port latched (R35, R205). -/
theorem stepWith_illegal {C : Config} {s : State} {cmd arg0 arg1 : Word} {rest : List HostAction} {e : DecodeError}
    (hreset : s.resetAsserted = false) (hrun : s.run = .idle) (hhost : s.host = .command cmd arg0 arg1 :: rest)
    (hdecode : decode cmd = .error e) :
    stepWith C s = .next (illegal (latch cmd arg0 arg1 { s.sampled with host := rest })) := by
  rw [stepWith_idle hreset hrun]
  simp only [idleStep, sampled_host, hhost, hdecode]

/-! ## INIT -/

/-- The configuration registers with the operands of an INIT in them (R203). -/
def State.configured (self dirid : Byte) (schreq : Scheme) (defblk : Mode) (s : State) : State :=
  { s with
    cfgSelf := self
    cfgM := s.arg0.setWidth 16
    cfgSchemeReq := schreq
    cfgDirid := dirid
    cfgDefblk := defblk
    cfgDeftmo := s.arg1 }

/-- Everything an INIT can do: its value check decides between the end of an illegal command and the configuration, the
cleared dynamic state and the result (R201 to R206). -/
theorem initCommand_cases (C : Config) (self dirid : Byte) (schreq : Scheme) (defblk : Mode) (s : State) :
    (C.maxpMax < s.arg0.toNat ∧ initCommand C self dirid schreq defblk s = illegal s) ∨
    (s.arg0.toNat ≤ C.maxpMax ∧ initCommand C self dirid schreq defblk s =
      finish 0 .noError (emitBufferDraws (clearDynamic C (s.configured self dirid schreq defblk)))) := by
  by_cases h : C.maxpMax < s.arg0.toNat
  · exact .inl ⟨h, if_pos h⟩
  · exact .inr ⟨Nat.le_of_not_lt h, if_neg h⟩

/-- A legal `ARG0` fits the 16 bits of `CFG_M`, so the register holds its value (R41, R203). -/
theorem configured_cfgM_toNat {C : Config} {s : State} (h : s.arg0.toNat ≤ C.maxpMax) (self dirid : Byte)
    (schreq : Scheme) (defblk : Mode) : (s.configured self dirid schreq defblk).cfgM.toNat = s.arg0.toNat :=
  (BitVec.toNat_setWidth 16 s.arg0).trans (Nat.mod_eq_of_lt (by have := C.maxpMax_le; omega))

/-- Settles O7: the decoder refuses the word, or INIT's value check its argument, and either way the command ends there;
each word of R207 has its check of the decoder (R91, R92, R95). -/
theorem illegalCommandsEndWithUnknownError : Obligations.IllegalCommandsEndWithUnknownError := by
  unfold Obligations.IllegalCommandsEndWithUnknownError
  refine ⟨?_, ?_, ?_⟩
  · intro C s cmd arg0 arg1 rest e hreset hrun hhost hdecode
    have step := stepWith_illegal (C := C) hreset hrun hhost hdecode
    exact stepsTo_of step
  · intro C self dirid schreq defblk s h
    obtain ⟨_, e⟩ | ⟨hle, _⟩ := initCommand_cases C self dirid schreq defblk s
    · exact answers_of e
    · omega
  · simp only [List.forall_mem_cons]
    exact ⟨⟨.reservedOp, rfl⟩, ⟨.reservedOp, rfl⟩, ⟨.illegalBlk, rfl⟩, ⟨.mustBeZero, rfl⟩, ⟨.mustBeZero, rfl⟩,
      ⟨.mustBeZero, rfl⟩, ⟨.mustBeZero, rfl⟩, nofun⟩

/-- Settles O14: past the value check INIT takes its operands and clears the rest, and each buffer is a drawn array. -/
theorem initConfiguresAndClears : Obligations.InitConfiguresAndClears := by
  unfold Obligations.InitConfiguresAndClears
  intro C self dirid schreq defblk s h
  obtain ⟨_, _⟩ | ⟨_, e⟩ := initCommand_cases C self dirid schreq defblk s
  · omega
  · exact ⟨_, answers_of e, configured_cfgM_toNat h self dirid schreq defblk, rfl,
      drawnArray_inv C _ _, drawnArray_inv C _ _, drawnArray_inv C _ _⟩

end Sys2Proof.Machine
end

section
/-! SUPPORT. The command word (30_encoding.md R90, R91): a word is its fields side by side, so putting fields together and
taking them apart undo each other; and the words of some assembler lines (R99). -/
namespace Sys2Proof

/-! ## One-bit operands -/

theorem bit_cases (b : BitVec 1) : b = 0#1 ∨ b = 1#1 := by
  revert b
  decide

@[simp] theorem Scheme.ofBit_bit (x : Scheme) : Scheme.ofBit x.bit = x := by cases x <;> rfl

@[simp] theorem Scheme.bit_ofBit (b : BitVec 1) : (Scheme.ofBit b).bit = b := by
  rcases bit_cases b with rfl | rfl <;> rfl

@[simp] theorem Mode.ofBit_bit (x : Mode) : Mode.ofBit x.bit = x := by cases x <;> rfl

@[simp] theorem Mode.bit_ofBit (b : BitVec 1) : (Mode.ofBit b).bit = b := by
  rcases bit_cases b with rfl | rfl <;> rfl

@[simp] theorem tdefBit_beq_one (t : Bool) : (tdefBit t == 1#1) = t := by cases t <;> rfl

@[simp] theorem tdefBit_of_beq (b : BitVec 1) : tdefBit (b == 1#1) = b := by
  rcases bit_cases b with rfl | rfl <;> rfl

/-! ## Fields side by side -/

/-- Two concatenations of the same widths agree when their parts do. -/
theorem append_eq_append_iff {v w : Nat} {a c : BitVec v} {b d : BitVec w} : a ++ b = c ++ d ↔ a = c ∧ b = d := by
  constructor
  · intro h
    have upper := congrArg (BitVec.extractLsb' w v) h
    have lower := congrArg (BitVec.extractLsb' 0 w) h
    rw [BitVec.extractLsb'_append_eq_left, BitVec.extractLsb'_append_eq_left] at upper
    rw [BitVec.extractLsb'_append_eq_right, BitVec.extractLsb'_append_eq_right] at lower
    exact ⟨upper, lower⟩
  · rintro ⟨rfl, rfl⟩
    rfl

/-- Two neighbouring fields are one field. -/
theorem extractLsb'_join (w : Word) {hi lo n m : Nat} (h : hi = lo + m) :
    w.extractLsb' hi n ++ w.extractLsb' lo m = w.extractLsb' lo (n + m) :=
  BitVec.extractLsb'_append_extractLsb'_eq_extractLsb' h

theorem initFields_append (w : Word) :
    fieldOp w ++ w.extractLsb' 24 4 ++ fieldAddr w ++ fieldDirid w ++ w.extractLsb' 2 6 ++ fieldSchreq w ++
      fieldDefblk w = w := by
  unfold fieldOp fieldAddr fieldDirid fieldSchreq fieldDefblk
  rw [extractLsb'_join, extractLsb'_join, extractLsb'_join, extractLsb'_join, extractLsb'_join, extractLsb'_join, BitVec.extractLsb'_eq_self] <;> rfl

theorem phySendFields_append (w : Word) : fieldOp w ++ w.extractLsb' 16 12 ++ fieldSize w = w := by
  unfold fieldOp fieldSize
  rw [extractLsb'_join, extractLsb'_join, BitVec.extractLsb'_eq_self] <;> rfl

theorem recvFields_append (w : Word) : fieldOp w ++ fieldBlk w ++ fieldTdef w ++ w.extractLsb' 0 25 = w := by
  unfold fieldOp fieldBlk fieldTdef
  rw [extractLsb'_join, extractLsb'_join, extractLsb'_join, BitVec.extractLsb'_eq_self] <;> rfl

theorem macSendFields_append (w : Word) : fieldOp w ++ w.extractLsb' 24 4 ++ fieldAddr w ++ fieldSize w = w := by
  unfold fieldOp fieldAddr fieldSize
  rw [extractLsb'_join, extractLsb'_join, extractLsb'_join, BitVec.extractLsb'_eq_self] <;> rfl

/-! ## When a word is the encoding of a command -/

theorem eq_encode_init_iff (self dirid : Byte) (schreq : Scheme) (defblk : Mode) (w : Word) :
    w = encode (.init self dirid schreq defblk) ↔
      fieldOp w = 0x1#4 ∧ w.extractLsb' 24 4 = 0#4 ∧ fieldAddr w = self ∧ fieldDirid w = dirid ∧
        w.extractLsb' 2 6 = 0#6 ∧ fieldSchreq w = schreq.bit ∧ fieldDefblk w = defblk.bit := by
  conv_lhs => rw [← initFields_append w, encode]
  iterate 6 rw [append_eq_append_iff]
  simp only [and_assoc]

theorem eq_encode_phySend_iff (size : BitVec 16) (w : Word) :
    w = encode (.phySend size) ↔ fieldOp w = 0x2#4 ∧ w.extractLsb' 16 12 = 0#12 ∧ fieldSize w = size := by
  conv_lhs => rw [← phySendFields_append w, encode]
  iterate 2 rw [append_eq_append_iff]
  simp only [and_assoc]

theorem eq_encode_macSend_iff (dst : Byte) (size : BitVec 16) (w : Word) :
    w = encode (.macSend dst size) ↔
      fieldOp w = 0x4#4 ∧ w.extractLsb' 24 4 = 0#4 ∧ fieldAddr w = dst ∧ fieldSize w = size := by
  conv_lhs => rw [← macSendFields_append w, encode]
  iterate 3 rw [append_eq_append_iff]
  simp only [and_assoc]

/-- The two receive commands differ in `OP` alone. -/
theorem eq_recvWord_iff (op : BitVec 4) (blk : BitVec 2) (tdef : Bool) (w : Word) :
    w = op ++ blk ++ tdefBit tdef ++ 0#25 ↔
      fieldOp w = op ∧ fieldBlk w = blk ∧ fieldTdef w = tdefBit tdef ∧ w.extractLsb' 0 25 = 0#25 := by
  conv_lhs => rw [← recvFields_append w]
  iterate 3 rw [append_eq_append_iff]
  simp only [and_assoc]

/-- Settles O2: the fields of the encoding are the operands, and the checks of the decoder find them in place. -/
theorem decodeInvertsEncode : Obligations.DecodeInvertsEncode := by
  unfold Obligations.DecodeInvertsEncode
  intro i hi
  cases i with
  | init self dirid schreq defblk =>
    obtain ⟨hop, h24, haddr, hdirid, h2, hschreq, hdefblk⟩ := (eq_encode_init_iff self dirid schreq defblk _).1 rfl
    simp [decode, hop, decodeInit, h24, h2, haddr, hdirid, hschreq, hdefblk]
  | phySend size =>
    obtain ⟨hop, h16, hsize⟩ := (eq_encode_phySend_iff size _).1 rfl
    simp [decode, hop, decodePhySend, h16, hsize]
  | phyRecv blk tdef =>
    obtain ⟨hop, hblk, htdef, h0⟩ := (eq_recvWord_iff 0x3#4 blk tdef (encode (.phyRecv blk tdef))).1 rfl
    have hlegal : blkLegal (fieldBlk (encode (.phyRecv blk tdef))) = true := by rwa [hblk]
    simp [decode, hop, decodeRecv_of_fields h0 hlegal, hblk, htdef]
  | macSend dst size =>
    obtain ⟨hop, h24, haddr, hsize⟩ := (eq_encode_macSend_iff dst size _).1 rfl
    simp [decode, hop, decodeMacSend, h24, haddr, hsize]
  | macRecv blk tdef =>
    obtain ⟨hop, hblk, htdef, h0⟩ := (eq_recvWord_iff 0x5#4 blk tdef (encode (.macRecv blk tdef))).1 rfl
    have hlegal : blkLegal (fieldBlk (encode (.macRecv blk tdef))) = true := by rwa [hblk]
    simp [decode, hop, decodeRecv_of_fields h0 hlegal, hblk, htdef]

/-- Settles O3: the decoder fixes every field of the word, those it reads as operands and those that must be 0. -/
theorem encodeInvertsDecode : Obligations.EncodeInvertsDecode := by
  unfold Obligations.EncodeInvertsDecode
  intro w i h
  obtain ⟨hop, h24, h2, rfl⟩ | ⟨hop, h16, rfl⟩ | ⟨hop, h0, hlegal, rfl⟩ | ⟨hop, h24, rfl⟩ | ⟨hop, h0, hlegal, rfl⟩ :=
    decode_ok_cases h
  · exact ⟨rfl, ((eq_encode_init_iff _ _ _ _ w).2 ⟨hop, h24, rfl, rfl, h2, by simp, by simp⟩).symm⟩
  · exact ⟨rfl, ((eq_encode_phySend_iff _ w).2 ⟨hop, h16, rfl⟩).symm⟩
  · exact ⟨hlegal, ((eq_recvWord_iff _ _ _ w).2 ⟨hop, rfl, by simp, h0⟩).symm⟩
  · exact ⟨rfl, ((eq_encode_macSend_iff _ _ w).2 ⟨hop, h24, rfl, rfl⟩).symm⟩
  · exact ⟨hlegal, ((eq_recvWord_iff _ _ _ w).2 ⟨hop, rfl, by simp, h0⟩).symm⟩

/-! ## Words written out -/

/-- Settles O1: each word is read field by field. -/
theorem writtenWordsDecodeToTheirCommands : Obligations.WrittenWordsDecodeToTheirCommands := by
  unfold Obligations.WrittenWordsDecodeToTheirCommands
  exact ⟨rfl, rfl, rfl, rfl, rfl, rfl, rfl⟩

/-- Settles O5: a pseudo-command assembles as the line it expands to, and each basic line to its encoding. -/
theorem assemblerLinesHaveTheirWords : Obligations.AssemblerLinesHaveTheirWords := by
  unfold Obligations.AssemblerLinesHaveTheirWords
  exact ⟨rfl, rfl, fun _ => rfl, rfl, rfl, rfl, rfl, rfl, rfl⟩

end Sys2Proof
end

section
/-! SUPPORT. A blocking receive in progress (40_phy_framer.md R151 to R155, 41_mac_layer.md R183 to R189): what one step of it
can do, the deadline over several steps, and the loops of the spec's pseudocode. -/
namespace Sys2Proof.Machine

/-! ## What one step of a receive in progress can do -/

/-- A blocking receive with the working values `tmo` and `t0` is in progress (R58). -/
def State.receives (tmo : Word) (t0 : Nat) (s : State) : Prop :=
  s.run = .phyRecv tmo t0 ∨ s.run = .macTop tmo t0 ∨ s.run = .macPhy tmo t0

/-- The outcomes of a poll that end a receive in blocking mode are not `Timeout` (R146). -/
theorem PollCase.blocking_ne_timeout {c : PollCase} {out : Int × Status} (h : c.blocking = some out) :
    out.2 ≠ .timeout := by
  obtain rfl | ⟨n, _, rfl⟩ := PollCase.blocking_status h <;> nofun

theorem sourceStatus_ne_timeout (self src : Byte) : sourceStatus self src ≠ .timeout := fun h => by
  have hmem := sourceStatus_mem self src
  rw [h] at hmem
  revert hmem
  decide

/-- What the MAC makes of an outcome other than `Timeout` is none either, or its loop goes on (R184 to R188). -/
theorem macOutcomeBl_ne_timeout (again : State) (r : Int) {pst : Status} (s : State) (h : pst ≠ .timeout) :
    ((macOutcomeBl again r pst s).run = .idle ∧ (macOutcomeBl again r pst s).rstat ≠ .timeout) ∨
      macOutcomeBl again r pst s = again := by
  obtain ⟨_, e⟩ | ⟨_, _, e⟩ | ⟨_, e⟩ := macOutcomeBl_cases again r pst s <;> rw [e]
  · exact .inl ⟨rfl, h⟩
  · exact .inl ⟨rfl, sourceStatus_ne_timeout _ _⟩
  · exact .inr rfl

/-- A step of a receive in progress ends it by the deadline, ends it by a byte received inside a frame, or goes on with the
same working values (R152, R155). -/
theorem stepWith_receives_cases {C : Config} {s t : State} {tmo : Word} {t0 : Nat} (hr : s.resetAsserted = false)
    (hrun : s.receives tmo t0) (h : stepWith C s = .next t) :
    (tmo.toNat < s.elapsedNext C t0 ∧ t.run = .idle ∧ t.rstat = .timeout) ∨
    (s.elapsedNext C t0 ≤ tmo.toNat ∧ t.run = .idle ∧ t.rstat ≠ .timeout ∧
      ∃ b, s.rx.headD none = some b ∧ s.sync = true) ∨
    (s.elapsedNext C t0 ≤ tmo.toNat ∧ t.receives tmo t0) := by
  rcases Nat.lt_or_ge tmo.toNat (s.elapsedNext C t0) with he | he
  · refine .inl ⟨he, ?_⟩
    rcases hrun with hrun | hrun | hrun
    · cases (stepWith_phyRecv_timeout hr hrun he).symm.trans h
      exact ⟨rfl, rfl⟩
    · cases (stepWith_macTop_timeout hr hrun he).symm.trans h
      exact ⟨rfl, rfl⟩
    · cases (stepWith_macPhy_timeout hr hrun he).symm.trans h
      exact ⟨rfl, rfl⟩
  refine .inr ?_
  rcases hrun with hrun | hrun | hrun
  · cases hb : (phyPoll C .outbuf (s.checked C)).1.blocking with
    | some out =>
      cases (stepWith_phyRecv_done hr hrun he hb).symm.trans h
      exact .inl ⟨he, rfl, PollCase.blocking_ne_timeout hb, phyPoll_blocking_some (s := s.checked C) hb⟩
    | none =>
      cases (stepWith_phyRecv_continue hr hrun he hb).symm.trans h
      exact .inr ⟨he, .inl ((phyPoll_run C _ _).trans hrun)⟩
  · cases (stepWith_macTop_continue hr hrun he).symm.trans h
    exact .inr ⟨he, .inr (.inr rfl)⟩
  · cases hb : (phyPoll C .frm (s.checked C)).1.blocking with
    | some out =>
      cases (stepWith_macPhy_done hr hrun he hb).symm.trans h
      obtain ⟨hidle, hst⟩ | hagain := macOutcomeBl_ne_timeout
        { (phyPoll C .frm (s.checked C)).2 with phySt := out.2, run := .macTop tmo t0 } out.1
        { (phyPoll C .frm (s.checked C)).2 with phySt := out.2 } (PollCase.blocking_ne_timeout hb)
      · exact .inl ⟨he, hidle, hst, phyPoll_blocking_some (s := s.checked C) hb⟩
      · exact .inr ⟨he, .inr (.inl (by rw [hagain]))⟩
    | none =>
      cases (stepWith_macPhy_continue hr hrun he hb).symm.trans h
      exact .inr ⟨he, .inr (.inr ((phyPoll_run C _ _).trans hrun))⟩

/-! ## What no step of a receive in progress touches -/

/-- A round leads from `s` to `t`: the host's side, the configuration, the direction and the scratch stay, the clock was read
once, and the result stays unless the receive ends (R34, R36, R249). -/
structure RoundKeeps (C : Config) (s t : State) : Prop where
  frame : t = { s.checked C with
    phySt := t.phySt, macSt := t.macSt, sync := t.sync, len := t.len, acc := t.acc, taint := t.taint
    frm := t.frm, outbuf := t.outbuf, outsrc := t.outsrc, ret := t.ret, rstat := t.rstat, run := t.run
    rx := t.rx, trace := t.trace, draws := t.draws }
  result : t.run ≠ .idle → t.ret = s.ret ∧ t.rstat = s.rstat

theorem phyRecvRound_keeps (C : Config) (tmo : Word) (t0 : Nat) (s : State) :
    RoundKeeps C s (phyRecvRound C tmo t0 s.sampled) := by
  simp only [phyRecvRound]
  obtain ⟨_, e⟩ | ⟨_, out, _, e⟩ | ⟨_, _, e⟩ := phyReceiveRound_cases C .outbuf tmo t0 s <;> simp only [e]
  · exact ⟨rfl, nofun⟩
  · rw [phyPoll_frame]
    exact ⟨rfl, nofun⟩
  · rw [phyPoll_frame]
    exact ⟨rfl, fun _ => ⟨rfl, rfl⟩⟩

theorem macTopRound_keeps (C : Config) (tmo : Word) (t0 : Nat) (s : State) :
    RoundKeeps C s (macTopRound C tmo t0 s.sampled) := by
  simp only [macTopRound]
  split
  · exact ⟨rfl, nofun⟩
  · exact ⟨rfl, fun _ => ⟨rfl, rfl⟩⟩

theorem macPhyRound_keeps (C : Config) (tmo : Word) (t0 : Nat) (s : State) :
    RoundKeeps C s (macPhyRound C tmo t0 s.sampled) := by
  simp only [macPhyRound]
  obtain ⟨_, e⟩ | ⟨_, out, _, e⟩ | ⟨_, _, e⟩ := phyReceiveRound_cases C .frm tmo t0 s <;> simp only [e]
  · rw [macOutcomeBl_failure]
    exact ⟨rfl, nofun⟩
  · obtain ⟨_, e⟩ | ⟨_, _, e⟩ | ⟨_, e⟩ := macOutcomeBl_cases
      { (phyPoll C .frm (s.checked C)).2 with phySt := out.2, run := .macTop tmo t0 } out.1 out.2
      { (phyPoll C .frm (s.checked C)).2 with phySt := out.2 } <;> rw [e, phyPoll_frame]
    · exact ⟨rfl, nofun⟩
    · exact ⟨rfl, nofun⟩
    · exact ⟨rfl, fun _ => ⟨rfl, rfl⟩⟩
  · rw [phyPoll_frame]
    exact ⟨rfl, fun _ => ⟨rfl, rfl⟩⟩

theorem stepWith_running_keeps {C : Config} {s t : State} (hr : s.resetAsserted = false) (hrun : s.run ≠ .idle)
    (h : stepWith C s = .next t) : RoundKeeps C s t := by
  rw [stepWith_running hr hrun] at h
  cases h
  cases hs : s.run with
  | idle => exact absurd hs hrun
  | phyRecv tmo t0 =>
    rw [receiveRound, sampled_run, hs]
    exact phyRecvRound_keeps C tmo t0 s
  | macTop tmo t0 =>
    rw [receiveRound, sampled_run, hs]
    exact macTopRound_keeps C tmo t0 s
  | macPhy tmo t0 =>
    rw [receiveRound, sampled_run, hs]
    exact macPhyRound_keeps C tmo t0 s

/-- Settles O10: a step of a receive in progress is one of its rounds. -/
theorem noCommandIsTakenWhileOneRuns : Obligations.NoCommandIsTakenWhileOneRuns := by
  unfold Obligations.NoCommandIsTakenWhileOneRuns
  intro C s hr hrun
  obtain ⟨t, ht⟩ := stepWith_next C s
  obtain ⟨hframe, hresult⟩ := stepWith_running_keeps hr hrun ht
  refine ⟨t, stepsTo_of ht, ?_, ?_, ?_, ?_, ?_, hresult⟩ <;> rw [hframe] <;> rfl

/-! ## The deadline -/

theorem State.receives.running {tmo : Word} {t0 : Nat} {s : State} (h : s.receives tmo t0) : s.run ≠ .idle := by
  rcases h with h | h | h <;> rw [h] <;> nofun

/-- A clock that stands at or past the start time modulo `2^CLK_W` shows at most the time that has passed (R151). -/
theorem elapsed_le_sub (C : Config) {c0 c : Nat} (h : c0 ≤ c) :
    elapsed C (c % 2 ^ C.clkW) (c0 % 2 ^ C.clkW) ≤ c - c0 := by
  have hmod : ((c : Int) - ((c0 % 2 ^ C.clkW : Nat) : Int)) % 2 ^ C.clkW = (((c - c0) % 2 ^ C.clkW : Nat) : Int) := by
    rw [Int.natCast_emod, Int.natCast_emod, Int.natCast_pow, Nat.cast_ofNat, Int.sub_emod_emod, Int.ofNat_sub h]
  have heq := Int.ofNat.inj ((elapsed_eq C c (c0 % 2 ^ C.clkW)).trans hmod)
  exact heq.trans_le (Nat.mod_le _ _)

/-- Settles O36: only the deadline ends a receive with `Timeout`, and the check shows no more than has passed. -/
theorem noTimeoutBeforeTheDeadline : Obligations.NoTimeoutBeforeTheDeadline := by
  unfold Obligations.NoTimeoutBeforeTheDeadline
  intro C s t tmo c0 hr hc0 hrun hstep hidle hst
  have hclock : t.clock = s.clockNext := by
    rw [(stepWith_running_keeps hr (State.receives.running hrun) hstep).frame]
    rfl
  obtain ⟨hexpired, _⟩ | ⟨_, _, hne, _⟩ | ⟨_, hgoes⟩ := stepWith_receives_cases hr hrun hstep
  · have hpassed : s.elapsedNext C (c0 % 2 ^ C.clkW) ≤ s.clockNext - c0 :=
      elapsed_le_sub C (hc0.trans (Nat.le_add_right _ _))
    omega
  · exact absurd hst hne
  · exact absurd hidle hgoes.running

/-- Settles O37: no check can show more than `2^CLK_W - 1`, so the deadline does not end the receive. -/
theorem longestTimeoutNeverExpires : Obligations.LongestTimeoutNeverExpires := by
  unfold Obligations.LongestTimeoutNeverExpires
  intro C s t tmo t0 hr hrun htmo hstep hidle
  obtain ⟨hexpired, _⟩ | ⟨_, _, hne, hbyte⟩ | ⟨_, hgoes⟩ := stepWith_receives_cases hr hrun hstep
  · have hlt : s.elapsedNext C t0 < 2 ^ C.clkW := elapsed_lt C _ t0
    omega
  · exact ⟨hne, hbyte⟩
  · exact absurd hidle hgoes.running

theorem take_succ_sum (l : List Nat) (k : Nat) : (l.take (k + 1)).sum = l.headD 0 + (l.tail.take k).sum := by
  cases l <;> simp

/-- Reset stays away from this step, and from the `k` after it. -/
theorem released_of_take {s : State} {k : Nat} (h : ∀ level ∈ s.resetIn.take (k + 1), level = .released) :
    s.resetAsserted = false ∧ ∀ level ∈ s.resetIn.tail.take k, level = .released := by
  cases hr : s.resetIn with
  | nil => exact ⟨by simp [State.resetAsserted, State.resetNow, hr], by simp⟩
  | cons level rest =>
    rw [hr, List.take_succ_cons, List.forall_mem_cons] at h
    exact ⟨by simp [State.resetAsserted, State.resetNow, hr, h.1], h.2⟩

/-- A receive in progress ends within `k + 1` steps when the deadline check of the last of them would see it expired. -/
theorem runWith_receives_ends {C : Config} {tmo : Word} {t0 : Nat} (k : Nat) {s : State} (hrun : s.receives tmo t0)
    (hreset : ∀ level ∈ s.resetIn.take (k + 1), level = .released)
    (hlate : (tmo.toNat : Int) < (((s.clock + (s.ticks.take (k + 1)).sum : Nat) : Int) - t0) % 2 ^ C.clkW) :
    ∃ n t, n ≤ k + 1 ∧ runWith C n s = .next t ∧ t.run = .idle := by
  induction k generalizing s with
  | zero =>
    obtain ⟨t, ht⟩ := stepWith_next C s
    have hr := (released_of_take hreset).1
    have hone : runWith C 1 s = .next t := runWith_succ 0 ht
    obtain ⟨_, hidle, _⟩ | ⟨_, hidle, _⟩ | ⟨hunder, _⟩ := stepWith_receives_cases hr hrun ht
    · exact ⟨1, t, le_rfl, hone, hidle⟩
    · exact ⟨1, t, le_rfl, hone, hidle⟩
    · rw [take_succ_sum, List.take_zero, List.sum_nil, Nat.add_zero] at hlate
      have hseen : (s.elapsedNext C t0 : Int) = _ := elapsed_eq C s.clockNext t0
      rw [State.clockNext] at hseen
      omega
  | succ k ih =>
    obtain ⟨t, ht⟩ := stepWith_next C s
    obtain ⟨hr, hlater⟩ := released_of_take hreset
    have hone : runWith C 1 s = .next t := runWith_succ 0 ht
    obtain ⟨_, hidle, _⟩ | ⟨_, hidle, _⟩ | ⟨_, hgoes⟩ := stepWith_receives_cases hr hrun ht
    · exact ⟨1, t, by omega, hone, hidle⟩
    · exact ⟨1, t, by omega, hone, hidle⟩
    · have hframe := (stepWith_running_keeps hr hrun.running ht).frame
      have hclock : t.clock = s.clock + s.ticks.headD 0 := by rw [hframe]; rfl
      have hticks : t.ticks = s.ticks.tail := by rw [hframe]; rfl
      have hresetIn : t.resetIn = s.resetIn.tail := by rw [hframe]; rfl
      rw [take_succ_sum, ← Nat.add_assoc, ← hclock, ← hticks] at hlate
      obtain ⟨n, u, hn, hu, hidle⟩ := ih hgoes (by rwa [hresetIn]) hlate
      exact ⟨n + 1, u, by omega, by rw [runWith_succ n ht, hu], hidle⟩

/-- Settles O38, by induction on the number of clock readings before the one that is late. -/
theorem blockingReceiveEndsOnceTheClockPassesTheDeadline :
    Obligations.BlockingReceiveEndsOnceTheClockPassesTheDeadline := by
  unfold Obligations.BlockingReceiveEndsOnceTheClockPassesTheDeadline
  intro C k s tmo t0 hrun hreset hlate
  exact runWith_receives_ends k hrun hreset hlate

end Sys2Proof.Machine
end

section
/-! SUPPORT. The steps of a blocking receive against the loops of the spec's pseudocode (40_phy_framer.md R153, 41_mac_layer.md
R189): a round of the loop is a step, in a run in which the reset input stays away. -/
namespace Sys2Proof.Machine

/-! ## Without reset -/

theorem sampled_of_resetIn_nil {s : State} (h : s.resetIn = []) : s.sampled = s := by
  rw [State.sampled, h, List.tail_nil, ← h]

theorem not_asserted_of_resetIn_nil {s : State} (h : s.resetIn = []) : s.resetAsserted = false := by
  rw [State.resetAsserted, State.resetNow, h]
  rfl

theorem checked_resetIn_nil {s : State} (C : Config) (h : s.resetIn = []) : (s.checked C).resetIn = [] := by
  rw [checked_resetIn, h, List.tail_nil]

theorem phyPoll_resetIn (C : Config) (d : Dest) (s : State) : (phyPoll C d s).2.resetIn = s.resetIn := by
  rw [phyPoll_frame]
  rfl

theorem now_of_resetIn_nil {s : State} (C : Config) (h : s.resetIn = []) : now C s = (s.nowNext C, s.checked C) := by
  rw [← now_sampled, sampled_of_resetIn_nil h]

/-! ## A round of the PHY's loop -/

/-- Where the loop ends with `out`, its first round times out, ends by its poll, or leaves it to the other rounds. -/
theorem phyReceiveLoop_cases {C : Config} {d : Dest} {tmo : Word} {t0 bound : Nat} {s u : State} {out : Int × Status}
    (hreset : s.resetIn = []) (h : phyReceiveLoop C d tmo t0 bound s = some (out, u)) :
    ∃ rest, bound = rest + 1 ∧
      ((tmo.toNat < s.elapsedNext C t0 ∧ out = (-1, .timeout) ∧ u = { s.checked C with phySt := .timeout }) ∨
       (s.elapsedNext C t0 ≤ tmo.toNat ∧ (phyPoll C d (s.checked C)).1.blocking = some out ∧
         u = { (phyPoll C d (s.checked C)).2 with phySt := out.2 }) ∨
       (s.elapsedNext C t0 ≤ tmo.toNat ∧ (phyPoll C d (s.checked C)).1.blocking = none ∧
         phyReceiveLoop C d tmo t0 rest (phyPoll C d (s.checked C)).2 = some (out, u))) := by
  cases bound with
  | zero => cases h
  | succ rest =>
    refine ⟨rest, rfl, ?_⟩
    simp only [phyReceiveLoop, now_of_resetIn_nil C hreset] at h
    split at h
    next expired =>
      cases h
      exact .inl ⟨expired, rfl, rfl⟩
    next under =>
      split at h
      next hout =>
        cases h
        exact .inr (.inl ⟨Nat.le_of_not_lt under, hout, rfl⟩)
      next hnone => exact .inr (.inr ⟨Nat.le_of_not_lt under, hnone, h⟩)

/-- The loop leaves the receive in progress and the reset input as they are. -/
theorem phyReceiveLoop_keeps {C : Config} {d : Dest} {tmo : Word} {t0 bound : Nat} {s u : State} {out : Int × Status}
    (hreset : s.resetIn = []) (h : phyReceiveLoop C d tmo t0 bound s = some (out, u)) :
    u.run = s.run ∧ u.resetIn = [] := by
  induction bound generalizing s with
  | zero => cases h
  | succ bound ih =>
    have hchecked := checked_resetIn_nil C hreset
    have hpoll := (phyPoll_resetIn C d (s.checked C)).trans hchecked
    obtain ⟨_, ⟨⟩, ⟨_, _, rfl⟩ | ⟨_, _, rfl⟩ | ⟨_, _, hrest⟩⟩ := phyReceiveLoop_cases hreset h
    · exact ⟨rfl, hchecked⟩
    · exact ⟨phyPoll_run C d _, hpoll⟩
    · obtain ⟨hrun, hres⟩ := ih hpoll hrest
      exact ⟨hrun.trans (phyPoll_run C d _), hres⟩

/-- The steps of a blocking PHY_RECV do what its loop does, a round a step (R153). -/
theorem runWith_phyReceiveLoop {C : Config} {tmo : Word} {t0 bound : Nat} {s u : State} {out : Int × Status}
    (hrun : s.run = .phyRecv tmo t0) (hreset : s.resetIn = [])
    (h : phyReceiveLoop C .outbuf tmo t0 bound s = some (out, u)) :
    ∃ n, n ≤ bound ∧ runWith C n s = .next (finish out.1 out.2 u) := by
  induction bound generalizing s with
  | zero => cases h
  | succ bound ih =>
    have hr := not_asserted_of_resetIn_nil hreset
    have hpoll := (phyPoll_resetIn C .outbuf (s.checked C)).trans (checked_resetIn_nil C hreset)
    obtain ⟨_, ⟨⟩, ⟨he, rfl, rfl⟩ | ⟨he, hout, rfl⟩ | ⟨he, hnone, hrest⟩⟩ := phyReceiveLoop_cases hreset h
    · exact ⟨1, by omega, runWith_succ 0 (stepWith_phyRecv_timeout hr hrun he)⟩
    · exact ⟨1, by omega, runWith_succ 0 (stepWith_phyRecv_done hr hrun he hout)⟩
    · obtain ⟨n, hn, hsteps⟩ := ih ((phyPoll_run C _ (s.checked C)).trans hrun) hpoll hrest
      exact ⟨n + 1, by omega, by rw [runWith_succ n (stepWith_phyRecv_continue hr hrun he hnone), hsteps]⟩

/-! ## The MAC's loop around it -/

/-- A blocking MAC_RECV inside its PHY receive does what that loop does, and then what the MAC makes of its outcome (R184 to
R189). -/
theorem runWith_macPhyLoop {C : Config} {tmo : Word} {t0 bound : Nat} {s u : State} {out : Int × Status}
    (hreset : s.resetIn = []) (h : phyReceiveLoop C .frm tmo t0 bound s = some (out, u)) :
    ∃ n, runWith C n { s with run := .macPhy tmo t0 } =
      .next (macOutcomeBl { u with run := .macTop tmo t0 } out.1 out.2 u) := by
  induction bound generalizing s with
  | zero => cases h
  | succ bound ih =>
    have hr : State.resetAsserted { s with run := .macPhy tmo t0 } = false := not_asserted_of_resetIn_nil hreset
    have hpoll : phyPoll C .frm (State.checked C { s with run := .macPhy tmo t0 }) = _ :=
      phyPoll_withRun C .frm (s.checked C) (.macPhy tmo t0)
    obtain ⟨_, ⟨⟩, ⟨he, rfl, rfl⟩ | ⟨he, hout, rfl⟩ | ⟨he, hnone, hrest⟩⟩ := phyReceiveLoop_cases hreset h
    · have hstep := stepWith_macPhy_timeout hr rfl he
      exact ⟨1, (runWith_succ 0 hstep).trans (by rw [macOutcomeBl_failure]; rfl)⟩
    · have hstep := stepWith_macPhy_done (out := out) hr rfl he (by rw [hpoll]; exact hout)
      exact ⟨1, (runWith_succ 0 hstep).trans (by rw [hpoll]; rfl)⟩
    · have hstep := stepWith_macPhy_continue hr rfl he (by rw [hpoll]; exact hnone)
      obtain ⟨n, hn⟩ := ih ((phyPoll_resetIn C .frm (s.checked C)).trans (checked_resetIn_nil C hreset)) hrest
      exact ⟨n + 1, (runWith_succ n hstep).trans (by rw [hpoll]; exact hn)⟩

/-- An accepted frame ends MAC_RECV with the length less the header, as an integer (R187, R188). -/
theorem macOutcomeBl_accepted {r : Int} {s : State} (hlen : 2 ≤ r) (hdst : s.frm.read 0 = s.cfgSelf ∨ s.frm.read 0 = bcast)
    (again : State) (pst : Status) :
    macOutcomeBl again r pst s = macFinish (r - 2) (sourceStatus s.cfgSelf (s.frm.read 1)) { s with
      outbuf := s.outbuf.writeBytes 0 (s.frm.readBytes 2 (r.toNat - 2)), outsrc := s.frm.read 1 } := by
  have haccepts : macAccepts r.toNat s = true := (macAccepts_iff _ s).2 ⟨by omega, hdst⟩
  have hsub : ((r.toNat - 2 : Nat) : Int) = r - 2 := by omega
  rw [macOutcomeBl, if_neg (by omega), if_neg (by omega), if_pos haccepts, macAccept, hsub]

/-- A frame the filter drops lets the loop go on (R185, R186). -/
theorem macOutcomeBl_dropped {r : Int} {s : State} (hr : 0 < r)
    (h : ¬(2 ≤ r ∧ (s.frm.read 0 = s.cfgSelf ∨ s.frm.read 0 = bcast))) (again : State) (pst : Status) :
    macOutcomeBl again r pst s = again := by
  have hrejects : ¬macAccepts r.toNat s = true := fun ha =>
    h ⟨by have := ((macAccepts_iff _ s).1 ha).1; omega, ((macAccepts_iff _ s).1 ha).2⟩
  rw [macOutcomeBl, if_neg (by omega), if_neg (by omega), if_neg hrejects]

/-- One iteration of the MAC's loop: its deadline check ends it, or its PHY receive ends with `out`, of which the MAC makes an
end, or which it drops (R184 to R189). -/
theorem macReceiveLoop_cases {C : Config} {tmo : Word} {t0 inner bound : Nat} {s t : State} (hreset : s.resetIn = [])
    (h : macReceiveLoop C tmo t0 inner bound s = some t) :
    ∃ rest, bound = rest + 1 ∧
      ((tmo.toNat < s.elapsedNext C t0 ∧ t = macFinish (-1) .timeout (s.checked C)) ∨
       (s.elapsedNext C t0 ≤ tmo.toNat ∧
         ∃ out u, phyReceiveLoop C .frm tmo t0 inner (s.checked C) = some (out, u) ∧
          ((t.run = .idle ∧ ∀ again, macOutcomeBl again out.1 out.2 u = t) ∨
           (macReceiveLoop C tmo t0 inner rest u = some t ∧ ∀ again, macOutcomeBl again out.1 out.2 u = again)))) := by
  cases bound with
  | zero => cases h
  | succ rest =>
    refine ⟨rest, rfl, ?_⟩
    simp only [macReceiveLoop, now_of_resetIn_nil C hreset] at h
    split at h
    next expired =>
      cases h
      exact .inl ⟨expired, rfl⟩
    next under =>
      refine .inr ⟨Nat.le_of_not_lt under, ?_⟩
      split at h
      next => cases h
      next r pst u hloop =>
        refine ⟨_, u, hloop, ?_⟩
        split at h
        next hle =>
          split at h
          next hneg =>
            cases h
            exact .inl ⟨rfl, fun again => if_pos hneg⟩
          next hneg =>
            obtain rfl : r = 0 := by omega
            exact .inr ⟨h, fun again => macOutcomeBl_zero again u pst⟩
        next hpos =>
          split at h
          next haccept =>
            cases h
            exact .inl ⟨rfl, fun again => macOutcomeBl_accepted haccept.1 haccept.2 again pst⟩
          next hdrop => exact .inr ⟨h, fun again => macOutcomeBl_dropped (by omega) hdrop again pst⟩

/-- The steps of a blocking MAC_RECV do what its loop does (R189). -/
theorem runWith_macReceiveLoop {C : Config} {tmo : Word} {t0 inner bound : Nat} {s t : State}
    (hrun : s.run = .macTop tmo t0) (hreset : s.resetIn = []) (h : macReceiveLoop C tmo t0 inner bound s = some t) :
    ∃ n, runWith C n s = .next t ∧ t.run = .idle := by
  induction bound generalizing s with
  | zero => cases h
  | succ bound ih =>
    have hr := not_asserted_of_resetIn_nil hreset
    have hchecked := checked_resetIn_nil C hreset
    obtain ⟨_, ⟨⟩, ⟨he, rfl⟩ | ⟨he, out, u, hloop, hout⟩⟩ := macReceiveLoop_cases hreset h
    · exact ⟨1, runWith_succ 0 (stepWith_macTop_timeout hr hrun he), rfl⟩
    · obtain ⟨hrunU, hresetU⟩ := phyReceiveLoop_keeps hchecked hloop
      obtain ⟨n, hn⟩ := runWith_macPhyLoop hchecked hloop
      have hsteps := (runWith_succ n (stepWith_macTop_continue hr hrun he)).trans hn
      obtain ⟨hidle, hend⟩ | ⟨hrest, hagain⟩ := hout
      · exact ⟨n + 1, hsteps.trans (by rw [hend]), hidle⟩
      · have htop : u.run = .macTop tmo t0 := hrunU.trans hrun
        rw [hagain, ← htop] at hsteps
        obtain ⟨m, hm, hidle⟩ := ih htop hresetU hrest
        exact ⟨n + 1 + m, by rw [runWith_add (n + 1) m hsteps, hm], hidle⟩

/-- Settles O39, by induction on the bound of each loop. -/
theorem blockingReceivesFollowThePseudocode : Obligations.BlockingReceivesFollowThePseudocode := by
  unfold Obligations.BlockingReceivesFollowThePseudocode
  constructor
  · intro C s u tmo t0 bound ret st hrun hreset h
    exact runWith_phyReceiveLoop hrun hreset h
  · intro C s t tmo t0 inner bound hrun hreset h
    exact runWith_macReceiveLoop hrun hreset h

end Sys2Proof.Machine
end

section
/-! SUPPORT. What every command and every step does to the registers that belong to a layer (10_state.md R36, R37, R50, R104,
section 3): the configuration, the side of the MacLayer, and the status registers. -/
namespace Sys2Proof.Machine

/-! ## The two receive commands, by their mode -/

/-- PHY_RECV ends as illegal, polls once and ends, or reads its start time and enters its loop (R95, R131, R150). -/
theorem phyRecvCommand_cases (C : Config) (blk : BitVec 2) (tdef : Bool) (s : State) :
    (resolveBlk blk s = none ∧ phyRecvCommand C blk tdef s = illegal s) ∨
    (resolveBlk blk s = some .nb ∧ phyRecvCommand C blk tdef s =
      finish (phyPoll C .outbuf s).1.nonBlocking.1 (phyPoll C .outbuf s).1.nonBlocking.2
        { (phyPoll C .outbuf s).2 with phySt := (phyPoll C .outbuf s).1.nonBlocking.2 }) ∨
    (resolveBlk blk s = some .bl ∧ phyRecvCommand C blk tdef s =
      { (now C s).2 with run := .phyRecv (resolveTmo tdef s) (s.nowNext C) }) := by
  cases hb : resolveBlk blk s with
  | none => exact .inl ⟨rfl, by simp only [phyRecvCommand, hb]⟩
  | some m =>
    cases m with
    | nb => exact .inr (.inl ⟨rfl, phyRecvCommand_nb hb⟩)
    | bl => exact .inr (.inr ⟨rfl, by simp only [phyRecvCommand, hb]; rfl⟩)

/-- MAC_RECV ends as illegal, polls once and ends with what the MAC makes of the outcome, or reads its start time and enters
its loop (R95, R181, R183). -/
theorem macRecvCommand_cases (C : Config) (blk : BitVec 2) (tdef : Bool) (s : State) :
    (resolveBlk blk s = none ∧ macRecvCommand C blk tdef s = illegal s) ∨
    (resolveBlk blk s = some .nb ∧ macRecvCommand C blk tdef s =
      macOutcomeNb (phyPoll C .frm s).1.nonBlocking.1
        { (phyPoll C .frm s).2 with phySt := (phyPoll C .frm s).1.nonBlocking.2 }) ∨
    (resolveBlk blk s = some .bl ∧ macRecvCommand C blk tdef s =
      { (now C s).2 with run := .macTop (resolveTmo tdef s) (s.nowNext C) }) := by
  cases hb : resolveBlk blk s with
  | none => exact .inl ⟨rfl, by simp only [macRecvCommand, hb]⟩
  | some m =>
    cases m with
    | nb => exact .inr (.inl ⟨rfl, macRecvCommand_nb hb⟩)
    | bl => exact .inr (.inr ⟨rfl, by simp only [macRecvCommand, hb]; rfl⟩)

/-! ## The configuration registers -/

/-- The six configuration registers (R40 to R45). -/
def State.config (s : State) : Byte × BitVec 16 × Scheme × Byte × Mode × Word :=
  (s.cfgSelf, s.cfgM, s.cfgSchemeReq, s.cfgDirid, s.cfgDefblk, s.cfgDeftmo)

theorem phyPoll_config (C : Config) (d : Dest) (s : State) : (phyPoll C d s).2.config = s.config := by
  rw [phyPoll_frame]
  rfl

theorem phySend_config (C : Config) (p : Bytes) (s : State) : (phySend C p s).2.config = s.config := by
  obtain ⟨_, e⟩ | ⟨_, e⟩ := phySend_cases C p s <;> rw [e]
  · rfl
  · rw [phyTransmit_eq]
    rfl

/-- Every command but INIT leaves the configuration alone. -/
theorem command_config (C : Config) {i : Instr} (s : State)
    (h : ∀ self dirid schreq defblk, i ≠ .init self dirid schreq defblk) : (command C i s).config = s.config := by
  cases i with
  | init self dirid schreq defblk => exact absurd rfl (h self dirid schreq defblk)
  | phySend size =>
    obtain ⟨_, e⟩ | ⟨_, _, e⟩ := phySendCommand_cases C size s <;> rw [command, e]
    · rfl
    · rw [phyTransmit_eq]
      rfl
  | phyRecv blk tdef =>
    obtain ⟨_, e⟩ | ⟨_, e⟩ | ⟨_, e⟩ := phyRecvCommand_cases C blk tdef s <;> rw [command, e]
    · rfl
    · exact phyPoll_config C .outbuf s
    · rfl
  | macSend dst size =>
    obtain ⟨_, e⟩ | ⟨_, _, e⟩ | ⟨_, _, e⟩ := macSendCommand_cases C dst size s <;> rw [command, e]
    · rfl
    · exact phySend_config C _ s
    · exact phySend_config C _ s
  | macRecv blk tdef =>
    obtain ⟨_, e⟩ | ⟨_, e⟩ | ⟨_, e⟩ := macRecvCommand_cases C blk tdef s <;> rw [command, e]
    · rfl
    · refine Eq.trans ?_ (phyPoll_config C .frm s)
      obtain ⟨_, e⟩ | ⟨_, _, e⟩ | ⟨_, _, e⟩ := macOutcomeNb_cases (phyPoll C .frm s).1.nonBlocking.1
        { (phyPoll C .frm s).2 with phySt := (phyPoll C .frm s).1.nonBlocking.2 } <;> rw [e] <;> rfl
    · rfl

theorem RoundKeeps.config {C : Config} {s t : State} (h : RoundKeeps C s t) : t.config = s.config := by
  rw [h.frame]
  rfl

/-- A step without reset leaves the configuration alone, or runs an INIT. -/
theorem unresetStep_config {C : Config} {s t : State} (h : unresetStep C (execWith C) s.sampled = .next t) :
    t.config = s.config ∨ ∃ cmd arg0 arg1 rest self dirid schreq defblk,
      s.run = .idle ∧ s.host = .command cmd arg0 arg1 :: rest ∧ decode cmd = .ok (.init self dirid schreq defblk) := by
  obtain ⟨_, _, rfl⟩ | ⟨_, _, _, _, rfl⟩ | ⟨hr, cmd, a0, a1, rest, i, hh, hd, rfl⟩ | ⟨_, _, _, _, _, _, _, _, rfl⟩ |
    ⟨tmo, t0, _, rfl⟩ | ⟨tmo, t0, _, rfl⟩ | ⟨tmo, t0, _, rfl⟩ := unresetStep_cases h
  · exact .inl rfl
  · exact .inl rfl
  · by_cases hi : ∃ self dirid schreq defblk, i = .init self dirid schreq defblk
    · obtain ⟨self, dirid, schreq, defblk, rfl⟩ := hi
      exact .inr ⟨cmd, a0, a1, rest, self, dirid, schreq, defblk, hr, hh, hd⟩
    · refine .inl (command_config C _ fun self dirid schreq defblk e => hi ⟨self, dirid, schreq, defblk, e⟩)
  · exact .inl rfl
  · exact .inl (phyRecvRound_keeps C tmo t0 s).config
  · exact .inl (macTopRound_keeps C tmo t0 s).config
  · exact .inl (macPhyRound_keeps C tmo t0 s).config

/-- Settles O16: a step samples an asserted reset input, runs an INIT, or keeps the configuration. -/
theorem onlyInitAndResetWriteTheConfiguration : Obligations.OnlyInitAndResetWriteTheConfiguration := by
  unfold Obligations.OnlyInitAndResetWriteTheConfiguration
  intro C s t h
  obtain ⟨hreset, _⟩ | ⟨_, _, hreset, _⟩ | ⟨_, hstep⟩ := stepWith_cases h
  · exact .inr (.inl (by rw [State.resetAsserted, hreset]; rfl))
  · exact .inr (.inl (by rw [State.resetAsserted, hreset]; rfl))
  · obtain hkeeps | hinit := unresetStep_config hstep
    · simp only [State.config, Prod.mk.injEq] at hkeeps
      exact .inl hkeeps
    · exact .inr (.inr hinit)

/-! ## What the MacLayer's side keeps under the PHY commands -/

theorem phySendCommand_sameMacSide (C : Config) (size : BitVec 16) (s : State) :
    SameMacSide s (phySendCommand C size s) := by
  obtain ⟨_, e⟩ | ⟨_, _, e⟩ := phySendCommand_cases C size s <;> rw [e]
  · exact ⟨rfl, rfl, rfl, rfl, rfl, rfl, rfl, rfl, rfl, rfl⟩
  · rw [phyTransmit_eq]
    exact ⟨rfl, rfl, rfl, rfl, rfl, rfl, rfl, rfl, rfl, rfl⟩

theorem phyRecvCommand_sameMacSide (C : Config) (blk : BitVec 2) (tdef : Bool) (s : State) :
    SameMacSide s (phyRecvCommand C blk tdef s) := by
  obtain ⟨_, e⟩ | ⟨_, e⟩ | ⟨_, e⟩ := phyRecvCommand_cases C blk tdef s <;> rw [e]
  · exact ⟨rfl, rfl, rfl, rfl, rfl, rfl, rfl, rfl, rfl, rfl⟩
  · exact { phyPoll_outbuf_sameMacSide C s with }
  · exact ⟨rfl, rfl, rfl, rfl, rfl, rfl, rfl, rfl, rfl, rfl⟩

/-- A round of a blocking PHY_RECV keeps the MacLayer's side, and goes on with the same working values or ends. -/
theorem phyRecvRound_sameMacSide {C : Config} {tmo : Word} {t0 : Nat} {s : State} (hrun : s.run = .phyRecv tmo t0) :
    SameMacSide s (phyRecvRound C tmo t0 s.sampled) ∧
      ((phyRecvRound C tmo t0 s.sampled).run = .phyRecv tmo t0 ∨ (phyRecvRound C tmo t0 s.sampled).run = .idle) := by
  have hpoll := phyPoll_outbuf_sameMacSide C (s.checked C)
  simp only [phyRecvRound]
  obtain ⟨_, e⟩ | ⟨_, out, _, e⟩ | ⟨_, _, e⟩ := phyReceiveRound_cases C .outbuf tmo t0 s <;> simp only [e]
  · exact ⟨⟨rfl, rfl, rfl, rfl, rfl, rfl, rfl, rfl, rfl, rfl⟩, .inr rfl⟩
  · exact ⟨{ hpoll with }, .inr rfl⟩
  · exact ⟨{ hpoll with }, .inl ((phyPoll_run C _ _).trans hrun)⟩

theorem stepWith_phyRecv_running {C : Config} {s : State} {tmo : Word} {t0 : Nat} (hr : s.resetAsserted = false)
    (hrun : s.run = .phyRecv tmo t0) : stepWith C s = .next (phyRecvRound C tmo t0 s.sampled) := by
  rw [stepWith_running hr (by rw [hrun]; nofun), receiveRound, sampled_run, hrun]

/-- Settles O50: a PHY command when it is taken, and a round of a blocking PHY_RECV. -/
theorem phyCommandsLeaveTheMacLayerAlone : Obligations.PhyCommandsLeaveTheMacLayerAlone := by
  unfold Obligations.PhyCommandsLeaveTheMacLayerAlone
  constructor
  · rintro C i s (⟨size, rfl⟩ | ⟨blk, tdef, rfl⟩)
    · exact ⟨_, answers_of rfl, phySendCommand_sameMacSide C size s⟩
    · exact ⟨_, answers_of rfl, phyRecvCommand_sameMacSide C blk tdef s⟩
  · intro C s tmo t0 hr hrun
    exact ⟨_, stepsTo_of (stepWith_phyRecv_running hr hrun), phyRecvRound_sameMacSide hrun⟩

/-! ## The codes of the status registers -/

theorem StatusInv.of_eq {s t : State} (h : StatusInv s) (hphy : t.phySt = s.phySt := by rfl)
    (hmac : t.macSt = s.macSt := by rfl) (hr : t.rstat = s.rstat := by rfl) : StatusInv t :=
  ⟨by rw [hphy]; exact h.phySt, by rw [hmac]; exact h.macSt, by rw [hr]; exact h.rstat⟩

theorem StatusInv.setPhySt {s : State} (h : StatusInv s) {st : Status} (hst : st ∈ phyStatuses) :
    StatusInv { s with phySt := st } := ⟨hst, h.macSt, h.rstat⟩

theorem noError_mem_phyStatuses : Status.noError ∈ phyStatuses := by decide

theorem noError_mem_macStatuses : Status.noError ∈ macStatuses := by decide

/-- Where all three registers hold `NoError`, as INIT and reset leave them (R202, R59). -/
theorem StatusInv.cleared {s : State} (hphy : s.phySt = .noError := by rfl) (hmac : s.macSt = .noError := by rfl)
    (hr : s.rstat = .noError := by rfl) : StatusInv s :=
  ⟨by rw [hphy]; exact noError_mem_phyStatuses, by rw [hmac]; exact noError_mem_macStatuses, by rw [hr]; decide⟩

/-- A PHY command ends with a status of its layer (R36, R49). -/
theorem StatusInv.finish {s : State} (h : StatusInv s) {st : Status} (hst : st ∈ phyStatuses) (r : Int) :
    StatusInv (finish r st s) :=
  ⟨h.phySt, h.macSt, by simp only [finish_rstat, List.mem_append]; exact .inl (.inl hst)⟩

/-- A MAC command ends with the status it writes to `MAC_ST` (R36, R50). -/
theorem StatusInv.macFinish {s : State} (h : StatusInv s) {st : Status} (hst : st ∈ macStatuses) (r : Int) :
    StatusInv (macFinish r st s) :=
  ⟨h.phySt, hst, by simp only [macFinish_rstat, List.mem_append]; exact .inl (.inr hst)⟩

/-- An illegal command shows `UnknownError` in `RSTAT` only (R205). -/
theorem StatusInv.illegal {s : State} (h : StatusInv s) : StatusInv (illegal s) :=
  ⟨h.phySt, h.macSt, by rw [illegal_rstat]; decide⟩

theorem sourceStatus_mem_macStatuses (self src : Byte) : sourceStatus self src ∈ macStatuses := by
  have hsub : ∀ st ∈ [Status.readErrorSourceSelf, .readErrorSourceBroadcast, .noError], st ∈ macStatuses := by decide
  exact hsub _ (sourceStatus_mem self src)

theorem StatusInv.macAccept {s : State} (h : StatusInv s) (r : Nat) : StatusInv (macAccept r s) :=
  h.of_eq.macFinish (sourceStatus_mem_macStatuses _ _) _

theorem PollCase.nonBlocking_mem (c : PollCase) : c.nonBlocking.2 ∈ phyStatuses := by
  cases c <;> simp only [PollCase.nonBlocking] <;> decide

/-- A status that ends a blocking receive is one of both layers (R146, R152, R184). -/
theorem PollCase.blocking_mem {c : PollCase} {out : Int × Status} (h : c.blocking = some out) :
    out.2 ∈ phyStatuses ∧ out.2 ∈ macStatuses := by
  obtain rfl | ⟨n, _, rfl⟩ := PollCase.blocking_status h
  · exact ⟨by decide, by decide⟩
  · exact ⟨noError_mem_phyStatuses, noError_mem_macStatuses⟩

theorem phyPoll_statusInv {s : State} (h : StatusInv s) (C : Config) (d : Dest) : StatusInv (phyPoll C d s).2 := by
  rw [phyPoll_frame]
  exact h.of_eq

theorem phyTransmit_statusInv {s : State} (h : StatusInv s) (C : Config) (e : Bytes) : StatusInv (phyTransmit C e s) := by
  rw [phyTransmit_eq]
  exact ⟨noError_mem_phyStatuses, h.macSt, h.rstat⟩

theorem phySend_statusInv {s : State} (h : StatusInv s) (C : Config) (p : Bytes) : StatusInv (phySend C p s).2 := by
  obtain ⟨_, e⟩ | ⟨_, e⟩ := phySend_cases C p s <;> rw [e]
  · exact h.setPhySt (by decide)
  · exact phyTransmit_statusInv h C _

theorem macOutcomeNb_statusInv {s : State} (h : StatusInv s) (r : Int) : StatusInv (macOutcomeNb r s) := by
  obtain ⟨_, e⟩ | ⟨_, _, e⟩ | ⟨_, _, e⟩ := macOutcomeNb_cases r s <;> rw [e]
  · exact h.macFinish (by decide) _
  · exact h.macAccept _
  · exact h.macFinish (by decide) _

theorem macOutcomeBl_statusInv {again s : State} (hagain : StatusInv again) (h : StatusInv s) (r : Int) {pst : Status}
    (hpst : pst ∈ macStatuses) : StatusInv (macOutcomeBl again r pst s) := by
  obtain ⟨_, e⟩ | ⟨_, _, e⟩ | ⟨_, e⟩ := macOutcomeBl_cases again r pst s <;> rw [e]
  · exact h.macFinish hpst _
  · exact h.macAccept _
  · exact hagain

theorem command_statusInv {s : State} (h : StatusInv s) (C : Config) (i : Instr) : StatusInv (command C i s) := by
  cases i with
  | init self dirid schreq defblk =>
    obtain ⟨_, e⟩ | ⟨_, e⟩ := initCommand_cases C self dirid schreq defblk s <;> rw [command, e]
    · exact h.illegal
    · exact .cleared
  | phySend size =>
    obtain ⟨_, e⟩ | ⟨_, _, e⟩ := phySendCommand_cases C size s <;> rw [command, e]
    · exact (h.setPhySt (by decide)).finish (by decide) _
    · exact (phyTransmit_statusInv h C _).finish noError_mem_phyStatuses _
  | phyRecv blk tdef =>
    obtain ⟨_, e⟩ | ⟨_, e⟩ | ⟨_, e⟩ := phyRecvCommand_cases C blk tdef s <;> rw [command, e]
    · exact h.illegal
    · have hc := PollCase.nonBlocking_mem (phyPoll C .outbuf s).1
      exact ((phyPoll_statusInv h C _).setPhySt hc).finish hc _
    · exact h.of_eq
  | macSend dst size =>
    have hsend := phySend_statusInv h C (macBody dst size s)
    obtain ⟨_, e⟩ | ⟨_, _, e⟩ | ⟨_, _, e⟩ := macSendCommand_cases C dst size s <;> rw [command, e]
    · exact h.macFinish (by decide) _
    · exact hsend.macFinish (by decide) _
    · exact hsend.macFinish (by decide) _
  | macRecv blk tdef =>
    obtain ⟨_, e⟩ | ⟨_, e⟩ | ⟨_, e⟩ := macRecvCommand_cases C blk tdef s <;> rw [command, e]
    · exact h.illegal
    · exact macOutcomeNb_statusInv ((phyPoll_statusInv h C _).setPhySt (PollCase.nonBlocking_mem _)) _
    · exact h.of_eq

theorem phyRecvRound_statusInv {s : State} (h : StatusInv s) (C : Config) (tmo : Word) (t0 : Nat) :
    StatusInv (phyRecvRound C tmo t0 s.sampled) := by
  have hchecked : StatusInv (s.checked C) := h.of_eq
  have hpoll := phyPoll_statusInv hchecked C .outbuf
  simp only [phyRecvRound]
  obtain ⟨_, e⟩ | ⟨_, out, ho, e⟩ | ⟨_, _, e⟩ := phyReceiveRound_cases C .outbuf tmo t0 s <;> simp only [e]
  · exact (hchecked.setPhySt (by decide)).finish (by decide) _
  · obtain ⟨hphy, _⟩ := PollCase.blocking_mem ho
    exact (hpoll.setPhySt hphy).finish hphy _
  · exact hpoll

theorem macTopRound_statusInv {s : State} (h : StatusInv s) (C : Config) (tmo : Word) (t0 : Nat) :
    StatusInv (macTopRound C tmo t0 s.sampled) := by
  simp only [macTopRound]
  split
  · exact StatusInv.macFinish (s := s.checked C) h.of_eq (by decide) _
  · exact h.of_eq

theorem macPhyRound_statusInv {s : State} (h : StatusInv s) (C : Config) (tmo : Word) (t0 : Nat) :
    StatusInv (macPhyRound C tmo t0 s.sampled) := by
  have hchecked : StatusInv (s.checked C) := h.of_eq
  have hpoll := phyPoll_statusInv hchecked C .frm
  simp only [macPhyRound]
  obtain ⟨_, e⟩ | ⟨_, out, ho, e⟩ | ⟨_, _, e⟩ := phyReceiveRound_cases C .frm tmo t0 s <;> simp only [e]
  · have hout := hchecked.setPhySt (st := .timeout) (by decide)
    exact macOutcomeBl_statusInv hout.of_eq hout _ (by decide)
  · obtain ⟨hphy, hmac⟩ := PollCase.blocking_mem ho
    have hout := hpoll.setPhySt hphy
    exact macOutcomeBl_statusInv hout.of_eq hout _ hmac
  · exact hpoll

theorem resetBlock_statusInv (C : Config) (s : State) : StatusInv (resetBlock C s) :=
  .cleared

theorem stepWith_statusInv {C : Config} {s t : State} (h : StatusInv s) (hstep : stepWith C s = .next t) :
    StatusInv t := by
  obtain ⟨_, rfl⟩ | ⟨_, _, _, _, rfl⟩ | ⟨_, hstep⟩ := stepWith_cases hstep
  · exact resetBlock_statusInv C _
  · exact resetBlock_statusInv C _
  obtain ⟨_, _, rfl⟩ | ⟨_, _, _, _, rfl⟩ | ⟨_, cmd, a0, a1, rest, i, _, _, rfl⟩ | ⟨_, _, _, _, _, _, _, _, rfl⟩ |
    ⟨tmo, t0, _, rfl⟩ | ⟨tmo, t0, _, rfl⟩ | ⟨tmo, t0, _, rfl⟩ := unresetStep_cases hstep
  · exact h.of_eq
  · exact h.of_eq
  · exact command_statusInv h.of_eq C i
  · exact StatusInv.illegal h.of_eq
  · exact phyRecvRound_statusInv h C tmo t0
  · exact macTopRound_statusInv h C tmo t0
  · exact macPhyRound_statusInv h C tmo t0

/-- Settles O55: the status invariant is inductive over a step of any block. -/
theorem everyStepKeepsTheStatusesProducible : Obligations.EveryStepKeepsTheStatusesProducible := by
  unfold Obligations.EveryStepKeepsTheStatusesProducible
  refine ⟨?_, rfl, rfl, rfl⟩
  intro C s t h hstep
  exact stepWith_statusInv h hstep

/-- Settles O53: after reset nothing is accumulated, every array is empty, and `CFG_M` is 64. -/
theorem invariantHoldsAfterReset : Obligations.InvariantHoldsAfterReset := by
  unfold Obligations.InvariantHoldsAfterReset
  have hempty : ∀ size, ArrayInv size [] := fun size => ⟨Memory.nil_wf, Memory.nil_within size⟩
  refine ⟨fun C => ?_, .cleared⟩
  exact ⟨⟨Nat.zero_le _, nofun, nofun⟩, C.maxpMax_ge, hempty _, hempty _, hempty _, hempty _, rfl, rfl⟩

/-! ## The result and the layer it comes from -/

theorem macOutcomeNb_rstat (r : Int) (s : State) : (macOutcomeNb r s).rstat = (macOutcomeNb r s).macSt := by
  obtain ⟨_, e⟩ | ⟨_, _, e⟩ | ⟨_, _, e⟩ := macOutcomeNb_cases r s <;> rw [e] <;> rfl

theorem macOutcomeBl_rstat {again : State} (r : Int) (pst : Status) (s : State) (hagain : again.run ≠ .idle)
    (h : (macOutcomeBl again r pst s).run = .idle) :
    (macOutcomeBl again r pst s).rstat = (macOutcomeBl again r pst s).macSt := by
  obtain ⟨_, e⟩ | ⟨_, _, e⟩ | ⟨_, e⟩ := macOutcomeBl_cases again r pst s <;> rw [e] at h ⊢
  · rfl
  · rfl
  · exact absurd h hagain

theorem resolveBlk_ne_none {blk : BitVec 2} (h : blkLegal blk = true) (s : State) : resolveBlk blk s ≠ none := fun hn => by
  rw [(resolveBlk_eq_none_iff blk s).1 hn] at h
  cases h

theorem phyRecvCommand_rstat {C : Config} {blk : BitVec 2} {tdef : Bool} {s : State} (hblk : blkLegal blk = true)
    (h : (phyRecvCommand C blk tdef s).run = .idle) :
    (phyRecvCommand C blk tdef s).rstat = (phyRecvCommand C blk tdef s).phySt := by
  obtain ⟨hn, _⟩ | ⟨_, e⟩ | ⟨_, e⟩ := phyRecvCommand_cases C blk tdef s
  · exact absurd hn (resolveBlk_ne_none hblk s)
  · rw [e]
    rfl
  · rw [e] at h
    cases h

theorem macRecvCommand_rstat {C : Config} {blk : BitVec 2} {tdef : Bool} {s : State} (hblk : blkLegal blk = true)
    (h : (macRecvCommand C blk tdef s).run = .idle) :
    (macRecvCommand C blk tdef s).rstat = (macRecvCommand C blk tdef s).macSt := by
  obtain ⟨hn, _⟩ | ⟨_, e⟩ | ⟨_, e⟩ := macRecvCommand_cases C blk tdef s
  · exact absurd hn (resolveBlk_ne_none hblk s)
  · rw [e]
    exact macOutcomeNb_rstat _ _
  · rw [e] at h
    cases h

theorem phyRecvRound_rstat {C : Config} {tmo : Word} {t0 : Nat} {s : State} (hrun : s.run ≠ .idle)
    (h : (phyRecvRound C tmo t0 s.sampled).run = .idle) :
    (phyRecvRound C tmo t0 s.sampled).rstat = (phyRecvRound C tmo t0 s.sampled).phySt := by
  simp only [phyRecvRound] at h ⊢
  obtain ⟨_, e⟩ | ⟨_, out, _, e⟩ | ⟨_, _, e⟩ := phyReceiveRound_cases C .outbuf tmo t0 s <;> simp only [e] at h ⊢
  · rfl
  · rfl
  · exact absurd ((phyPoll_run C _ _).symm.trans h) hrun

theorem macTopRound_rstat {C : Config} {tmo : Word} {t0 : Nat} {s : State} (h : (macTopRound C tmo t0 s).run = .idle) :
    (macTopRound C tmo t0 s).rstat = (macTopRound C tmo t0 s).macSt := by
  simp only [macTopRound] at h ⊢
  split at h
  next expired => rw [if_pos expired]; rfl
  next => cases h

theorem macPhyRound_rstat {C : Config} {tmo : Word} {t0 : Nat} {s : State} (hrun : s.run ≠ .idle)
    (h : (macPhyRound C tmo t0 s.sampled).run = .idle) :
    (macPhyRound C tmo t0 s.sampled).rstat = (macPhyRound C tmo t0 s.sampled).macSt := by
  simp only [macPhyRound] at h ⊢
  obtain ⟨_, e⟩ | ⟨_, out, _, e⟩ | ⟨_, _, e⟩ := phyReceiveRound_cases C .frm tmo t0 s <;> simp only [e] at h ⊢
  · exact macOutcomeBl_rstat _ _ _ nofun h
  · exact macOutcomeBl_rstat _ _ _ nofun h
  · exact absurd ((phyPoll_run C _ _).symm.trans h) hrun

/-- Settles O48: a layer writes its status and presents the same one. -/
theorem resultStatusIsTheLayersStatus : Obligations.ResultStatusIsTheLayersStatus := by
  unfold Obligations.ResultStatusIsTheLayersStatus
  constructor
  · intro C i s hi
    refine ⟨_, answers_of rfl, fun hidle => ?_⟩
    cases i with
    | init self dirid schreq defblk =>
      obtain ⟨h, e⟩ | ⟨h, e⟩ := initCommand_cases C self dirid schreq defblk s <;> rw [command, e]
      · rw [if_pos h]
        rfl
      · rw [if_neg (Nat.not_lt.2 h)]
        rfl
    | phySend size =>
      obtain ⟨_, e⟩ | ⟨_, _, e⟩ := phySendCommand_cases C size s <;> rw [command, e]
      · rfl
      · rw [phyTransmit_eq]
        rfl
    | phyRecv blk tdef => exact phyRecvCommand_rstat hi hidle
    | macSend dst size =>
      obtain ⟨_, e⟩ | ⟨_, _, e⟩ | ⟨_, _, e⟩ := macSendCommand_cases C dst size s <;> rw [command, e] <;> rfl
    | macRecv blk tdef => exact macRecvCommand_rstat hi hidle
  · intro C s t tmo t0 hr hstep hidle
    refine ⟨fun hrun => ?_, ?_⟩
    · cases (stepWith_phyRecv_running hr hrun).symm.trans hstep
      exact phyRecvRound_rstat (by rw [hrun]; nofun) hidle
    · rintro (hrun | hrun) <;>
        rw [stepWith_running hr (by rw [hrun]; nofun), receiveRound, sampled_run, hrun] at hstep <;> cases hstep
      · exact macTopRound_rstat hidle
      · exact macPhyRound_rstat (by rw [hrun]; nofun) hidle

end Sys2Proof.Machine
end

section
/-! SUPPORT. The step around a command (10_state.md R31, R35, R38, 70_reset_and_hazards.md R245, R246): what an idle block does,
what reset leaves, and the events of a step. -/
namespace Sys2Proof.Machine

/-! ## An idle block -/

/-- An idle block that takes a word which decodes to a command runs it, the port latched (R35, R97). -/
theorem stepWith_command {C : Config} {s : State} {cmd arg0 arg1 : Word} {rest : List HostAction} {i : Instr}
    (hreset : s.resetAsserted = false) (hrun : s.run = .idle) (hhost : s.host = .command cmd arg0 arg1 :: rest)
    (hdecode : decode cmd = .ok i) :
    stepWith C s = .next (command C i (latch cmd arg0 arg1 { s.sampled with host := rest })) := by
  rw [stepWith_idle hreset hrun]
  simp only [idleStep, sampled_host, hhost, hdecode, execWith]

/-- Settles O6: the step takes the action and runs the meaning, which for the block of this package is `exec`. -/
theorem stepRunsTheDecodedCommand : Obligations.StepRunsTheDecodedCommand := by
  unfold Obligations.StepRunsTheDecodedCommand
  intro s cmd arg0 arg1 rest i hreset hrun hhost hdecode
  constructor
  · rw [step_eq_stepWith, exec_eq_command]
    exact stepWith_command hreset hrun hhost hdecode
  · intro C
    exact stepWith_command hreset hrun hhost hdecode

theorem stepWith_waits {C : Config} {s : State} (hreset : s.resetAsserted = false) (hrun : s.run = .idle)
    (hhost : s.host = []) : stepWith C s = .next s.sampled := by
  rw [stepWith_idle hreset hrun]
  simp only [idleStep, sampled_host, hhost]

/-- Settles O8: a step with nothing presented only samples the reset input. -/
theorem idleBlockWaitsForTheHost : Obligations.IdleBlockWaitsForTheHost := by
  unfold Obligations.IdleBlockWaitsForTheHost
  intro C s hreset hrun hhost
  exact stepsTo_of (stepWith_waits hreset hrun hhost)

theorem stepWith_writeInbuf {C : Config} {s : State} {bytes : Bytes} {rest : List HostAction}
    (hreset : s.resetAsserted = false) (hrun : s.run = .idle) (hhost : s.host = .writeInbuf bytes :: rest) :
    stepWith C s = .next (hostWrite C bytes { s.sampled with host := rest }) := by
  rw [stepWith_idle hreset hrun]
  simp only [idleStep, sampled_host, hhost]

/-- Settles O9: the bytes that fit are written from index 0 on. -/
theorem hostWriteFillsInbufOnly : Obligations.HostWriteFillsInbufOnly := by
  unfold Obligations.HostWriteFillsInbufOnly
  intro C s bytes rest hreset hrun hhost hw
  have hlen : (bytes.take (rawSize C)).length = min (rawSize C) bytes.length := List.length_take
  have hsize : rawSize C = 2 * (C.maxpMax + 4) := rfl
  refine ⟨_, stepsTo_of (stepWith_writeInbuf hreset hrun hhost), rfl, Memory.writeBytes_wf hw _ _, ?_, ?_⟩
  · intro hfits
    have htake : bytes.take (rawSize C) = bytes := List.take_of_length_le hfits
    simp only [hostWrite, htake]
    exact Memory.readBytes_writeBytes hw 0 bytes
  · intro i hi
    exact Memory.read_writeBytes_outside hw (.inr (by omega))

/-! ## Configuration and reset values -/

/-- Settles O11: the values of the table of R59, read off. -/
theorem resetStateHoldsTheResetValues : Obligations.ResetStateHoldsTheResetValues := by
  unfold Obligations.ResetStateHoldsTheResetValues
  exact ⟨rfl, rfl, rfl, rfl, rfl, rfl, rfl, rfl, rfl, rfl, rfl, rfl, rfl, rfl, rfl⟩

/-- Settles O13: the scheme decides the capacity and the codec. -/
theorem schemeAndCapacityFollowFromTheConfiguration : Obligations.SchemeAndCapacityFollowFromTheConfiguration := by
  unfold Obligations.SchemeAndCapacityFollowFromTheConfiguration
  intro C s
  refine ⟨?_, fun h => ?_, fun h => ?_, cap_le_rawSize⟩
  · rw [State.scheme, effectiveScheme, schemeALimit]
    cases s.cfgSchemeReq <;> rfl
  · rw [State.cap, State.codec, h]
    exact ⟨rfl, rfl⟩
  · rw [State.cap, State.codec, h]
    exact ⟨rfl, rfl⟩

/-- The draws of bytes that answer three given sequences from the `k`-th draw on. -/
def drawsFrom (k : Nat) (acc frm outbuf : Bytes) (n : Nat) : Bytes :=
  if n = k then acc else if n = k + 1 then frm else outbuf

/-- An array drawn as a sequence of its size holds that sequence. -/
theorem drawnArray_readBytes {C : Config} {size k : Nat} {bs : Bytes} (h : C.drawBytes k = bs) (hl : bs.length = size) :
    (drawnArray C size k).readBytes 0 size = bs := by
  subst h hl
  rw [drawnArray, List.take_length]
  exact Memory.readBytes_writeBytes Memory.nil_wf 0 _

/-- Settles O15: the draws that answer just those contents. -/
theorem initCanLeaveAnyBufferContents : Obligations.InitCanLeaveAnyBufferContents := by
  unfold Obligations.InitCanLeaveAnyBufferContents
  intro C self dirid schreq defblk s acc frm outbuf src harg hacc hfrm hout
  refine ⟨fun _ => src, drawsFrom s.draws acc frm outbuf, ?_⟩
  generalize hD : ({ C with drawByte := fun _ => src, drawBytes := drawsFrom s.draws acc frm outbuf } : Config) = D
  have hraw : rawSize C = rawSize D := by rw [← hD]; rfl
  have hframe : frameSize C = frameSize D := by rw [← hD]; rfl
  have hbytes : D.drawBytes = drawsFrom s.draws acc frm outbuf := by rw [← hD]
  have hbyte : D.drawByte (s.draws + 3) = src := by rw [← hD]
  have hmax : s.arg0.toNat ≤ D.maxpMax := by rw [← hD]; exact harg
  rw [hraw] at hacc ⊢
  rw [hframe] at hfrm hout ⊢
  obtain ⟨_, _⟩ | ⟨_, e⟩ := initCommand_cases D self dirid schreq defblk s
  · omega
  · refine ⟨_, congrArg Host.Outcome.next e, ?_, ?_, ?_, hbyte⟩
    · exact drawnArray_readBytes (k := s.draws) (by rw [hbytes]; simp [drawsFrom]) hacc
    · exact drawnArray_readBytes (k := s.draws + 1) (by rw [hbytes]; simp [drawsFrom]) hfrm
    · exact drawnArray_readBytes (k := s.draws + 2) (by rw [hbytes]; simp [drawsFrom]) hout

/-- Settles O12: asserted at the start reset is the whole step; asserted later it follows the first `k` events of the step
that would have been. -/
theorem resetInputRestoresTheResetValues : Obligations.ResetInputRestoresTheResetValues := by
  unfold Obligations.ResetInputRestoresTheResetValues
  constructor
  · intro C s h
    exact ⟨_, stepsTo_of (stepWith_atStart h), rfl, drawnArray_inv C _ _, drawnArray_inv C _ _, drawnArray_inv C _ _⟩
  · intro C s u k h hu
    have hstep : unresetStep C (execWith C) s.sampled = .next u :=
      (stepWith_unreset (s := { s with resetIn := .released :: s.resetIn.tail }) rfl).symm.trans hu
    obtain ⟨es, hes⟩ := unresetStep_byEvents hstep
    have hcut : stepWith C s = .next (resetBlock C (interrupted k s.sampled u)) := by
      rw [stepWith_after h, hstep]
      rfl
    rw [resetBlock_interrupted C k hes.trace] at hcut
    exact ⟨es, _, hes.trace, stepsTo_of hcut, rfl, drawnArray_inv C _ _, drawnArray_inv C _ _, drawnArray_inv C _ _⟩

/-! ## The receive input -/

/-- The first `k` events of a step poll nothing, or what the whole step polls. -/
theorem ByEvents.polls_take {s u : State} {es : List Event} (h : ByEvents s u es) (k : Nat) :
    polledAnswers (es.take k) = [] ∨ polledAnswers (es.take k) = [s.rx.headD none] := by
  have hprefix : polledAnswers (es.take k) <+: polledAnswers es := by
    conv_rhs => rw [← List.take_append_drop k es, polledAnswers_append]
    exact List.prefix_append _ _
  obtain ⟨hp, _⟩ | ⟨hp, _⟩ := h.polls <;> rw [hp] at hprefix
  · exact .inl (List.prefix_nil.1 hprefix)
  · rw [← List.nil_append [s.rx.headD none], List.prefix_concat_iff, List.prefix_nil, List.nil_append] at hprefix
    exact hprefix.symm

/-- Settles O52: reset may cut a step before or after its one poll, and no answer is taken but by that poll. -/
theorem receivedBytesAreConsumedOnceInOrder : Obligations.ReceivedBytesAreConsumedOnceInOrder := by
  unfold Obligations.ReceivedBytesAreConsumedOnceInOrder
  intro C s t h
  obtain ⟨_, rfl⟩ | ⟨k, u, _, hu, rfl⟩ | ⟨_, hu⟩ := stepWith_cases h
  · exact ⟨[], (List.append_nil _).symm, .inl ⟨rfl, rfl⟩⟩
  · obtain ⟨es, hes⟩ := unresetStep_byEvents hu
    have hrx : (resetBlock C (interrupted k s.sampled u)).rx = s.rx.drop (polledAnswers (es.take k)).length := by
      rw [resetBlock_interrupted C k hes.trace]
      rfl
    refine ⟨es.take k, by rw [resetBlock_interrupted C k hes.trace]; rfl, ?_⟩
    obtain hp | hp := hes.polls_take k <;> rw [hp] at hrx
    · exact .inl ⟨hp, hrx⟩
    · exact .inr ⟨hp, hrx.trans List.drop_one⟩
  · obtain ⟨es, hes⟩ := unresetStep_byEvents hu
    exact ⟨es, hes.trace, hes.polls⟩

/-! ## The transmit interface -/

/-- `t` comes from `s` by events none of which is one of the transmit interface or of the direction output. -/
def TransmitsNothing (s t : State) : Prop := ∃ es, t.trace = s.trace ++ es ∧ ∀ e ∈ es, e.isTransmit = false

theorem TransmitsNothing.of_trace_eq {s t : State} (h : t.trace = s.trace := by rfl) : TransmitsNothing s t :=
  ⟨[], by rw [h, List.append_nil], nofun⟩

theorem TransmitsNothing.congr {s t u : State} (h : TransmitsNothing s t) (hu : u.trace = t.trace := by rfl) :
    TransmitsNothing s u := by
  rwa [TransmitsNothing, hu]

/-- One more event that is none of them may follow. -/
theorem TransmitsNothing.snoc {s t u : State} (h : TransmitsNothing s t) {e : Event}
    (ht : u.trace = t.trace ++ [e] := by rfl) (he : e.isTransmit = false := by rfl) : TransmitsNothing s u := by
  obtain ⟨es, hes, hno⟩ := h
  refine ⟨es ++ [e], by rw [ht, hes, List.append_assoc], ?_⟩
  rw [List.forall_mem_append, List.forall_mem_singleton]
  exact ⟨hno, he⟩

theorem TransmitsNothing.finish {s t : State} (h : TransmitsNothing s t) (r : Int) (st : Status) :
    TransmitsNothing s (finish r st t) := h.snoc

theorem TransmitsNothing.trans {s t u : State} (h : TransmitsNothing s t) (h' : TransmitsNothing t u) :
    TransmitsNothing s u := by
  obtain ⟨es, hes, hno⟩ := h
  obtain ⟨fs, hfs, hno'⟩ := h'
  exact ⟨es ++ fs, by rw [hfs, hes, List.append_assoc], List.forall_mem_append.2 ⟨hno, hno'⟩⟩

theorem phyPoll_transmitsNothing (C : Config) (d : Dest) (s : State) : TransmitsNothing s (phyPoll C d s).2 := by
  obtain ⟨ds, ht, hd⟩ := phyPoll_trace C d s
  refine ⟨_, ht, List.forall_mem_cons.2 ⟨rfl, fun e he => ?_⟩⟩
  obtain ⟨v, rfl⟩ := hd e he
  rfl

theorem macOutcomeNb_transmitsNothing {s t : State} (h : TransmitsNothing s t) (r : Int) :
    TransmitsNothing s (macOutcomeNb r t) := by
  obtain ⟨_, e⟩ | ⟨_, _, e⟩ | ⟨_, _, e⟩ := macOutcomeNb_cases r t <;> rw [e]
  · exact h.snoc
  · exact h.snoc
  · exact h.snoc

theorem macOutcomeBl_transmitsNothing {s t again : State} (hagain : TransmitsNothing s again)
    (h : TransmitsNothing s t) (r : Int) (pst : Status) : TransmitsNothing s (macOutcomeBl again r pst t) := by
  obtain ⟨_, e⟩ | ⟨_, _, e⟩ | ⟨_, e⟩ := macOutcomeBl_cases again r pst t <;> rw [e]
  · exact h.snoc
  · exact h.snoc
  · exact hagain

theorem initCommand_transmitsNothing (C : Config) (self dirid : Byte) (schreq : Scheme) (defblk : Mode) (s : State) :
    TransmitsNothing s (initCommand C self dirid schreq defblk s) := by
  obtain ⟨_, e⟩ | ⟨_, e⟩ := initCommand_cases C self dirid schreq defblk s <;> rw [e]
  · exact (TransmitsNothing.of_trace_eq (s := s)).snoc
  · refine TransmitsNothing.finish ⟨_, rfl, ?_⟩ _ _
    simp only [List.forall_mem_cons]
    exact ⟨rfl, rfl, rfl, rfl, nofun⟩

theorem phyRecvCommand_transmitsNothing (C : Config) (blk : BitVec 2) (tdef : Bool) (s : State) :
    TransmitsNothing s (phyRecvCommand C blk tdef s) := by
  have hstart : TransmitsNothing s s := .of_trace_eq
  obtain ⟨_, e⟩ | ⟨_, e⟩ | ⟨_, e⟩ := phyRecvCommand_cases C blk tdef s <;> rw [e]
  · exact hstart.snoc
  · exact (phyPoll_transmitsNothing C .outbuf s).snoc
  · exact hstart.snoc

theorem macRecvCommand_transmitsNothing (C : Config) (blk : BitVec 2) (tdef : Bool) (s : State) :
    TransmitsNothing s (macRecvCommand C blk tdef s) := by
  have hstart : TransmitsNothing s s := .of_trace_eq
  obtain ⟨_, e⟩ | ⟨_, e⟩ | ⟨_, e⟩ := macRecvCommand_cases C blk tdef s <;> rw [e]
  · exact hstart.snoc
  · exact macOutcomeNb_transmitsNothing (phyPoll_transmitsNothing C .frm s).congr _
  · exact hstart.snoc

/-- A check of the deadline leaves one event, its clock reading. -/
theorem checked_transmitsNothing (C : Config) (s : State) : TransmitsNothing s (s.checked C) :=
  (TransmitsNothing.of_trace_eq (s := s)).snoc

theorem phyRecvRound_transmitsNothing (C : Config) (tmo : Word) (t0 : Nat) (s : State) :
    TransmitsNothing s (phyRecvRound C tmo t0 s.sampled) := by
  have hchecked := checked_transmitsNothing C s
  have hpoll := hchecked.trans (phyPoll_transmitsNothing C .outbuf (s.checked C))
  simp only [phyRecvRound]
  obtain ⟨_, e⟩ | ⟨_, out, _, e⟩ | ⟨_, _, e⟩ := phyReceiveRound_cases C .outbuf tmo t0 s <;> simp only [e]
  · exact hchecked.snoc
  · exact hpoll.snoc
  · exact hpoll

theorem macTopRound_transmitsNothing (C : Config) (tmo : Word) (t0 : Nat) (s : State) :
    TransmitsNothing s (macTopRound C tmo t0 s.sampled) := by
  have hchecked := checked_transmitsNothing C s
  simp only [macTopRound]
  split
  · exact hchecked.snoc
  · exact hchecked

theorem macPhyRound_transmitsNothing (C : Config) (tmo : Word) (t0 : Nat) (s : State) :
    TransmitsNothing s (macPhyRound C tmo t0 s.sampled) := by
  have hchecked := checked_transmitsNothing C s
  have hpoll := hchecked.trans (phyPoll_transmitsNothing C .frm (s.checked C))
  simp only [macPhyRound]
  obtain ⟨_, e⟩ | ⟨_, out, _, e⟩ | ⟨_, _, e⟩ := phyReceiveRound_cases C .frm tmo t0 s <;> simp only [e]
  · exact macOutcomeBl_transmitsNothing hchecked.congr hchecked.congr _ _
  · exact macOutcomeBl_transmitsNothing hpoll.congr hpoll.congr _ _
  · exact hpoll

/-- The block takes a presented command that is a send. -/
def State.takesSend (s : State) : Prop :=
  ∃ cmd arg0 arg1 rest i, s.run = .idle ∧ s.host = .command cmd arg0 arg1 :: rest ∧ decode cmd = .ok i ∧
    ((∃ size, i = .phySend size) ∨ ∃ dst size, i = .macSend dst size)

/-- A step without reset takes a send, or leaves no event of the transmit interface (R76). -/
theorem unresetStep_transmitsNothing {C : Config} {s u : State} (h : unresetStep C (execWith C) s.sampled = .next u) :
    s.takesSend ∨ TransmitsNothing s u := by
  obtain ⟨_, _, rfl⟩ | ⟨_, _, _, _, rfl⟩ | ⟨hrun, cmd, a0, a1, rest, i, hhost, hdecode, rfl⟩ |
    ⟨_, _, _, _, _, _, _, _, rfl⟩ | ⟨tmo, t0, _, rfl⟩ | ⟨tmo, t0, _, rfl⟩ | ⟨tmo, t0, _, rfl⟩ := unresetStep_cases h
  · exact .inr .of_trace_eq
  · exact .inr .of_trace_eq
  · cases i with
    | init self dirid schreq defblk => exact .inr (initCommand_transmitsNothing C self dirid schreq defblk _)
    | phySend size => exact .inl ⟨cmd, a0, a1, rest, _, hrun, hhost, hdecode, .inl ⟨size, rfl⟩⟩
    | phyRecv blk tdef => exact .inr (phyRecvCommand_transmitsNothing C blk tdef _)
    | macSend dst size => exact .inl ⟨cmd, a0, a1, rest, _, hrun, hhost, hdecode, .inr ⟨dst, size, rfl⟩⟩
    | macRecv blk tdef => exact .inr (macRecvCommand_transmitsNothing C blk tdef _)
  · exact .inr (TransmitsNothing.of_trace_eq (s := s)).snoc
  · exact .inr (phyRecvRound_transmitsNothing C tmo t0 s)
  · exact .inr (macTopRound_transmitsNothing C tmo t0 s)
  · exact .inr (macPhyRound_transmitsNothing C tmo t0 s)

/-- The events of a step without reset, and when one of them is of the transmit interface. -/
theorem unresetStep_transmits {C : Config} {s u : State} (h : unresetStep C (execWith C) s.sampled = .next u) :
    ∃ es, u.trace = s.trace ++ es ∧ ((∃ e ∈ es, e.isTransmit = true) → s.takesSend) := by
  obtain hsend | ⟨es, hes, hno⟩ := unresetStep_transmitsNothing h
  · obtain ⟨es, hes⟩ := unresetStep_byEvents h
    exact ⟨es, hes.trace, fun _ => hsend⟩
  · refine ⟨es, hes, ?_⟩
    rintro ⟨e, he, ht⟩
    rw [hno e he] at ht
    cases ht

/-- Settles O51: reset adds no event, and leaves some of those the step without it has. -/
theorem onlySendsUseTheTransmitInterface : Obligations.OnlySendsUseTheTransmitInterface := by
  unfold Obligations.OnlySendsUseTheTransmitInterface
  intro C s t h
  obtain ⟨_, rfl⟩ | ⟨k, u, _, hu, rfl⟩ | ⟨_, hu⟩ := stepWith_cases h
  · exact ⟨[], (List.append_nil _).symm, fun ⟨_, he, _⟩ => absurd he List.not_mem_nil⟩
  · obtain ⟨es, hes, hsend⟩ := unresetStep_transmits hu
    refine ⟨es.take k, by rw [resetBlock_interrupted C k (s := s.sampled) hes]; rfl, ?_⟩
    rintro ⟨e, he, ht⟩
    exact hsend ⟨e, List.mem_of_mem_take he, ht⟩
  · exact unresetStep_transmits hu

end Sys2Proof.Machine
end

section
/-! SUPPORT. The sends (40_phy_framer.md R121 to R129, 41_mac_layer.md R171 to R175): what `phy_send` leaves where it passes its
checks, and what the two commands make of it. -/
namespace Sys2Proof.Machine

/-! ## `phy_send` -/

/-- `CAP` leaves room for more than the two address bytes of a MAC frame (R47, R172). -/
theorem cfgM_add_five_le_cap (s : State) : s.cfgM.toNat + 5 ≤ s.cap := by
  unfold State.cap
  cases s.scheme <;> simp only [capacity] <;> omega

theorem phySend_sent {C : Config} {p e : Bytes} {s : State} (hp : p.length ≤ s.cap) (he : (s.codec C).enc p = e)
    (hl : e.length ≤ s.cap) : phySend C p s = (((e.length : Int), .noError), s.transmitted C e) := by
  subst he
  obtain ⟨_, _⟩ | ⟨_, h⟩ := phySend_cases C p s
  · omega
  · rw [h, phyTransmit_eq]
    rfl

theorem phySend_refused {C : Config} {p : Bytes} {s : State} (h : s.cap < ((s.codec C).enc p).length) :
    phySend C p s = ((-1, .oversize), { s with phySt := .oversize }) := by
  obtain ⟨_, e⟩ | ⟨_, _⟩ := phySend_cases C p s
  · exact e
  · omega

/-! ## PHY_SEND -/

theorem toNat_ofInt_of_lt {n : Nat} (h : n < 2 ^ 32) : (BitVec.ofInt 32 (n : Int)).toNat = n := by
  rw [BitVec.ofInt_natCast, BitVec.toNat_ofNat, Nat.mod_eq_of_lt h]

/-- The bytes a sent command hands over: those of its frame, and none with its end. -/
theorem sentBytes_frameEvents_finish (C : Config) (s : State) (e : Bytes) (r : Int) (st : Status) :
    sentBytes (frameEvents C s e ++ [.finish r st]) = (s.codec C).delim :: e ++ [(s.codec C).delim] := by
  rw [sentBytes_append, sentBytes_frameEvents]
  exact List.append_nil _

/-- Settles O20: the checks refuse or pass, and what passes is transmitted as one frame. -/
theorem phySendAlwaysCompletes : Obligations.PhySendAlwaysCompletes := by
  unfold Obligations.PhySendAlwaysCompletes
  intro C size s e he
  by_cases hrefused : s.cap < size.toNat ∨ s.cap < e.length
  · refine ⟨_, phySend_answers_refused (by rwa [← he]), rfl, rfl, fun _ => ⟨rfl, rfl, rfl, rfl⟩, fun h => ?_⟩
    omega
  · have hcap := cap_lt s
    refine ⟨_, phySend_answers_sent (by omega) he.symm (by omega), rfl, rfl, fun h => absurd h hrefused, fun _ => ?_⟩
    exact ⟨rfl, toNat_ofInt_of_lt (by omega), rfl, _, List.append_assoc _ _ _, sentBytes_frameEvents_finish C s e _ _⟩

/-- Settles O22: the encoding holds no delimiter by P1 and destuffs to the payload by P2. -/
theorem sentFrameHasDelimitersOnlyAtItsEnds : Obligations.SentFrameHasDelimitersOnlyAtItsEnds := by
  unfold Obligations.SentFrameHasDelimitersOnlyAtItsEnds
  intro C size s hn hl
  exact ⟨_, _, _, phySend_answers_sent hn rfl hl, List.append_assoc _ _ _, sentBytes_frameEvents_finish C s _ _ _,
    (s.codec C).delim_free _, (s.codec C).round_trip _⟩

/-! ## MAC_SEND -/

/-- A body of MAC_SEND fits `CAP` where its payload fits `CFG_M` (R48, R171, R172). -/
theorem macBody_length_le {size : BitVec 16} {s : State} (h : size.toNat ≤ s.cfgM.toNat) (dst : Byte) :
    (macBody dst size s).length ≤ s.cap := by
  have := cfgM_add_five_le_cap s
  simp only [macBody, List.length_cons, Memory.readBytes_length]
  omega

/-- MAC_SEND past its size check ends as `phy_send` of the body came out (R173, R174). -/
theorem macSend_answers_of_phySend {C : Config} {dst : Byte} {size : BitVec 16} {s u : State} {r : Int} {st : Status}
    (hsize : size.toNat ≤ s.cfgM.toNat) (hsend : phySend C (macBody dst size s) s = ((r, st), u)) :
    Answers C (.macSend dst size) s
      (if r ≤ 0 then State.ended (-1) .writeError { u with macSt := .writeError }
        else State.ended size.toNat .noError { u with macSt := .noError }) := by
  have hmax : ¬s.macTxMax < size.toNat := Nat.not_lt.2 hsize
  refine answers_of ?_
  rw [command, macSendCommand, if_neg hmax, hsend]
  rfl

theorem macSend_answers_sent {C : Config} {dst : Byte} {size : BitVec 16} {s : State} {e : Bytes}
    (hsize : size.toNat ≤ s.cfgM.toNat) (he : (s.codec C).enc (macBody dst size s) = e) (hpos : 0 < e.length)
    (hl : e.length ≤ s.cap) :
    Answers C (.macSend dst size) s (State.ended size.toNat .noError { s.transmitted C e with macSt := .noError }) := by
  have h := macSend_answers_of_phySend hsize (phySend_sent (macBody_length_le hsize dst) he hl)
  rwa [if_neg (by omega)] at h

/-- Settles O41: the body of a payload that fits passes `phy_send`. -/
theorem macSendTransmitsHeaderAndPayload : Obligations.MacSendTransmitsHeaderAndPayload := by
  unfold Obligations.MacSendTransmitsHeaderAndPayload
  intro C dst size s e hsize he hpos hl
  exact macSend_answers_sent hsize he.symm hpos hl

/-- Settles O42: `phy_send` refuses the body, or returns the length 0. -/
theorem macSendReportsWriteError : Obligations.MacSendReportsWriteError := by
  unfold Obligations.MacSendReportsWriteError
  intro C dst size s e hsize he
  have henc : (s.codec C).enc (macBody dst size s) = e := he.symm
  constructor
  · intro htoo
    have h := macSend_answers_of_phySend hsize (phySend_refused (by rwa [henc]))
    rwa [if_pos (by decide)] at h
  · rintro rfl
    have h := macSend_answers_of_phySend hsize (phySend_sent (macBody_length_le hsize dst) henc (Nat.zero_le _))
    rw [if_pos (by simp)] at h
    exact ⟨_, h, rfl, rfl, rfl, rfl, rfl, rfl⟩

end Sys2Proof.Machine
end

section
/-! SUPPORT. Receives whose poll ends a frame (40_phy_framer.md R141, R142, 41_mac_layer.md R182 to R188), and what every
non-blocking receive, and the entry of every blocking one, does. -/
namespace Sys2Proof.Machine

/-! ## The end of a receive, by its poll -/

/-- A step of a blocking PHY_RECV whose poll ends it (R146, R153). -/
theorem phyRecv_stepsTo_of_poll_ends {C : Config} {s u : State} {tmo : Word} {t0 : Nat} {c : PollCase} {r : Int}
    {st : Status} (hr : s.resetAsserted = false) (hrun : s.run = .phyRecv tmo t0) (he : s.elapsedNext C t0 ≤ tmo.toNat)
    (hp : phyPoll C .outbuf (s.checked C) = (c, u)) (hc : c.blocking = some (r, st)) :
    StepsTo C s (State.ended r st { u with phySt := st }) := by
  refine stepsTo_of ?_
  rw [stepWith_phyRecv_done hr hrun he (by rw [hp]; exact hc), hp, finish_eq_ended]

/-- A non-blocking MAC_RECV whose poll delivers a frame of `n` bytes ends as the MAC takes it (R182, R185 to R188). -/
theorem macRecv_answers_frame {C : Config} {blk : BitVec 2} {tdef : Bool} {s u t : State} {n : Nat}
    (hb : resolveBlk blk s = some .nb) (hp : phyPoll C .frm s = (.frame n, u))
    (ht : macOutcomeNb n { u with phySt := .noError } = t) : Answers C (.macRecv blk tdef) s t := by
  refine answers_of ((macRecvCommand_nb hb).trans ?_)
  rw [hp]
  exact ht

/-- A step of a blocking MAC_RECV whose poll delivers a frame of `n` bytes leads to what the MAC makes of it (R184 to R189). -/
theorem macRecv_stepsTo_frame {C : Config} {s u t : State} {tmo : Word} {t0 : Nat} {n : Nat}
    (hr : s.resetAsserted = false) (hrun : s.run = .macPhy tmo t0) (he : s.elapsedNext C t0 ≤ tmo.toNat)
    (hp : phyPoll C .frm (s.checked C) = (.frame n, u))
    (ht : macOutcomeBl { u with phySt := .noError, run := .macTop tmo t0 } n .noError { u with phySt := .noError } = t) :
    StepsTo C s t := by
  refine stepsTo_of ?_
  rw [stepWith_macPhy_done (out := ((n : Int), .noError)) hr hrun he (by rw [hp]; rfl), hp, ht]

/-! ## The end of an untainted frame, by its destination -/

theorem phyPoll_fits_outbuf {C : Config} {s : State} {f : Bytes} (h : s.rx.headD none = some (s.codec C).delim)
    (hs : s.sync = true) (hl : 0 < s.len) (ht : s.taint = false) (hf : (s.codec C).dec (s.acc.readBytes 0 s.len) = f)
    (hm : f.length ≤ s.cfgM.toNat) :
    phyPoll C .outbuf s = (.frame f.length, { s.polled with
      sync := false, len := 0, taint := false, outbuf := s.outbuf.writeBytes 0 f }) :=
  phyPoll_fits h hs hl ht hf.symm hm

theorem phyPoll_fits_frm {C : Config} {s : State} {f : Bytes} (h : s.rx.headD none = some (s.codec C).delim)
    (hs : s.sync = true) (hl : 0 < s.len) (ht : s.taint = false) (hf : (s.codec C).dec (s.acc.readBytes 0 s.len) = f)
    (hm : f.length ≤ s.cfgM.toNat) :
    phyPoll C .frm s = (.frame f.length, { s.polled with
      sync := false, len := 0, taint := false, frm := s.frm.writeBytes 0 f }) :=
  phyPoll_fits h hs hl ht hf.symm hm

/-- What a draw of the destination leaves at the end of a frame (R141, R142). -/
theorem drawDest_dropFrame_outbuf (C : Config) (s : State) :
    drawDest C .outbuf (dropFrame s) = { s with
      sync := false, len := 0, taint := false, outbuf := drawnArray C (frameSize C) s.draws, draws := s.draws + 1
      trace := s.trace ++ [.draw (.array (drawnArray C (frameSize C) s.draws))] } := rfl

theorem drawDest_dropFrame_frm (C : Config) (s : State) :
    drawDest C .frm (dropFrame s) = { s with
      sync := false, len := 0, taint := false, frm := drawnArray C (frameSize C) s.draws, draws := s.draws + 1
      trace := s.trace ++ [.draw (.array (drawnArray C (frameSize C) s.draws))] } := rfl

/-! ## An untainted frame for PHY_RECV -/

/-- Settles O29: the frame is written from index 0 on. -/
theorem fittingFrameIsDelivered : Obligations.FittingFrameIsDelivered := by
  unfold Obligations.FittingFrameIsDelivered
  intro C s f h hs hl ht hf hm hw
  refine ⟨s.outbuf.writeBytes 0 f, Memory.readBytes_writeBytes hw 0 f,
    fun i hi => Memory.read_writeBytes_outside hw (.inr (by omega)), ?_, ?_⟩
  · intro blk tdef hb
    exact phyRecv_answers_nb hb (phyPoll_fits_outbuf h hs hl ht hf.symm hm)
  · intro tmo t0 hr hrun he
    exact phyRecv_stepsTo_of_poll_ends hr hrun he (phyPoll_fits_outbuf (s := s.checked C) h hs hl ht hf.symm hm) rfl

/-- Settles O30: the drawn contents are the witness. -/
theorem frameTooLongFailsWithOversize : Obligations.FrameTooLongFailsWithOversize := by
  unfold Obligations.FrameTooLongFailsWithOversize
  intro C s h hs hl ht hm
  have hpoll := phyPoll_tooLong (d := .outbuf) h hs hl ht hm
  have hpollChecked := phyPoll_tooLong (d := .outbuf) (s := s.checked C) h hs hl ht hm
  rw [drawDest_dropFrame_outbuf] at hpoll hpollChecked
  refine ⟨drawnArray C (frameSize C) s.draws, drawnArray_inv C _ _, ?_, ?_⟩
  · intro blk tdef hb
    exact phyRecv_answers_nb hb hpoll
  · intro tmo t0 hr hrun he
    exact phyRecv_stepsTo_of_poll_ends hr hrun he hpollChecked rfl

/-! ## A delivered frame in MAC_RECV -/

/-- The header and the payload of a frame that stands in `FRM` (R185 to R188). -/
theorem frm_header {s : State} {dst src : Byte} {payload : Bytes}
    (h : s.frm.readBytes 0 (payload.length + 2) = dst :: src :: payload) :
    s.frm.read 0 = dst ∧ s.frm.read 1 = src ∧ s.frm.readBytes 2 payload.length = payload := by
  simpa only [Memory.readBytes, List.cons.injEq, Nat.zero_add, Nat.reduceAdd] using h

/-- A frame for this node or for all ends a MAC_RECV, in both modes alike, with its payload and source (R186 to R188). -/
theorem macOutcome_accepted {s : State} {dst src : Byte} {payload : Bytes}
    (h : s.frm.readBytes 0 (payload.length + 2) = dst :: src :: payload) (hdst : dst = s.cfgSelf ∨ dst = bcast)
    {t : State} (ht : t = State.ended payload.length (sourceStatus s.cfgSelf src) { s with
      outbuf := s.outbuf.writeBytes 0 payload, outsrc := src, macSt := sourceStatus s.cfgSelf src }) :
    macOutcomeNb ((payload.length + 2 : Nat) : Int) s = t ∧
      ∀ again pst, macOutcomeBl again ((payload.length + 2 : Nat) : Int) pst s = t := by
  obtain ⟨h0, h1, h2⟩ := frm_header h
  have haccepts : macAccepts (payload.length + 2) s = true := (macAccepts_iff _ s).2 ⟨by omega, by rwa [h0]⟩
  have haccept : macAccept (payload.length + 2) s = t := (macAccept_of h1 h2).trans ht.symm
  refine ⟨?_, fun again pst => ?_⟩
  · rw [macOutcomeNb_frame, if_neg (by omega), if_pos haccepts, haccept]
  · rw [macOutcomeBl_frame, if_pos ⟨by omega, haccepts⟩, haccept]

/-- A runt and a frame for another node are dropped: `NoData` non-blocking, and blocking the loop goes on (R185, R186). -/
theorem macOutcome_dropped {s : State} {dst : Byte} {rest : Bytes}
    (h : s.frm.readBytes 0 (rest.length + 1) = dst :: rest)
    (hdrop : rest = [] ∨ (dst ≠ s.cfgSelf ∧ dst ≠ bcast)) :
    macOutcomeNb ((rest.length + 1 : Nat) : Int) s = macFinish 0 .noData s ∧
      ∀ again pst, macOutcomeBl again ((rest.length + 1 : Nat) : Int) pst s = again := by
  have h0 : s.frm.read 0 = dst := (List.cons.inj h).1
  have hrejects : ¬macAccepts (rest.length + 1) s = true := by
    rw [macAccepts_iff, h0]
    rintro ⟨hlen, hdst⟩
    rcases hdrop with rfl | ⟨hself, hbcast⟩
    · simp at hlen
    · exact hdst.elim hself hbcast
  refine ⟨?_, fun again pst => ?_⟩
  · rw [macOutcomeNb_frame, if_neg (by omega), if_neg hrejects]
  · rw [macOutcomeBl_frame, if_neg fun ha => hrejects ha.2]

/-- Settles O43: both modes deliver into the same arrays. -/
theorem macReceiveDeliversFrameForThisNode : Obligations.MacReceiveDeliversFrameForThisNode := by
  unfold Obligations.MacReceiveDeliversFrameForThisNode
  intro C s dst src payload h hs hl ht hf hm hdst hw hwf
  have hread := Memory.readBytes_writeBytes hwf 0 (dst :: src :: payload)
  refine ⟨s.frm.writeBytes 0 (dst :: src :: payload), s.outbuf.writeBytes 0 payload, sourceStatus s.cfgSelf src, rfl,
    Memory.readBytes_writeBytes hw 0 payload, fun i hi => Memory.read_writeBytes_outside hw (.inr (by omega)), ?_, ?_⟩
  · intro blk tdef hb
    refine macRecv_answers_frame hb (phyPoll_fits_frm h hs hl ht hf hm)
      (macOutcome_accepted (dst := dst) (src := src) (payload := payload) ?_ ?_ ?_).1
    exacts [hread, hdst, rfl]
  · intro tmo t0 hr hrun he
    refine macRecv_stepsTo_frame hr hrun he (phyPoll_fits_frm (s := s.checked C) h hs hl ht hf hm)
      ((macOutcome_accepted (dst := dst) (src := src) (payload := payload) ?_ ?_ ?_).2 _ _)
    exacts [hread, hdst, rfl]

/-- Settles O44: both modes leave the frame in `FRM` and drop it. -/
theorem macReceiveDropsForeignAndRuntFrames : Obligations.MacReceiveDropsForeignAndRuntFrames := by
  unfold Obligations.MacReceiveDropsForeignAndRuntFrames
  intro C s dst rest h hs hl ht hf hm hdrop hwf
  have hread := Memory.readBytes_writeBytes hwf 0 (dst :: rest)
  refine ⟨s.frm.writeBytes 0 (dst :: rest), ?_, ?_⟩
  · intro blk tdef hb
    refine macRecv_answers_frame hb (phyPoll_fits_frm h hs hl ht hf hm)
      (macOutcome_dropped (dst := dst) (rest := rest) ?_ ?_).1
    exacts [hread, hdrop]
  · intro tmo t0 hr hrun he
    refine macRecv_stepsTo_frame hr hrun he (phyPoll_fits_frm (s := s.checked C) h hs hl ht hf hm)
      ((macOutcome_dropped (dst := dst) (rest := rest) ?_ ?_).2 _ _)
    exacts [hread, hdrop]

/-- Settles O46: an overflow and a frame too long fail the PHY receive, and a frame of length 0 ends it with 0. -/
theorem blockingMacReceiveSurfacesPhyFailures : Obligations.BlockingMacReceiveSurfacesPhyFailures := by
  unfold Obligations.BlockingMacReceiveSurfacesPhyFailures
  intro C s tmo t0 hr hrun he
  refine ⟨fun b h hb hs hl => ?_, fun h hs hl ht => ⟨fun hm => ?_, fun hf => ?_⟩⟩
  · exact macRecv_stepsTo_of_poll_fails hr hrun he (phyPoll_overflow (s := s.checked C) h hb hs hl) rfl
  · have hpoll := phyPoll_tooLong (d := .frm) (s := s.checked C) h hs hl ht hm
    rw [drawDest_dropFrame_frm] at hpoll
    exact ⟨_, macRecv_stepsTo_of_poll_fails hr hrun he hpoll rfl⟩
  · exact macRecv_stepsTo_frame hr hrun he (phyPoll_fits_frm (s := s.checked C) h hs hl ht hf (Nat.zero_le _))
      (macOutcomeBl_zero _ _ _)

/-! ## The end of a tainted frame -/

section
variable {C : Config} {s : State} (h : s.rx.headD none = some (s.codec C).delim) (hs : s.sync = true) (hl : 0 < s.len)
  (ht : s.taint = true)
include h hs hl ht

theorem phyPoll_tainted_fails_outbuf (hd : C.drawFits s.draws = false) :
    phyPoll C .outbuf s = (.tooLong, { s.polled with
      sync := false, len := 0, taint := false, outbuf := drawnArray C (frameSize C) s.draws, draws := s.draws + 1
      trace := s.polled.trace ++ [.draw (.array (drawnArray C (frameSize C) s.draws))] }) := by
  rw [phyPoll_tainted h hs hl ht, endOfFrameTainted_none (s := s.polled) hd, drawDest_dropFrame_outbuf]
  rfl

theorem phyPoll_tainted_fails_frm (hd : C.drawFits s.draws = false) :
    phyPoll C .frm s = (.tooLong, { s.polled with
      sync := false, len := 0, taint := false, frm := drawnArray C (frameSize C) s.draws, draws := s.draws + 1
      trace := s.polled.trace ++ [.draw (.array (drawnArray C (frameSize C) s.draws))] }) := by
  rw [phyPoll_tainted h hs hl ht, endOfFrameTainted_none (s := s.polled) hd, drawDest_dropFrame_frm]
  rfl

theorem phyPoll_tainted_delivers_outbuf (hd : C.drawFits s.draws = true) {g : Bytes}
    (hg : (C.drawBytes s.draws).take s.phyRxMax = g) :
    phyPoll C .outbuf s = (.frame g.length, { s.polled with
      sync := false, len := 0, taint := false, outbuf := s.outbuf.writeBytes 0 g, draws := s.draws + 1
      trace := s.polled.trace ++ [.draw (.frame g)] }) := by
  rw [phyPoll_tainted h hs hl ht, endOfFrameTainted_outbuf (s := s.polled) hd hg]
  rfl

theorem phyPoll_tainted_delivers_frm (hd : C.drawFits s.draws = true) {g : Bytes}
    (hg : (C.drawBytes s.draws).take s.phyRxMax = g) :
    phyPoll C .frm s = (.frame g.length, { s.polled with
      sync := false, len := 0, taint := false, frm := s.frm.writeBytes 0 g, draws := s.draws + 1
      trace := s.polled.trace ++ [.draw (.frame g)] }) := by
  rw [phyPoll_tainted h hs hl ht, endOfFrameTainted_frm (s := s.polled) hd hg]
  rfl

end

/-- What a MAC_RECV makes of a frame in `FRM`, in both modes, is what the filter says (R182, R184 to R188). -/
theorem macOutcome_filteredFrame {g : Bytes} {s : State} (hw : s.outbuf.wf = true)
    (hg : s.frm.readBytes 0 g.length = g) :
    FilteredFrame g s (if g = [] then State.ended (-1) .readError { s with macSt := .readError }
      else State.ended 0 .noData { s with macSt := .noData }) (macOutcomeNb g.length s) ∧
    ∀ again pst, FilteredFrame g s again (macOutcomeBl again g.length pst s) := by
  cases g with
  | nil => exact ⟨rfl, fun again pst => macOutcomeBl_zero again s pst⟩
  | cons dst rest =>
    refine ⟨?_, fun again pst => ?_⟩
    · rw [if_neg (List.cons_ne_nil _ _), macOutcomeNb_frame, if_neg (by simp)]
      exact filteredFrame_of hw hg (List.cons_ne_nil _ _)
    · have hfiltered := filteredFrame_of (dropped := again) hw hg (List.cons_ne_nil _ _)
      simpa only [macOutcomeBl_frame, List.length_cons, ne_eq, Nat.add_one_ne_zero, not_false_eq_true, true_and]
        using hfiltered

/-- Settles O31: the draw decides, and both receive commands in both modes make the same poll. -/
theorem taintedFrameEndsInOneOfTheTwoOutcomes : Obligations.TaintedFrameEndsInOneOfTheTwoOutcomes := by
  unfold Obligations.TaintedFrameEndsInOneOfTheTwoOutcomes
  intro C s h hs hl ht hout hfrm
  cases hd : C.drawFits s.draws with
  | false =>
    refine ⟨none, _, _, drawnArray_inv C _ s.draws, drawnArray_inv C _ s.draws, ?_, ?_⟩
    · intro blk tdef hb
      exact ⟨phyRecv_answers_nb hb (phyPoll_tainted_fails_outbuf h hs hl ht hd),
        macRecv_answers_nb_readError hb (phyPoll_tainted_fails_frm h hs hl ht hd) (by decide)⟩
    · intro tmo t0 hr he
      exact ⟨fun hrun => phyRecv_stepsTo_of_poll_ends hr hrun he
          (phyPoll_tainted_fails_outbuf (s := s.checked C) h hs hl ht hd) rfl,
        fun hrun => macRecv_stepsTo_of_poll_fails hr hrun he
          (phyPoll_tainted_fails_frm (s := s.checked C) h hs hl ht hd) rfl⟩
  | true =>
    obtain ⟨g, hg⟩ : ∃ g, (C.drawBytes s.draws).take s.phyRxMax = g := ⟨_, rfl⟩
    have hmax : g.length ≤ s.cfgM.toNat := hg ▸ List.length_take_le _ _
    have hread := Memory.readBytes_writeBytes hfrm 0 g
    refine ⟨some g, s.outbuf.writeBytes 0 g, s.frm.writeBytes 0 g, hmax, Memory.readBytes_writeBytes hout 0 g,
      fun i hi => Memory.read_writeBytes_outside hout (.inr (by omega)), hread,
      fun i hi => Memory.read_writeBytes_outside hfrm (.inr (by omega)), ?_, ?_⟩
    · intro blk tdef hb
      refine ⟨phyRecv_answers_nb hb (phyPoll_tainted_delivers_outbuf h hs hl ht hd hg), _, _, rfl,
        macRecv_answers_frame hb (phyPoll_tainted_delivers_frm h hs hl ht hd hg) rfl, ?_⟩
      refine (macOutcome_filteredFrame ?_ ?_).1
      exacts [hout, hread]
    · intro tmo t0 hr he
      refine ⟨fun hrun => phyRecv_stepsTo_of_poll_ends hr hrun he
        (phyPoll_tainted_delivers_outbuf (s := s.checked C) h hs hl ht hd hg) rfl, fun hrun => ⟨_, _, rfl,
        macRecv_stepsTo_frame hr hrun he (phyPoll_tainted_delivers_frm (s := s.checked C) h hs hl ht hd hg) rfl, ?_⟩⟩
      refine (macOutcome_filteredFrame ?_ ?_).2 _ _
      exacts [hout, hread]

/-- Settles O32: the draws that answer just that frame, or just those contents. -/
theorem everyOutcomeOfATaintedFrameIsPossible : Obligations.EveryOutcomeOfATaintedFrameIsPossible := by
  unfold Obligations.EveryOutcomeOfATaintedFrameIsPossible
  intro C s blk tdef g out h hs hl ht hw hb hm hout
  constructor
  · refine ⟨fun _ => true, fun _ => g, ?_⟩
    generalize hD : ({ C with drawFits := fun _ => true, drawBytes := fun _ => g } : Config) = D
    have hfits : D.drawFits s.draws = true := by rw [← hD]
    have hg : (D.drawBytes s.draws).take s.phyRxMax = g := by
      rw [← hD]
      exact List.take_of_length_le hm
    have hcodec : s.codec C = s.codec D := by rw [← hD]; rfl
    rw [hcodec] at h
    refine ⟨_, congrArg Host.Outcome.next (phyRecvCommand_nb hb), ?_⟩
    rw [phyPoll_tainted_delivers_outbuf h hs hl ht hfits hg]
    exact ⟨BitVec.ofInt_natCast 32 g.length, rfl, Memory.readBytes_writeBytes hw 0 g⟩
  · refine ⟨fun _ => false, fun _ => out, ?_⟩
    generalize hD : ({ C with drawFits := fun _ => false, drawBytes := fun _ => out } : Config) = D
    have hfails : D.drawFits s.draws = false := by rw [← hD]
    have hbytes : D.drawBytes s.draws = out := by rw [← hD]
    have hframe : frameSize C = frameSize D := by rw [← hD]; rfl
    have hcodec : s.codec C = s.codec D := by rw [← hD]; rfl
    rw [hcodec] at h
    rw [hframe] at hout ⊢
    refine ⟨_, congrArg Host.Outcome.next (phyRecvCommand_nb hb), ?_⟩
    rw [phyPoll_tainted_fails_outbuf h hs hl ht hfails]
    exact ⟨rfl, rfl, drawnArray_readBytes hbytes hout⟩

/-! ## The two modes -/

/-- A poll outcome that ends a non-blocking call is never `Timeout` (R133 to R148). -/
theorem PollCase.nonBlocking_ne_timeout (c : PollCase) : c.nonBlocking.2 ≠ .timeout := by
  cases c <;> exact nofun

theorem phyPoll_clock (C : Config) (d : Dest) (s : State) : (phyPoll C d s).2.clock = s.clock := by
  rw [phyPoll_frame C d s]
  rfl

theorem phyPoll_ticks (C : Config) (d : Dest) (s : State) : (phyPoll C d s).2.ticks = s.ticks := by
  rw [phyPoll_frame C d s]
  rfl

/-- A command that finishes after one poll makes one interface event, that poll (R12, R78). -/
theorem phyPoll_interface_finish (C : Config) (d : Dest) (s : State) (r : Int) (st : Status) :
    ∃ events, (phyPoll C d s).2.trace ++ [.finish r st] = s.trace ++ events ∧
      events.filter Event.isInterface = [.rxPoll (s.rx.headD none)] := by
  obtain ⟨ds, he, hds⟩ := phyPoll_trace C d s
  refine ⟨.rxPoll (s.rx.headD none) :: ds ++ [.finish r st], by rw [he, List.append_assoc], ?_⟩
  have hnone : ds.filter Event.isInterface = [] := by
    rw [List.filter_eq_nil_iff]
    intro e he
    obtain ⟨v, rfl⟩ := hds e he
    exact nofun
  rw [List.filter_append, List.filter_cons_of_pos rfl, hnone]
  rfl

/-- A non-blocking MAC_RECV ends, never with `Timeout`, and what it does beside its poll is to write `MAC_ST`, `OUTBUF` and
`OUTSRC` (R182, R185 to R188). -/
theorem macOutcomeNb_ended (r : Int) (s : State) :
    ∃ ret st out src, macOutcomeNb r s = State.ended ret st { s with macSt := st, outbuf := out, outsrc := src } ∧
      st ≠ .timeout := by
  obtain ⟨_, e⟩ | ⟨_, _, e⟩ | ⟨_, _, e⟩ := macOutcomeNb_cases r s
  · exact ⟨_, _, s.outbuf, s.outsrc, e, nofun⟩
  · exact ⟨_, _, _, _, e.trans (macAccept_eq _ _), sourceStatus_ne_timeout _ _⟩
  · exact ⟨_, _, s.outbuf, s.outsrc, e, nofun⟩

/-- Settles O33: the command is one poll and what is made of its outcome. -/
theorem nonBlockingReceivePollsOnce : Obligations.NonBlockingReceivePollsOnce := by
  unfold Obligations.NonBlockingReceivePollsOnce
  intro C s blk tdef i hblk hi
  have hb := (resolveBlk_nb_iff blk s).2 hblk
  obtain rfl | rfl := hi
  · obtain ⟨events, htrace, hevents⟩ := phyPoll_interface_finish C .outbuf s
      (phyPoll C .outbuf s).1.nonBlocking.1 (phyPoll C .outbuf s).1.nonBlocking.2
    exact ⟨_, events, phyRecv_answers_nb hb rfl, rfl, PollCase.nonBlocking_ne_timeout _, htrace, hevents,
      phyPoll_rx C .outbuf s, phyPoll_clock C .outbuf s, phyPoll_ticks C .outbuf s⟩
  · obtain ⟨ret, st, out, src, e, hst⟩ := macOutcomeNb_ended (phyPoll C .frm s).1.nonBlocking.1
      { (phyPoll C .frm s).2 with phySt := (phyPoll C .frm s).1.nonBlocking.2 }
    obtain ⟨events, htrace, hevents⟩ := phyPoll_interface_finish C .frm s ret st
    exact ⟨_, events, answers_of ((macRecvCommand_nb hb).trans e), rfl, hst, htrace, hevents,
      phyPoll_rx C .frm s, phyPoll_clock C .frm s, phyPoll_ticks C .frm s⟩

/-- The mode is blocking where `BLK` says so, or leaves it to a default that does (R95, 30_encoding.md section 1). -/
theorem resolveBlk_bl {blk : BitVec 2} {s : State} (h : blk = 0b01#2 ∨ (blk = 0b10#2 ∧ s.cfgDefblk.bit = 1#1)) :
    resolveBlk blk s = some .bl := by
  obtain rfl | ⟨rfl, hdef⟩ := h
  · rfl
  · cases hmode : s.cfgDefblk with
    | nb => simp [hmode, Mode.bit] at hdef
    | bl => simp [resolveBlk, hmode]

theorem phyRecvCommand_bl {C : Config} {blk : BitVec 2} {tdef : Bool} {s : State} (h : resolveBlk blk s = some .bl) :
    phyRecvCommand C blk tdef s = { (now C s).2 with run := .phyRecv (resolveTmo tdef s) (s.nowNext C) } := by
  obtain ⟨hb, _⟩ | ⟨hb, _⟩ | ⟨_, e⟩ := phyRecvCommand_cases C blk tdef s
  · simp [h] at hb
  · simp [h] at hb
  · exact e

theorem macRecvCommand_bl {C : Config} {blk : BitVec 2} {tdef : Bool} {s : State} (h : resolveBlk blk s = some .bl) :
    macRecvCommand C blk tdef s = { (now C s).2 with run := .macTop (resolveTmo tdef s) (s.nowNext C) } := by
  obtain ⟨hb, _⟩ | ⟨hb, _⟩ | ⟨_, e⟩ := macRecvCommand_cases C blk tdef s
  · simp [h] at hb
  · simp [h] at hb
  · exact e

/-- Settles O34: the resolution of `BLK` by its four values; what a blocking receive does at entry is its command. -/
theorem blockingReceiveReadsItsStartTimeAtEntry : Obligations.BlockingReceiveReadsItsStartTimeAtEntry := by
  unfold Obligations.BlockingReceiveReadsItsStartTimeAtEntry
  intro C s blk tdef
  refine ⟨resolveBlk_nb_iff blk s, fun hblk => ?_⟩
  have hb := resolveBlk_bl hblk
  exact ⟨answers_of (phyRecvCommand_bl hb), answers_of (macRecvCommand_bl hb)⟩

end Sys2Proof.Machine
end

section
/-! SUPPORT. Dead bytes (10_state.md R54, R57, 20_memory.md R71): a step of two states that differ in them only gives two
states that differ in them only. A lemma per operation, in the order of the model. -/
namespace Sys2Proof.Machine

/-! ## The relation -/

theorem SameButDeadBytes.refl (s : State) : SameButDeadBytes s s := ⟨rfl, fun _ _ => rfl⟩

theorem SameButDeadBytes.of_eq {s t : State} (h : t = s) : SameButDeadBytes s t := h ▸ .refl s

/-- The second of two such states, written out. -/
theorem SameButDeadBytes.exists_eq {s t : State} (h : SameButDeadBytes s t) :
    ∃ a m x, t = { s with acc := a, frm := m, txScratch := x } ∧ ∀ i, i < s.len → a.read i = s.acc.read i :=
  ⟨t.acc, t.frm, t.txScratch, h⟩

/-- A change of both states that does not look at the dead bytes, keeps `ACC` and does not raise `LEN`. -/
theorem SameButDeadBytes.map {s t : State} (h : SameButDeadBytes s t) (f : State → State)
    (hdead : ∀ a m x, f { s with acc := a, frm := m, txScratch := x } =
      { f s with acc := a, frm := m, txScratch := x } := by exact fun _ _ _ => rfl)
    (hacc : ∀ s, (f s).acc = s.acc := by exact fun _ => rfl)
    (hlen : (f s).len ≤ s.len := by exact Nat.le_refl _) : SameButDeadBytes (f s) (f t) := by
  obtain ⟨e, hread⟩ := h
  have ht := hdead t.acc t.frm t.txScratch
  rw [← e] at ht
  refine ⟨?_, fun i hi => ?_⟩
  · rw [ht]
  · rw [hacc, hacc]
    exact hread i (Nat.lt_of_lt_of_le hi hlen)

/-- The bytes of the open frame are not dead (R54). -/
theorem SameButDeadBytes.accumulated {s t : State} (h : SameButDeadBytes s t) :
    t.acc.readBytes 0 s.len = s.acc.readBytes 0 s.len :=
  Memory.readBytes_congr fun j hj => h.2 (0 + j) (by omega)

/-! ## Sending -/

theorem phyTransmit_same {C : Config} {s t : State} (h : SameButDeadBytes s t) (e : Bytes) :
    SameButDeadBytes (phyTransmit C e s) (phyTransmit C e t) := by
  obtain ⟨ht, hread⟩ := h
  rw [ht, phyTransmit_eq, phyTransmit_eq]
  exact ⟨rfl, hread⟩

theorem phySend_same {C : Config} {s t : State} (h : SameButDeadBytes s t) (p : Bytes) :
    (phySend C p t).1 = (phySend C p s).1 ∧ SameButDeadBytes (phySend C p s).2 (phySend C p t).2 := by
  have hcap : t.cap = s.cap := by rw [h.1]; rfl
  have hcodec : t.codec C = s.codec C := by rw [h.1]; rfl
  obtain ⟨hs, es⟩ | ⟨hs, es⟩ := phySend_cases C p s <;> obtain ⟨ht, et⟩ | ⟨ht, et⟩ := phySend_cases C p t <;>
    rw [hcap, hcodec] at ht <;> rw [es, et]
  · exact ⟨rfl, h.map fun s => { s with phySt := .oversize }⟩
  · omega
  · omega
  · rw [hcodec]
    exact ⟨rfl, phyTransmit_same h _⟩

theorem phySendCommand_same {C : Config} {s t : State} (h : SameButDeadBytes s t) (size : BitVec 16) :
    SameButDeadBytes (phySendCommand C size s) (phySendCommand C size t) := by
  have hcap : t.cap = s.cap := by rw [h.1]; rfl
  have henc : (t.codec C).enc (t.inbuf.readBytes 0 size.toNat) = (s.codec C).enc (s.inbuf.readBytes 0 size.toNat) := by
    rw [h.1]
    rfl
  obtain ⟨hs, es⟩ | ⟨hs, hs', es⟩ := phySendCommand_cases C size s <;>
    obtain ⟨ht, et⟩ | ⟨ht, ht', et⟩ := phySendCommand_cases C size t <;> rw [es, et]
  · exact h.map fun s => finish (-1) .oversize { s with phySt := .oversize }
  · rw [henc] at ht'
    omega
  · rw [henc] at ht
    omega
  · rw [henc]
    exact (phyTransmit_same h _).map (finish _ _)

theorem macSendCommand_same {C : Config} {s t : State} (h : SameButDeadBytes s t) (dst : Byte) (size : BitVec 16) :
    SameButDeadBytes (macSendCommand C dst size s) (macSendCommand C dst size t) := by
  have hmax : t.macTxMax = s.macTxMax := by rw [h.1]; rfl
  have hbody : macBody dst size t = macBody dst size s := by rw [h.1]; rfl
  obtain ⟨hresult, hsend⟩ := phySend_same (C := C) h (macBody dst size s)
  simp only [macSendCommand, hmax, hbody, hresult]
  split
  · exact h.map (macFinish _ _)
  · split
    · exact hsend.map (macFinish _ _)
    · exact hsend.map (macFinish _ _)

/-! ## A poll -/

/-- Two polls with the same outcome in states that differ in dead bytes only. The bytes of a delivered frame are not dead
in the MAC_RECV that made the poll (R57, R144). -/
structure SamePoll (d : Dest) (p q : PollCase × State) : Prop where
  outcome : q.1 = p.1
  state : SameButDeadBytes p.2 q.2
  frame : d = .frm → ∀ n, p.1 = .frame n → ∀ i, i < n → q.2.frm.read i = p.2.frm.read i

theorem SamePoll.of_no_frame {d : Dest} {c : PollCase} {s t : State} (h : SameButDeadBytes s t)
    (hc : ∀ n, c ≠ .frame n) : SamePoll d (c, s) (c, t) :=
  ⟨rfl, h, fun _ n hn => absurd hn (hc n)⟩

theorem drawDest_same {C : Config} {s t : State} (h : SameButDeadBytes s t) (d : Dest) :
    SameButDeadBytes (drawDest C d s) (drawDest C d t) := by
  obtain ⟨ht, hread⟩ := h
  rw [ht]
  cases d with
  | outbuf => exact ⟨rfl, hread⟩
  | frm => exact ⟨rfl, hread⟩

/-- The same bytes written to two arrays (R70). -/
theorem Memory.read_writeBytes_congr {m m' : Memory} (h : m.wf = true) (h' : m'.wf = true) (bs : Bytes) {i : Nat}
    (hi : i < bs.length) : (m'.writeBytes 0 bs).read i = (m.writeBytes 0 bs).read i := by
  have hread := Memory.read_writeBytes_inside h (i := 0) hi
  have hread' := Memory.read_writeBytes_inside h' (i := 0) hi
  rw [Nat.zero_add] at hread hread'
  rw [hread, hread']

/-- A frame delivered: into `OUTBUF` the same array, into `FRM` the same bytes (R141). -/
theorem deliver_same {C : Config} {s t : State} (h : SameButDeadBytes s t) (hs : s.frm.wf = true) (ht : t.frm.wf = true)
    (d : Dest) (f : Bytes) : SamePoll d (deliver C d f s) (deliver C d f t) := by
  have hmax : t.phyRxMax = s.phyRxMax := by rw [h.1]; rfl
  obtain ⟨hlt, e⟩ | ⟨hle, e⟩ := deliver_cases C d f s <;> rw [e]
  · rw [deliver_tooLong (by omega)]
    exact .of_no_frame (drawDest_same h d) nofun
  · rw [deliver_fits (by omega)]
    obtain ⟨a, m, x, rfl, hread⟩ := h.exists_eq
    cases d with
    | outbuf => exact ⟨rfl, ⟨rfl, hread⟩, nofun⟩
    | frm =>
      refine ⟨rfl, ⟨rfl, hread⟩, ?_⟩
      rintro _ _ ⟨⟩ i hi
      exact Memory.read_writeBytes_congr hs ht f hi

theorem endOfFrameTainted_same {C : Config} {s t : State} (h : SameButDeadBytes s t) (hs : s.frm.wf = true)
    (ht : t.frm.wf = true) (d : Dest) : SamePoll d (endOfFrameTainted C d s) (endOfFrameTainted C d t) := by
  have hdraws : t.draws = s.draws := by rw [h.1]
  have hmax : t.phyRxMax = s.phyRxMax := by rw [h.1]; rfl
  cases hfits : C.drawFits s.draws with
  | false =>
    rw [endOfFrameTainted_none hfits, endOfFrameTainted_none (by rw [hdraws, hfits])]
    exact .of_no_frame (drawDest_same (h.map dropFrame (hlen := Nat.zero_le _)) d) nofun
  | true =>
    have hg : (C.drawBytes t.draws).take t.phyRxMax = (C.drawBytes s.draws).take s.phyRxMax := by rw [hdraws, hmax]
    rw [← hdraws] at hfits
    cases d with
    | outbuf =>
      rw [endOfFrameTainted_outbuf hfits hg, endOfFrameTainted_outbuf (hdraws ▸ hfits) rfl]
      obtain ⟨a, m, x, rfl, hread⟩ := h.exists_eq
      exact ⟨rfl, ⟨rfl, nofun⟩, nofun⟩
    | frm =>
      rw [endOfFrameTainted_frm hfits hg, endOfFrameTainted_frm (hdraws ▸ hfits) rfl]
      obtain ⟨a, m, x, rfl, hread⟩ := h.exists_eq
      refine ⟨rfl, ⟨rfl, nofun⟩, ?_⟩
      rintro _ _ ⟨⟩ i hi
      exact Memory.read_writeBytes_congr hs ht _ hi

theorem endOfFrame_same {C : Config} {s t : State} (h : SameButDeadBytes s t) (hs : s.frm.wf = true)
    (ht : t.frm.wf = true) (d : Dest) : SamePoll d (endOfFrame C d s) (endOfFrame C d t) := by
  have hf : (t.codec C).dec (t.acc.readBytes 0 t.len) = (s.codec C).dec (s.acc.readBytes 0 s.len) := by
    rw [← h.accumulated, h.1]
    rfl
  rw [endOfFrame, endOfFrame, hf]
  exact deliver_same (h.map dropFrame (hlen := Nat.zero_le _)) hs ht d _

/-- A byte stored at `ACC[LEN]`, where it stops being dead (R140). -/
theorem accumulate_same {s t : State} (h : SameButDeadBytes s t) (hs : s.acc.wf = true) (ht : t.acc.wf = true) (b : Byte) :
    SameButDeadBytes { s with acc := s.acc.write s.len b, len := s.len + 1 }
      { t with acc := t.acc.write t.len b, len := t.len + 1 } := by
  obtain ⟨a, m, x, rfl, hread⟩ := h.exists_eq
  refine ⟨rfl, fun i hi => ?_⟩
  change (a.write s.len b).read i = (s.acc.write s.len b).read i
  change i < s.len + 1 at hi
  rw [Memory.read_write ht, Memory.read_write hs]
  split
  · rfl
  · exact hread i (by omega)

/-- The arrays whose dead bytes may differ are in canonical form in both states (R70). -/
structure CanonicalArrays (s t : State) : Prop where
  acc : s.acc.wf = true
  acc' : t.acc.wf = true
  frm : s.frm.wf = true
  frm' : t.frm.wf = true

theorem classify_same {C : Config} {s t : State} (h : SameButDeadBytes s t) (hw : CanonicalArrays s t) (d : Dest)
    (b : Byte) : SamePoll d (classify C d b s) (classify C d b t) := by
  have hcodec : t.codec C = s.codec C := by rw [h.1]; rfl
  have hsync : t.sync = s.sync := by rw [h.1]
  have hlen : t.len = s.len := by rw [h.1]
  have htaint : t.taint = s.taint := by rw [h.1]
  have hcap : t.cap = s.cap := by rw [h.1]; rfl
  obtain ⟨hb, hs, e⟩ | ⟨hb, hs, hl, e⟩ | ⟨hb, hs, hl, ht, e⟩ | ⟨hb, hs, hl, ht, e⟩ | ⟨hb, hs, e⟩ | ⟨hb, hs, hl, e⟩ |
    ⟨hb, hs, hl, e⟩ := classify_cases C d b s <;> rw [e] <;> rw [← hcodec] at hb <;> rw [← hsync] at hs
  · rw [classify_start hb hs]
    exact .of_no_frame (h.map openFrame (hlen := Nat.zero_le _)) nofun
  · rw [classify_resync hb hs (by omega)]
    exact .of_no_frame (h.map openFrame (hlen := Nat.zero_le _)) nofun
  · rw [classify_end hb hs (by omega) (by rw [htaint, ht])]
    exact endOfFrame_same h hw.frm hw.frm' d
  · rw [classify_end_tainted hb hs (by omega) (by rw [htaint, ht])]
    exact endOfFrameTainted_same h hw.frm hw.frm' d
  · rw [classify_noise hb hs]
    exact .of_no_frame h nofun
  · rw [classify_overflow hb hs (by omega)]
    exact .of_no_frame (h.map dropFrame (hlen := Nat.zero_le _)) nofun
  · rw [classify_accumulate hb hs (by omega)]
    exact .of_no_frame (accumulate_same h hw.acc hw.acc' b) nofun

theorem phyPoll_same {C : Config} {s t : State} (h : SameButDeadBytes s t) (hw : CanonicalArrays s t) (d : Dest) :
    SamePoll d (phyPoll C d s) (phyPoll C d t) := by
  have hrx : t.rx.headD none = s.rx.headD none := by rw [h.1]
  have hpolled : SameButDeadBytes s.polled t.polled := h.map State.polled
  cases hb : s.rx.headD none with
  | none =>
    rw [phyPoll_noByte hb, phyPoll_noByte (hrx.trans hb)]
    exact .of_no_frame hpolled nofun
  | some b =>
    rw [phyPoll_byte hb, phyPoll_byte (hrx.trans hb)]
    exact classify_same hpolled ⟨hw.acc, hw.acc', hw.frm, hw.frm'⟩ d b

/-! ## The MAC on a delivered frame -/

theorem macAccepts_congr {s t : State} {r : Nat} (h : SameButDeadBytes s t)
    (hfrm : ∀ i, i < r → t.frm.read i = s.frm.read i) : macAccepts r t = macAccepts r s := by
  have hself : t.cfgSelf = s.cfgSelf := by rw [h.1]
  by_cases hr : 2 ≤ r
  · rw [macAccepts, macAccepts, hself, hfrm 0 (by omega)]
  · simp [macAccepts, hr]

theorem macAccept_same {s t : State} {r : Nat} (h : SameButDeadBytes s t) (hr : 2 ≤ r)
    (hfrm : ∀ i, i < r → t.frm.read i = s.frm.read i) : SameButDeadBytes (macAccept r s) (macAccept r t) := by
  have hpayload : t.frm.readBytes 2 (r - 2) = s.frm.readBytes 2 (r - 2) :=
    Memory.readBytes_congr fun j hj => hfrm (2 + j) (by omega)
  rw [macAccept_of rfl rfl, macAccept_of (hfrm 1 (by omega)) hpayload]
  obtain ⟨a, m, x, rfl, hread⟩ := h.exists_eq
  exact ⟨rfl, hread⟩

theorem two_le_of_macAccepts {r : Nat} {s : State} (h : macAccepts r s = true) : 2 ≤ r := ((macAccepts_iff r s).1 h).1

theorem macOutcomeNb_same {s t : State} {r : Int} (h : SameButDeadBytes s t)
    (hfrm : ∀ i, i < r.toNat → t.frm.read i = s.frm.read i) : SameButDeadBytes (macOutcomeNb r s) (macOutcomeNb r t) := by
  have haccepts := macAccepts_congr h hfrm
  obtain ⟨hr, e⟩ | ⟨hr, ha, e⟩ | ⟨hr, ha, e⟩ := macOutcomeNb_cases r s <;> rw [e, macOutcomeNb]
  · rw [if_pos hr]
    exact h.map (macFinish _ _)
  · rw [if_neg (by omega), if_pos (haccepts.trans ha)]
    exact macAccept_same h (two_le_of_macAccepts ha) hfrm
  · rw [if_neg (by omega), if_neg (by rw [haccepts, ha]; nofun)]
    exact h.map (macFinish _ _)

theorem macOutcomeBl_same {s t again again' : State} {r : Int} (hagain : SameButDeadBytes again again')
    (h : SameButDeadBytes s t) (hfrm : ∀ i, i < r.toNat → t.frm.read i = s.frm.read i) (pst : Status) :
    SameButDeadBytes (macOutcomeBl again r pst s) (macOutcomeBl again' r pst t) := by
  have haccepts := macAccepts_congr h hfrm
  simp only [macOutcomeBl, haccepts]
  split
  · exact h.map (macFinish _ _)
  · split
    · exact hagain
    · split
      next ha => exact macAccept_same h (two_le_of_macAccepts ha) hfrm
      next => exact hagain

/-! ## Receives -/

/-- A non-blocking MAC_RECV reads no byte past the frame it was given (R182, R185). -/
theorem SamePoll.frm_nonBlocking {p q : PollCase × State} (h : SamePoll .frm p q) {i : Nat}
    (hi : i < p.1.nonBlocking.1.toNat) : q.2.frm.read i = p.2.frm.read i := by
  cases hc : p.1 with
  | frame n =>
    rw [hc] at hi
    exact h.frame rfl n hc i hi
  | noByte | startOfFrame | resync | noise | accumulate | overflow | tooLong =>
    rw [hc] at hi
    exact absurd hi (Nat.not_lt_zero i)

/-- Nor does a blocking one (R184, R185). -/
theorem SamePoll.frm_blocking {p q : PollCase × State} (h : SamePoll .frm p q) {out : Int × Status}
    (hout : p.1.blocking = some out) {i : Nat} (hi : i < out.1.toNat) : q.2.frm.read i = p.2.frm.read i := by
  cases hc : p.1 with
  | frame n =>
    rw [hc] at hout
    cases hout
    exact h.frame rfl n hc i hi
  | overflow | tooLong =>
    rw [hc] at hout
    cases hout
    exact absurd hi (Nat.not_lt_zero i)
  | noByte | startOfFrame | resync | noise | accumulate =>
    rw [hc] at hout
    cases hout

theorem phyRecvCommand_none {C : Config} {blk : BitVec 2} {tdef : Bool} {s : State} (h : resolveBlk blk s = none) :
    phyRecvCommand C blk tdef s = illegal s := by
  simp only [phyRecvCommand, h]

theorem macRecvCommand_none {C : Config} {blk : BitVec 2} {tdef : Bool} {s : State} (h : resolveBlk blk s = none) :
    macRecvCommand C blk tdef s = illegal s := by
  simp only [macRecvCommand, h]

theorem phyRecvCommand_same {C : Config} {s t : State} (h : SameButDeadBytes s t) (hw : CanonicalArrays s t)
    (blk : BitVec 2) (tdef : Bool) : SameButDeadBytes (phyRecvCommand C blk tdef s) (phyRecvCommand C blk tdef t) := by
  have hblk : resolveBlk blk t = resolveBlk blk s := by rw [h.1]; rfl
  obtain ⟨hb, e⟩ | ⟨hb, e⟩ | ⟨hb, e⟩ := phyRecvCommand_cases C blk tdef s <;> rw [e]
  · rw [phyRecvCommand_none (hblk.trans hb)]
    exact h.map illegal
  · have hpoll := phyPoll_same (C := C) h hw .outbuf
    rw [phyRecvCommand_nb (hblk.trans hb), hpoll.outcome]
    exact hpoll.state.map fun s => finish _ _ { s with phySt := _ }
  · rw [phyRecvCommand_bl (hblk.trans hb)]
    exact h.map fun s => { (now C s).2 with run := .phyRecv (resolveTmo tdef s) (s.nowNext C) }

theorem macRecvCommand_same {C : Config} {s t : State} (h : SameButDeadBytes s t) (hw : CanonicalArrays s t)
    (blk : BitVec 2) (tdef : Bool) : SameButDeadBytes (macRecvCommand C blk tdef s) (macRecvCommand C blk tdef t) := by
  have hblk : resolveBlk blk t = resolveBlk blk s := by rw [h.1]; rfl
  obtain ⟨hb, e⟩ | ⟨hb, e⟩ | ⟨hb, e⟩ := macRecvCommand_cases C blk tdef s <;> rw [e]
  · rw [macRecvCommand_none (hblk.trans hb)]
    exact h.map illegal
  · have hpoll := phyPoll_same (C := C) h hw .frm
    rw [macRecvCommand_nb (hblk.trans hb), hpoll.outcome]
    exact macOutcomeNb_same (hpoll.state.map fun s => { s with phySt := _ }) fun i hi => hpoll.frm_nonBlocking hi
  · rw [macRecvCommand_bl (hblk.trans hb)]
    exact h.map fun s => { (now C s).2 with run := .macTop (resolveTmo tdef s) (s.nowNext C) }

/-- An INIT draws `ACC` and `FRM` anew, and clears the scratch (R202). -/
theorem initCommand_same {C : Config} {s t : State} (h : SameButDeadBytes s t) (self dirid : Byte) (schreq : Scheme)
    (defblk : Mode) :
    SameButDeadBytes (initCommand C self dirid schreq defblk s) (initCommand C self dirid schreq defblk t) := by
  have harg : t.arg0 = s.arg0 := by rw [h.1]
  obtain ⟨hs, es⟩ | ⟨hs, es⟩ := initCommand_cases C self dirid schreq defblk s <;>
    obtain ⟨ht, et⟩ | ⟨ht, et⟩ := initCommand_cases C self dirid schreq defblk t <;> rw [es, et]
  · exact h.map illegal
  · rw [harg] at ht
    omega
  · rw [harg] at ht
    omega
  · refine .of_eq ?_
    rw [h.1]
    rfl

theorem command_same {C : Config} {s t : State} (h : SameButDeadBytes s t) (hw : CanonicalArrays s t) (i : Instr) :
    SameButDeadBytes (command C i s) (command C i t) := by
  cases i with
  | init self dirid schreq defblk => exact initCommand_same h self dirid schreq defblk
  | phySend size => exact phySendCommand_same h size
  | phyRecv blk tdef => exact phyRecvCommand_same h hw blk tdef
  | macSend dst size => exact macSendCommand_same h dst size
  | macRecv blk tdef => exact macRecvCommand_same h hw blk tdef

/-! ## A step -/

/-- Two rounds of a receive with the same outcome in states that differ in dead bytes only; the bytes of the frame that
ended it are not dead in a MAC_RECV. -/
structure SameRound (d : Dest) (p q : Option (Int × Status) × State) : Prop where
  outcome : q.1 = p.1
  state : SameButDeadBytes p.2 q.2
  frame : d = .frm → ∀ out, p.1 = some out → ∀ i, i < out.1.toNat → q.2.frm.read i = p.2.frm.read i

theorem checked_same {C : Config} {s t : State} (h : SameButDeadBytes s t) :
    SameButDeadBytes (s.checked C) (t.checked C) := h.map (State.checked C)

theorem phyReceiveRound_same {C : Config} {s t : State} (h : SameButDeadBytes s t) (hw : CanonicalArrays s t) (d : Dest)
    (tmo : Word) (t0 : Nat) :
    SameRound d (phyReceiveRound C d tmo t0 s.sampled) (phyReceiveRound C d tmo t0 t.sampled) := by
  have helapsed : t.elapsedNext C t0 = s.elapsedNext C t0 := by rw [h.1]; rfl
  have hchecked := checked_same (C := C) h
  have hpoll := phyPoll_same (C := C) hchecked ⟨hw.acc, hw.acc', hw.frm, hw.frm'⟩ d
  have houtcome := hpoll.outcome
  obtain ⟨hs, es⟩ | ⟨hs, out, hb, es⟩ | ⟨hs, hb, es⟩ := phyReceiveRound_cases C d tmo t0 s <;>
    obtain ⟨ht, et⟩ | ⟨ht, out', hb', et⟩ | ⟨ht, hb', et⟩ := phyReceiveRound_cases C d tmo t0 t <;>
    rw [helapsed] at ht
  · rw [es, et]
    refine ⟨rfl, hchecked.map fun s => { s with phySt := .timeout }, ?_⟩
    rintro _ _ ⟨⟩ i hi
    exact absurd hi (Nat.not_lt_zero i)
  · omega
  · omega
  · omega
  · rw [houtcome, hb] at hb'
    cases hb'
    rw [es, et]
    exact ⟨rfl, hpoll.state.map fun s => { s with phySt := _ }, by
      rintro rfl _ ⟨⟩ i hi
      exact hpoll.frm_blocking hb hi⟩
  · rw [houtcome, hb] at hb'
    cases hb'
  · omega
  · rw [houtcome, hb] at hb'
    cases hb'
  · rw [es, et]
    exact ⟨rfl, hpoll.state, nofun⟩

theorem phyRecvRound_same {C : Config} {s t : State} (h : SameButDeadBytes s t) (hw : CanonicalArrays s t) (tmo : Word)
    (t0 : Nat) : SameButDeadBytes (phyRecvRound C tmo t0 s.sampled) (phyRecvRound C tmo t0 t.sampled) := by
  have hround := phyReceiveRound_same (C := C) h hw .outbuf tmo t0
  simp only [phyRecvRound, hround.outcome]
  split
  · exact hround.state.map (finish _ _)
  · exact hround.state

theorem macTopRound_same {C : Config} {s t : State} (h : SameButDeadBytes s t) (tmo : Word)
    (t0 : Nat) : SameButDeadBytes (macTopRound C tmo t0 s.sampled) (macTopRound C tmo t0 t.sampled) := by
  have hnow : t.nowNext C = s.nowNext C := by rw [h.1]; rfl
  by_cases he : tmo.toNat < elapsed C (s.nowNext C) t0
  · simp only [macTopRound, now_sampled, hnow, he, if_true]
    exact (checked_same h).map (macFinish _ _)
  · simp only [macTopRound, now_sampled, hnow, he, if_false]
    exact (checked_same h).map fun s => { s with run := .macPhy tmo t0 }

theorem macPhyRound_same {C : Config} {s t : State} (h : SameButDeadBytes s t) (hw : CanonicalArrays s t) (tmo : Word)
    (t0 : Nat) : SameButDeadBytes (macPhyRound C tmo t0 s.sampled) (macPhyRound C tmo t0 t.sampled) := by
  have hround := phyReceiveRound_same (C := C) h hw .frm tmo t0
  simp only [macPhyRound, hround.outcome]
  split
  next out hout =>
    exact macOutcomeBl_same (hround.state.map fun s => { s with run := .macTop tmo t0 }) hround.state
      (fun i hi => hround.frame rfl out hout i hi) out.2
  next => exact hround.state

/-- A step without reset. -/
theorem unresetStep_same {C : Config} {s t u : State} (h : SameButDeadBytes s t) (hw : CanonicalArrays s t)
    (hstep : unresetStep C (execWith C) s.sampled = .next u) :
    ∃ v, unresetStep C (execWith C) t.sampled = .next v ∧ SameButDeadBytes u v := by
  have hrun : t.sampled.run = s.sampled.run := by rw [h.1]; rfl
  have hhost : t.sampled.host = s.sampled.host := by rw [h.1]; rfl
  have hsampled : SameButDeadBytes s.sampled t.sampled := h.map State.sampled
  have hcommand : ∀ cmd a0 a1 rest, SameButDeadBytes (latch cmd a0 a1 { s.sampled with host := rest })
      (latch cmd a0 a1 { t.sampled with host := rest }) :=
    fun cmd a0 a1 rest => hsampled.map fun s => latch cmd a0 a1 { s with host := rest }
  obtain ⟨hr, hh, rfl⟩ | ⟨hr, bytes, rest, hh, rfl⟩ | ⟨hr, cmd, a0, a1, rest, i, hh, hd, rfl⟩ |
    ⟨hr, cmd, a0, a1, rest, i, hh, hd, rfl⟩ | ⟨tmo, t0, hr, rfl⟩ | ⟨tmo, t0, hr, rfl⟩ | ⟨tmo, t0, hr, rfl⟩ :=
    unresetStep_cases hstep
  · refine ⟨_, ?_, hsampled⟩
    simp only [unresetStep, idleStep, hrun.trans hr, hhost.trans hh]
  · refine ⟨_, ?_, hsampled.map fun s => hostWrite C bytes { s with host := rest }⟩
    simp only [unresetStep, idleStep, hrun.trans hr, hhost.trans hh]
  · refine ⟨_, ?_, command_same (hcommand cmd a0 a1 rest) ⟨hw.acc, hw.acc', hw.frm, hw.frm'⟩ i⟩
    simp only [unresetStep, idleStep, hrun.trans hr, hhost.trans hh, hd, execWith]
  · refine ⟨_, ?_, (hcommand cmd a0 a1 rest).map illegal⟩
    simp only [unresetStep, idleStep, hrun.trans hr, hhost.trans hh, hd]
  · refine ⟨_, ?_, phyRecvRound_same h hw tmo t0⟩
    simp only [unresetStep, receiveRound, hrun.trans hr]
  · refine ⟨_, ?_, macTopRound_same h tmo t0⟩
    simp only [unresetStep, receiveRound, hrun.trans hr]
  · refine ⟨_, ?_, macPhyRound_same h hw tmo t0⟩
    simp only [unresetStep, receiveRound, hrun.trans hr]

/-- Reset overwrites the dead bytes with the same draws, or clears them (R59, R245). -/
theorem resetBlock_same {C : Config} {s t : State} (h : SameButDeadBytes s t) : resetBlock C t = resetBlock C s := by
  rw [h.1]
  rfl

theorem interrupted_same {s t u v : State} (h : SameButDeadBytes s t) (huv : SameButDeadBytes u v) (k : Nat) :
    SameButDeadBytes (interrupted k s u) (interrupted k t v) := by
  obtain ⟨a, m, x, rfl, hread⟩ := h.exists_eq
  obtain ⟨a', m', x', rfl, _⟩ := huv.exists_eq
  rw [interrupted, interrupted, replay_eq, replay_eq]
  exact ⟨rfl, hread⟩

/-- Settles O56: a step is reset, a cut step or a step without reset. -/
theorem deadBytesAreNeverRead : Obligations.DeadBytesAreNeverRead := by
  unfold Obligations.DeadBytesAreNeverRead
  intro C s t s' h hsacc htacc hsfrm htfrm hstep
  have hw : CanonicalArrays s t := ⟨hsacc, htacc, hsfrm, htfrm⟩
  have hnow : t.resetNow = s.resetNow := by rw [h.1]; rfl
  have hsampled : SameButDeadBytes s.sampled t.sampled := h.map State.sampled
  obtain ⟨hr, rfl⟩ | ⟨k, u, hr, hu, rfl⟩ | ⟨hr, hu⟩ := stepWith_cases hstep
  · exact ⟨_, stepWith_atStart (hnow.trans hr), .of_eq (resetBlock_same hsampled)⟩
  · obtain ⟨v, hv, huv⟩ := unresetStep_same h hw hu
    refine ⟨resetBlock C (interrupted k t.sampled v), ?_, .of_eq (resetBlock_same (interrupted_same hsampled huv k))⟩
    rw [stepWith_after (hnow.trans hr), hv]
    rfl
  · obtain ⟨v, hv, huv⟩ := unresetStep_same h hw hu
    refine ⟨v, ?_, huv⟩
    rw [stepWith_unreset (by rw [State.resetAsserted, hnow]; exact hr), hv]

end Sys2Proof.Machine
end

section
/-! SUPPORT. Whole receives (40_phy_framer.md R134 to R157, 41_mac_layer.md R181 to R191, 70_reset_and_hazards.md R248, R254): the
polls of a run, from noise or an open frame to its end. What a run of polls does is proved once for every way of making
them, by non-blocking calls or by the loop of a blocking receive. -/
namespace Sys2Proof.Machine

/-! ## What a poll looks at -/

/-- `t` keeps what `s` has of the receiver beside the bytes that come in. -/
structure SameReceiver (s t : State) : Prop where
  cfgM : t.cfgM = s.cfgM := by rfl
  cfgSchemeReq : t.cfgSchemeReq = s.cfgSchemeReq := by rfl
  cfgSelf : t.cfgSelf = s.cfgSelf := by rfl
  sync : t.sync = s.sync := by rfl
  taint : t.taint = s.taint := by rfl
  outbuf : t.outbuf = s.outbuf := by rfl
  frm : t.frm = s.frm := by rfl

theorem SameReceiver.trans {s t u : State} (h : SameReceiver s t) (h' : SameReceiver t u) : SameReceiver s u where
  cfgM := h'.cfgM.trans h.cfgM
  cfgSchemeReq := h'.cfgSchemeReq.trans h.cfgSchemeReq
  cfgSelf := h'.cfgSelf.trans h.cfgSelf
  sync := h'.sync.trans h.sync
  taint := h'.taint.trans h.taint
  outbuf := h'.outbuf.trans h.outbuf
  frm := h'.frm.trans h.frm

theorem SameReceiver.scheme {s t : State} (h : SameReceiver s t) : t.scheme = s.scheme := by
  rw [State.scheme, State.scheme, h.cfgM, h.cfgSchemeReq]

theorem SameReceiver.codec {s t : State} (h : SameReceiver s t) (C : Config) : t.codec C = s.codec C :=
  congrArg (schemeCodec C) h.scheme

theorem SameReceiver.cap {s t : State} (h : SameReceiver s t) : t.cap = s.cap := by
  rw [State.cap, State.cap, h.cfgM, h.scheme]

theorem SameReceiver.opened {s t : State} (h : SameReceiver s t) : SameReceiver (openFrame s) (openFrame t) where
  cfgM := h.cfgM
  cfgSchemeReq := h.cfgSchemeReq
  cfgSelf := h.cfgSelf
  outbuf := h.outbuf
  frm := h.frm

/-- `t` keeps the bytes that come in and those stored, too. -/
structure SameReception (s t : State) : Prop extends SameReceiver s t where
  rx : t.rx = s.rx := by rfl
  len : t.len = s.len := by rfl
  acc : t.acc = s.acc := by rfl

theorem SameReception.trans {s t u : State} (h : SameReception s t) (h' : SameReception t u) : SameReception s u where
  toSameReceiver := h.toSameReceiver.trans h'.toSameReceiver
  rx := h'.rx.trans h.rx
  len := h'.len.trans h.len
  acc := h'.acc.trans h.acc

/-- In a frame that the receiver of `r` opened, `t` has stored the bytes `raw`, and `todo` is what comes next. -/
structure Accumulates (r t : State) (raw : Bytes) (todo : List (Option Byte)) : Prop extends SameReceiver r t where
  rx : t.rx = todo
  len : t.len = raw.length
  wf : t.acc.wf = true
  bytes : t.acc.readBytes 0 raw.length = raw

theorem Accumulates.congr {r s t : State} {raw : Bytes} {todo : List (Option Byte)} (h : Accumulates r s raw todo)
    (hst : SameReception s t) : Accumulates r t raw todo where
  toSameReceiver := h.toSameReceiver.trans hst.toSameReceiver
  rx := hst.rx.trans h.rx
  len := hst.len.trans h.len
  wf := by rw [hst.acc, h.wf]
  bytes := by rw [hst.acc, h.bytes]

/-- One more byte is stored (R140). -/
theorem Accumulates.poll {C : Config} {r s : State} {raw : Bytes} {b : Byte} {todo : List (Option Byte)}
    (h : Accumulates r s raw (some b :: todo)) (hsync : r.sync = true) (hb : b ≠ (r.codec C).delim)
    (hcap : raw.length < r.cap) (d : Dest) :
    ∃ u, phyPoll C d s = (.accumulate, u) ∧ Accumulates r u (raw ++ [b]) todo := by
  have hhead : s.rx.headD none = some b := by rw [h.rx]; rfl
  refine ⟨_, phyPoll_accumulate hhead (by rwa [h.codec C]) (h.sync.trans hsync) (by rw [h.len, h.cap]; exact hcap), ?_⟩
  exact {
    toSameReceiver := h.toSameReceiver.trans {}
    rx := (congrArg List.tail h.rx :)
    len := by simp [h.len]
    wf := Memory.write_wf h.wf _ _
    bytes := by
      rw [List.length_append, List.length_singleton, h.len]
      exact (Memory.readBytes_write_end h.wf _ b).trans (by rw [h.bytes]) }

/-- A delimiter outside a frame, or with nothing stored in one, opens a frame (R136, R137). -/
theorem phyPoll_opens {C : Config} {s : State} (h : s.rx.headD none = some (s.codec C).delim)
    (hopen : s.sync = false ∨ s.len = 0) (d : Dest) :
    ∃ c, phyPoll C d s = (c, openFrame s.polled) ∧ c.blocking = none := by
  cases hs : s.sync with
  | false => exact ⟨_, phyPoll_start h hs, rfl⟩
  | true =>
    rw [hs] at hopen
    exact ⟨_, phyPoll_resync h hs (hopen.resolve_left nofun), rfl⟩

/-- The delimiter that ends a stored encoding: what it destuffs to is what was encoded (P2). -/
theorem Accumulates.endsFrame {C : Config} {r s : State} {p : Bytes} {later : List (Option Byte)}
    (h : Accumulates r s ((r.codec C).enc p) (some (r.codec C).delim :: later)) :
    s.rx.headD none = some (s.codec C).delim ∧ (s.codec C).dec (s.acc.readBytes 0 s.len) = p := by
  rw [h.codec C, h.rx, h.len, h.bytes]
  exact ⟨rfl, (r.codec C).round_trip p⟩

/-! ## A run of polls -/

/-- Where `M (n + 1)` holds a step polls, and where that poll does not end a blocking receive it leads to `M n`. -/
def Polls (C : Config) (d : Dest) (M : Nat → State → Prop) : Prop :=
  ∀ n s, M (n + 1) s → ∃ s₀, SameReception s s₀ ∧
    ∀ c u, phyPoll C d s₀ = (c, u) → c.blocking = none → ∃ v, stepWith C s = .next v ∧ SameReception u v ∧ M n v

section
variable {C : Config} {d : Dest} {M : Nat → State → Prop} (hM : Polls C d M)
include hM

/-- Bytes of a frame are stored one after the other, as far as there is room (R140). -/
theorem Polls.accumulate {r : State} (hsync : r.sync = true) {n : Nat} {todo : List (Option Byte)} (bs : Bytes) {s : State}
    {raw : Bytes} (hs : M (bs.length + n) s) (h : Accumulates r s raw (bs.map some ++ todo))
    (hbs : ∀ b ∈ bs, b ≠ (r.codec C).delim) (hcap : raw.length + bs.length ≤ r.cap) :
    ∃ t, runWith C bs.length s = .next t ∧ M n t ∧ Accumulates r t (raw ++ bs) todo := by
  induction bs generalizing s raw with
  | nil => exact ⟨s, rfl, by simpa using hs, by simpa using h⟩
  | cons b bs ih =>
    rw [List.length_cons] at hcap
    obtain ⟨hb, hrest⟩ := List.forall_mem_cons.1 hbs
    obtain ⟨s₀, hsame, hpolls⟩ := hM (bs.length + n) s (by rwa [List.length_cons, Nat.add_right_comm] at hs)
    obtain ⟨u, hu, hstored⟩ := (h.congr hsame).poll hsync hb (by omega) d
    obtain ⟨v, hv, huv, hnext⟩ := hpolls _ u hu rfl
    obtain ⟨t, ht, hMt, hdone⟩ := ih hnext (hstored.congr huv) hrest (by simp; omega)
    exact ⟨t, by rw [List.length_cons, runWith_succ _ hv, ht], hMt, by simpa using hdone⟩

/-- Bytes outside a frame are dropped, other than the delimiter (R143). -/
theorem Polls.noise {n : Nat} {todo : List (Option Byte)} (bs : Bytes) {s : State} (hs : M (bs.length + n) s)
    (hsync : s.sync = false) (hrx : s.rx = bs.map some ++ todo) (hbs : ∀ b ∈ bs, b ≠ (s.codec C).delim) :
    ∃ t, runWith C bs.length s = .next t ∧ M n t ∧ SameReceiver s t ∧ t.acc = s.acc ∧ t.rx = todo := by
  induction bs generalizing s with
  | nil => exact ⟨s, rfl, by simpa using hs, {}, rfl, hrx⟩
  | cons b bs ih =>
    obtain ⟨hb, hrest⟩ := List.forall_mem_cons.1 hbs
    obtain ⟨s₀, hsame, hpolls⟩ := hM (bs.length + n) s (by rwa [List.length_cons, Nat.add_right_comm] at hs)
    have hrx₀ : s₀.rx = some b :: (bs.map some ++ todo) := hsame.rx.trans hrx
    have hpoll := phyPoll_noise (C := C) (d := d) (s := s₀) (b := b) (by rw [hrx₀]; rfl)
      (by rwa [hsame.codec C]) (hsame.sync.trans hsync)
    obtain ⟨v, hv, huv, hnext⟩ := hpolls _ _ hpoll rfl
    have hsv : SameReceiver s v := (hsame.toSameReceiver.trans {}).trans huv.toSameReceiver
    obtain ⟨t, ht, hMt, hst, hacc, htodo⟩ := ih hnext (hsv.sync.trans hsync)
      (huv.rx.trans (congrArg List.tail hrx₀ :)) (by rwa [hsv.codec C])
    exact ⟨t, by rw [List.length_cons, runWith_succ _ hv, ht], hMt, hsv.trans hst,
      hacc.trans (huv.acc.trans hsame.acc), htodo⟩

/-- A delimiter outside a frame, or with nothing stored in one (R136, R137). -/
theorem Polls.opens {n : Nat} {s : State} {todo : List (Option Byte)} (hs : M (n + 1) s)
    (hopen : s.sync = false ∨ s.len = 0) (hrx : s.rx = some (s.codec C).delim :: todo) :
    ∃ t, stepWith C s = .next t ∧ M n t ∧ SameReceiver (openFrame s) t ∧ t.rx = todo ∧ t.len = 0 ∧ t.acc = s.acc := by
  obtain ⟨s₀, hsame, hpolls⟩ := hM n s hs
  have hhead : s₀.rx.headD none = some (s₀.codec C).delim := by rw [hsame.rx, hsame.codec C, hrx]; rfl
  obtain ⟨c, hpoll, hc⟩ := phyPoll_opens hhead (by rwa [hsame.sync, hsame.len]) d
  obtain ⟨t, ht, hst, hnext⟩ := hpolls c _ hpoll hc
  have hopened : SameReceiver (openFrame s) (openFrame s₀.polled) := hsame.toSameReceiver.opened.trans {}
  refine ⟨t, ht, hnext, hopened.trans hst.toSameReceiver, ?_, hst.len, hst.acc.trans hsame.acc⟩
  rw [hst.rx, openFrame_rx, polled_rx, hsame.rx, hrx, List.tail_cons]

/-- A frame up to its last byte, from the delimiter that opens it. -/
theorem Polls.frameBody {n : Nat} {s : State} {e : Bytes} {todo : List (Option Byte)} (hs : M (e.length + 1 + n) s)
    (hl : s.len = 0) (hwf : s.acc.wf = true) (hrx : s.rx = some (s.codec C).delim :: (e.map some ++ todo))
    (he : (s.codec C).delim ∉ e) (hcap : e.length ≤ s.cap) :
    ∃ t, runWith C (e.length + 1) s = .next t ∧ M n t ∧ Accumulates (openFrame s) t e todo := by
  obtain ⟨u, hu, hMu, hsame, hrxu, hlen, hacc⟩ :=
    hM.opens (n := e.length + n) (by rwa [Nat.add_right_comm] at hs) (.inr hl) hrx
  have hopened : Accumulates (openFrame s) u [] (e.map some ++ todo) :=
    { toSameReceiver := hsame, rx := hrxu, len := hlen, wf := by rw [hacc, hwf], bytes := rfl }
  obtain ⟨t, ht, hMt, hstored⟩ := hM.accumulate rfl e hMu hopened (fun b hb heq => he (heq ▸ hb))
    ((Nat.zero_add _).trans_le hcap)
  exact ⟨t, by rw [runWith_succ _ hu, ht], hMt, hstored⟩

end

/-! ## The polls of a blocking receive -/

/-- The loop in which a blocking receive polls for a destination (R153, R189). -/
def Dest.loop (tmo : Word) (t0 : Nat) : Dest → Run
  | .outbuf => .phyRecv tmo t0
  | .frm => .macPhy tmo t0

/-- A receive goes on undisturbed: reset stays away, and no coming check of the deadline sees it passed. -/
structure Undisturbed (C : Config) (run : Run) (tmo : Word) (t0 : Nat) (s : State) : Prop where
  run : s.run = run
  resetIn : s.resetIn = []
  inTime : ∀ k, elapsed C ((s.clock + (s.ticks.take k).sum) % 2 ^ C.clkW) t0 ≤ tmo.toNat

section
variable {C : Config} {run : Run} {tmo : Word} {t0 : Nat} {s : State}

theorem Undisturbed.not_asserted (h : Undisturbed C run tmo t0 s) : s.resetAsserted = false :=
  not_asserted_of_resetIn_nil h.resetIn

theorem Undisturbed.elapsed_le (h : Undisturbed C run tmo t0 s) : s.elapsedNext C t0 ≤ tmo.toNat := by
  have hnext := h.inTime 1
  rwa [take_succ_sum, List.take_zero, List.sum_nil, Nat.add_zero] at hnext

/-- A check of the deadline leaves one check less. -/
theorem Undisturbed.of_checked (h : Undisturbed C run tmo t0 s) {t : State} {run' : Run} (hrun : t.run = run')
    (hresetIn : t.resetIn = s.resetIn) (hclock : t.clock = s.clockNext) (hticks : t.ticks = s.ticks.tail) :
    Undisturbed C run' tmo t0 t := by
  refine ⟨hrun, hresetIn.trans h.resetIn, fun k => ?_⟩
  have hlater := h.inTime (k + 1)
  rwa [take_succ_sum, ← Nat.add_assoc, ← State.clockNext, ← hclock, ← hticks] at hlater

/-- With the clock standing there is one reading for all checks. -/
theorem Undisturbed.of_clock_stands (hrun : s.run = run) (hresetIn : s.resetIn = []) (hticks : s.ticks = [])
    (he : s.elapsedNext C t0 ≤ tmo.toNat) : Undisturbed C run tmo t0 s := by
  refine ⟨hrun, hresetIn, fun k => ?_⟩
  have hstands : s.clockNext = s.clock + (s.ticks.take k).sum := by
    rw [State.clockNext, hticks, List.take_nil]
    rfl
  rw [← hstands]
  exact he

/-- A receive whose coming readings of the clock advance it by at most `T` in all is in time from its start on (R151). -/
theorem Undisturbed.of_start {start : State} (hrun : s.run = run) (hresetIn : s.resetIn = [])
    (hclock : s.clock = start.clockNext) (hticks : s.ticks = start.ticks.tail)
    (hsum : start.ticks.tail.sum ≤ tmo.toNat) : Undisturbed C run tmo (start.nowNext C) s := by
  refine ⟨hrun, hresetIn, fun k => ?_⟩
  have hpart : (s.ticks.take k).sum ≤ s.ticks.sum := (List.take_sublist k _).sum_le_sum fun _ _ => Nat.zero_le _
  have hpassed := elapsed_le_sub C (c := s.clock + (s.ticks.take k).sum) (c0 := start.clockNext) (by omega)
  rw [hticks] at hpart hpassed
  rw [State.nowNext, hticks]
  omega

/-- A step of either loop whose poll lets it go on (R153). -/
theorem Undisturbed.step_continues {d : Dest} (h : Undisturbed C (d.loop tmo t0) tmo t0 s)
    (hc : (phyPoll C d (s.checked C)).1.blocking = none) : stepWith C s = .next (phyPoll C d (s.checked C)).2 := by
  cases d with
  | outbuf => exact stepWith_phyRecv_continue h.not_asserted h.run h.elapsed_le hc
  | frm => exact stepWith_macPhy_continue h.not_asserted h.run h.elapsed_le hc

end

/-- Each round of a blocking receive polls once. -/
theorem polls_blocking (C : Config) (d : Dest) (tmo : Word) (t0 : Nat) :
    Polls C d fun _ => Undisturbed C (d.loop tmo t0) tmo t0 := by
  intro _ s h
  refine ⟨s.checked C, {}, ?_⟩
  rintro c u hu hc
  have hstep := h.step_continues (by rw [hu]; exact hc)
  obtain rfl : (phyPoll C d (s.checked C)).2 = u := by rw [hu]
  refine ⟨_, hstep, {}, h.of_checked ((phyPoll_run C d _).trans h.run) ?_ (phyPoll_clock C d _) (phyPoll_ticks C d _)⟩
  rw [phyPoll_resetIn, checked_resetIn_nil C h.resetIn, h.resetIn]

/-- Settles O58: the bytes before the delimiter are noise, and it opens the frame. -/
theorem bytesBeforeADelimiterAreDropped : Obligations.BytesBeforeADelimiterAreDropped := by
  unfold Obligations.BytesBeforeADelimiterAreDropped
  intro C s noise later tmo t0 hrun hresetIn hticks he hsync hnoise hrx
  have hs : Undisturbed C (Dest.outbuf.loop tmo t0) tmo t0 s := .of_clock_stands hrun hresetIn hticks he
  have hpolls := polls_blocking C .outbuf tmo t0
  obtain ⟨t, ht, hMt, hsame, hacc, hrxt⟩ := hpolls.noise (n := 0) noise hs hsync hrx hnoise
  obtain ⟨u, hu, hMu, hopened, hrxu, hlen, haccu⟩ :=
    hpolls.opens (n := 0) hMt (.inl (hsame.sync.trans hsync)) (by rwa [hsame.codec C])
  refine ⟨u, ?_, hMu.run, hopened.sync, hlen, hopened.taint, haccu.trans hacc, hopened.outbuf.trans hsame.outbuf, hrxu⟩
  rw [runWith_add _ 1 ht, runWith_succ 0 hu, runWith]

/-- Settles O57: each byte finds room up to `CAP`, and the next one does not. -/
theorem accumulatorHoldsExactlyCapBytes : Obligations.AccumulatorHoldsExactlyCapBytes := by
  unfold Obligations.AccumulatorHoldsExactlyCapBytes
  intro C s raw b later tmo t0 hrun hresetIn hticks he hwf hsync hlen hraw hdelim hb hrx
  have hs : Undisturbed C (Dest.outbuf.loop tmo t0) tmo t0 s := .of_clock_stands hrun hresetIn hticks he
  have hempty : Accumulates s s [] (raw.map some ++ some b :: later) :=
    { rx := hrx, len := hlen, wf := hwf, bytes := rfl }
  obtain ⟨t, ht, hMt, hfull⟩ := (polls_blocking C .outbuf tmo t0).accumulate (n := 0) hsync raw hs hempty hdelim
    (by simp; omega)
  have hhead : t.rx.headD none = some b := by rw [hfull.rx]; rfl
  have hlen' : t.len = s.cap := by rw [hfull.len]; exact hraw
  have hpoll := phyPoll_overflow (C := C) (d := .outbuf) (s := t.checked C) hhead
    (show b ≠ (t.codec C).delim by rwa [hfull.codec C]) (hfull.sync.trans hsync)
    (show t.cap ≤ t.len by rw [hlen', hfull.cap])
  have hstep := phyRecv_stepsTo_of_poll_fails hMt.not_asserted hMt.run hMt.elapsed_le hpoll rfl
  exact ⟨t, _, ht, hMt.run, hlen', by rw [hfull.len]; exact hfull.bytes, hfull.rx, hstep.1, rfl, rfl, rfl, rfl, rfl,
    (congrArg List.tail hfull.rx :)⟩

end Sys2Proof.Machine
end

section
/-! SUPPORT. The round trips (40_phy_framer.md R157, 41_mac_layer.md R191): what one block sends another receives, by
non-blocking calls, and by one blocking call that is not timed out. -/
namespace Sys2Proof.Machine

/-! ## Taking a command -/

/-- The state in which a command presented with no argument runs: the port holds it, and `host` is what the host does
next (R35). -/
def State.taking (cmd : Word) (host : List HostAction) (s : State) : State := latch cmd 0#32 0#32 { s with host := host }

theorem stepWith_takes {C : Config} {s t : State} {cmd : Word} {host : List HostAction} {i : Instr} (hrun : s.run = .idle)
    (hresetIn : s.resetIn = []) (hhost : s.host = .command cmd 0#32 0#32 :: host) (hdecode : decode cmd = .ok i)
    (h : Answers C i (s.taking cmd host) t) : stepWith C s = .next t := by
  rw [stepWith_command (not_asserted_of_resetIn_nil hresetIn) hrun hhost hdecode, sampled_of_resetIn_nil hresetIn]
  exact h.1

/-! ## Polls by non-blocking calls -/

/-- The host presents a non-blocking PHY_RECV. -/
def pollAction : HostAction := .command 0x32000000#32 0#32 0#32

/-- The host presents `n` more non-blocking PHY_RECVs to an idle block, and reset stays away. -/
structure PollsPending (rest : List HostAction) (n : Nat) (s : State) : Prop where
  run : s.run = .idle
  resetIn : s.resetIn = []
  host : s.host = List.replicate n pollAction ++ rest

theorem phyPoll_host (C : Config) (d : Dest) (s : State) : (phyPoll C d s).2.host = s.host := by
  rw [phyPoll_frame]
  rfl

theorem PollsPending.step {C : Config} {rest : List HostAction} {n : Nat} {s u : State} {c : PollCase}
    (h : PollsPending rest (n + 1) s)
    (hp : phyPoll C .outbuf (s.taking 0x32000000#32 (List.replicate n pollAction ++ rest)) = (c, u)) :
    stepWith C s = .next (State.ended c.nonBlocking.1 c.nonBlocking.2 { u with phySt := c.nonBlocking.2 }) :=
  stepWith_takes h.run h.resetIn h.host (i := .phyRecv 0b00#2 true) rfl
    (phyRecv_answers_nb ((resolveBlk_nb_iff _ _).2 (.inl rfl)) hp)

/-- Each call polls once. -/
theorem polls_pending (C : Config) (rest : List HostAction) : Polls C .outbuf (PollsPending rest) := by
  intro n s h
  refine ⟨s.taking 0x32000000#32 (List.replicate n pollAction ++ rest), {}, ?_⟩
  intro c u hu _
  obtain rfl : (phyPoll C .outbuf (s.taking 0x32000000#32 (List.replicate n pollAction ++ rest))).2 = u := by rw [hu]
  exact ⟨_, h.step hu, {}, rfl, (phyPoll_resetIn C .outbuf _).trans h.resetIn, phyPoll_host C .outbuf _⟩

/-! ## The start of a blocking receive -/

section
variable {C : Config} {s : State} {rest : List HostAction}

/-- The state in which a blocking receive of the default timeout starts the loop `run` (R150). -/
def State.started (C : Config) (cmd : Word) (host : List HostAction) (run : Run) (s : State) : State :=
  { (now C (s.taking cmd host)).2 with run := run }

theorem State.started_undisturbed (hresetIn : s.resetIn = []) (hsum : s.ticks.tail.sum ≤ s.cfgDeftmo.toNat) (cmd : Word)
    (run : Run) : Undisturbed C run s.cfgDeftmo (s.nowNext C) (s.started C cmd rest run) :=
  .of_start rfl hresetIn rfl rfl hsum

theorem stepWith_phyRecv_start (hrun : s.run = .idle) (hresetIn : s.resetIn = [])
    (hhost : s.host = .command 0x36000000#32 0#32 0#32 :: rest) :
    stepWith C s = .next (s.started C 0x36000000#32 rest (.phyRecv s.cfgDeftmo (s.nowNext C))) :=
  stepWith_takes hrun hresetIn hhost (i := .phyRecv 0b01#2 true) rfl
    (answers_of (phyRecvCommand_bl (resolveBlk_bl (.inl rfl))))

theorem stepWith_macRecv_start (hrun : s.run = .idle) (hresetIn : s.resetIn = [])
    (hhost : s.host = .command 0x56000000#32 0#32 0#32 :: rest) :
    stepWith C s = .next (s.started C 0x56000000#32 rest (.macTop s.cfgDeftmo (s.nowNext C))) :=
  stepWith_takes hrun hresetIn hhost (i := .macRecv 0b01#2 true) rfl
    (answers_of (macRecvCommand_bl (resolveBlk_bl (.inl rfl))))

end

/-! ## The end of the frame -/

/-- `u` has ended a PHY_RECV that delivered `p`, and `later` is left to receive (R141). -/
def Delivered (p : Bytes) (later : List (Option Byte)) (u : State) : Prop :=
  u.run = .idle ∧ u.ret = BitVec.ofNat 32 p.length ∧ u.rstat = .noError ∧ u.outbuf.readBytes 0 p.length = p ∧
    u.sync = false ∧ u.len = 0 ∧ u.rx = later

section
variable {C : Config} {r t : State} {p : Bytes} {later : List (Option Byte)}
  (h : Accumulates (openFrame r) t ((r.codec C).enc p) (some (r.codec C).delim :: later))
  (hpos : 0 < ((r.codec C).enc p).length)
include h hpos

theorem Accumulates.poll_fits_outbuf (hp : p.length ≤ r.cfgM.toNat) :
    phyPoll C .outbuf t = (.frame p.length, { t.polled with
      sync := false, len := 0, taint := false, outbuf := t.outbuf.writeBytes 0 p }) := by
  obtain ⟨hdelim, hf⟩ := h.endsFrame
  exact phyPoll_fits_outbuf hdelim h.sync (by rw [h.len]; exact hpos) h.taint hf (by rw [h.cfgM]; exact hp)

theorem Accumulates.poll_fits_frm (hp : p.length ≤ r.cfgM.toNat) :
    phyPoll C .frm t = (.frame p.length, { t.polled with
      sync := false, len := 0, taint := false, frm := t.frm.writeBytes 0 p }) := by
  obtain ⟨hdelim, hf⟩ := h.endsFrame
  exact phyPoll_fits_frm hdelim h.sync (by rw [h.len]; exact hpos) h.taint hf (by rw [h.cfgM]; exact hp)

omit hpos in
theorem Accumulates.delivered (hw : r.outbuf.wf = true) :
    Delivered p later (State.ended p.length .noError { t.polled with
      sync := false, len := 0, taint := false, outbuf := t.outbuf.writeBytes 0 p, phySt := .noError }) := by
  refine ⟨rfl, BitVec.ofInt_natCast 32 _, rfl, ?_, rfl, rfl, (congrArg List.tail h.rx :)⟩
  exact Memory.readBytes_writeBytes (by rw [h.outbuf]; exact hw) 0 p

end

section
variable {C : Config} {r : State} {p e : Bytes} {later : List (Option Byte)} {rest : List HostAction}
  (hrun : r.run = .idle) (hlen : r.len = 0) (hresetIn : r.resetIn = []) (hwf : r.acc.wf = true)
  (houtbuf : r.outbuf.wf = true) (he : (r.codec C).enc p = e) (hp : p.length ≤ r.cfgM.toNat) (hl : e.length ≤ r.cap)
  (hpos : 0 < e.length)
  (hrx : r.rx = some (r.codec C).delim :: (e.map some ++ some (r.codec C).delim :: later))
include hrun hlen hresetIn hwf houtbuf he hp hl hpos hrx

/-- A call for every byte, the last of which delivers the payload (R157). -/
theorem runWith_phyRecv_nb (hhost : r.host = List.replicate (e.length + 2) pollAction ++ rest) :
    ∃ u, runWith C (e.length + 2) r = .next u ∧ Delivered p later u := by
  subst he
  have hpending : PollsPending rest (((r.codec C).enc p).length + 1 + 1) r := ⟨hrun, hresetIn, hhost⟩
  obtain ⟨t, ht, hlast, hfull⟩ :=
    (polls_pending C rest).frameBody hpending hlen hwf hrx ((r.codec C).delim_free p) hl
  have htaken := hfull.congr (t := t.taking 0x32000000#32 (List.replicate 0 pollAction ++ rest)) {}
  refine ⟨_, ?_, htaken.delivered houtbuf⟩
  rw [runWith_add _ 1 ht, runWith_succ 0 (hlast.step (htaken.poll_fits_outbuf hpos hp)), runWith]
  rfl

/-- One call, with a round for every byte after its start (R157). -/
theorem runWith_phyRecv_bl (hhost : r.host = .command 0x36000000#32 0#32 0#32 :: rest)
    (hsum : r.ticks.tail.sum ≤ r.cfgDeftmo.toNat) :
    ∃ u, runWith C (e.length + 3) r = .next u ∧ Delivered p later u := by
  subst he
  have hstart := r.started_undisturbed hresetIn hsum (C := C) (rest := rest) 0x36000000#32
    (Dest.outbuf.loop r.cfgDeftmo (r.nowNext C))
  obtain ⟨t, ht, hlast, hfull⟩ :=
    (polls_blocking C .outbuf _ _).frameBody (n := 0) hstart hlen hwf hrx ((r.codec C).delim_free p) hl
  have hchecked := hfull.congr (t := t.checked C) {}
  have hend := phyRecv_stepsTo_of_poll_ends hlast.not_asserted hlast.run hlast.elapsed_le
    (hchecked.poll_fits_outbuf hpos hp) rfl
  refine ⟨_, ?_, hchecked.delivered houtbuf⟩
  rw [runWith_succ _ (stepWith_phyRecv_start hrun hresetIn hhost)]
  exact (runWith_add _ 1 ht).trans ((runWith_succ 0 hend.1).trans rfl)

end

/-- Settles O59: both modes store the encoding byte by byte, and the closing delimiter destuffs it to the payload. -/
theorem phyFrameRoundTrip : Obligations.PhyFrameRoundTrip := by
  unfold Obligations.PhyFrameRoundTrip
  intro C s r size p e later rest hp he hsize hl hpos hscheme hcfgM hrun hlen hresetIn hwf houtbuf
  have hcodec : r.codec C = s.codec C := congrArg (schemeCodec C) hscheme
  have hcap : r.cap = s.cap := by rw [State.cap, State.cap, hscheme, hcfgM]
  have hroom := cfgM_add_five_le_cap s
  have henc : (r.codec C).enc p = e := by rw [hcodec, he]
  have hfits : p.length ≤ r.cfgM.toNat := by rw [hp, Memory.readBytes_length, hcfgM]; exact hsize
  rw [← hcap] at hl
  refine ⟨_, _, phySend_answers_sent (by omega) (by rw [he, hp]) (hcap ▸ hl), List.append_assoc _ _ _, fun hrx => ?_⟩
  rw [sentBytes_frameEvents_finish, ← hcodec, List.map_append, List.append_assoc] at hrx
  exact ⟨runWith_phyRecv_nb hrun hlen hresetIn hwf houtbuf henc hfits hl hpos hrx,
    runWith_phyRecv_bl hrun hlen hresetIn hwf houtbuf henc hfits hl hpos hrx⟩

/-! ## A frame of MAC_SEND -/

theorem Accumulates.of_same {r s t : State} {raw : Bytes} {todo : List (Option Byte)} (h : Accumulates s t raw todo)
    (hrs : SameReceiver r s) : Accumulates r t raw todo :=
  { h with toSameReceiver := hrs.trans h.toSameReceiver }

/-- A blocking MAC_RECV starts, and its own check of the deadline lets it poll (R183). -/
theorem runWith_macRecv_start {C : Config} {r : State} {rest : List HostAction} (hrun : r.run = .idle)
    (hresetIn : r.resetIn = []) (hhost : r.host = .command 0x56000000#32 0#32 0#32 :: rest)
    (hsum : r.ticks.tail.sum ≤ r.cfgDeftmo.toNat) :
    ∃ s, runWith C 2 r = .next s ∧
      Undisturbed C (Dest.frm.loop r.cfgDeftmo (r.nowNext C)) r.cfgDeftmo (r.nowNext C) s ∧ SameReception r s := by
  obtain ⟨s, hs, htop, hsame⟩ : ∃ s, stepWith C r = .next s ∧
      Undisturbed C (.macTop r.cfgDeftmo (r.nowNext C)) r.cfgDeftmo (r.nowNext C) s ∧ SameReception r s :=
    ⟨_, stepWith_macRecv_start hrun hresetIn hhost, r.started_undisturbed hresetIn hsum _ _, {}⟩
  have hcheck := stepWith_macTop_continue htop.not_asserted htop.run htop.elapsed_le
  refine ⟨_, (runWith_succ 1 hs).trans (runWith_succ 0 hcheck), ?_, hsame.trans {}⟩
  exact htop.of_checked rfl ((checked_resetIn_nil C htop.resetIn).trans htop.resetIn.symm) rfl rfl

/-- A blocking MAC_RECV that is not timed out stores a frame up to its closing delimiter (R189). -/
theorem runWith_macRecv_frameBody {C : Config} {r : State} {e : Bytes} {todo : List (Option Byte)} {rest : List HostAction}
    (hrun : r.run = .idle) (hlen : r.len = 0) (hresetIn : r.resetIn = []) (hwf : r.acc.wf = true)
    (he : (r.codec C).delim ∉ e) (hl : e.length ≤ r.cap) (hrx : r.rx = some (r.codec C).delim :: (e.map some ++ todo))
    (hhost : r.host = .command 0x56000000#32 0#32 0#32 :: rest) (hsum : r.ticks.tail.sum ≤ r.cfgDeftmo.toNat) :
    ∃ t, runWith C (e.length + 3) r = .next t ∧
      Undisturbed C (.macPhy r.cfgDeftmo (r.nowNext C)) r.cfgDeftmo (r.nowNext C) t ∧
      Accumulates (openFrame r) t e todo := by
  obtain ⟨s, hs, hloop, hsame⟩ := runWith_macRecv_start (C := C) hrun hresetIn hhost hsum
  obtain ⟨t, ht, hlast, hfull⟩ := (polls_blocking C .frm _ _).frameBody (n := 0) hloop (hsame.len.trans hlen)
    (by rw [hsame.acc, hwf]) (by rw [hsame.rx, hsame.codec C, hrx]) (by rwa [hsame.codec C]) (by rwa [hsame.cap])
  refine ⟨t, ?_, hlast, hfull.of_same hsame.toSameReceiver.opened⟩
  have hsteps : e.length + 3 = 2 + (e.length + 1) := by omega
  rw [hsteps, runWith_add 2 _ hs, ht]

/-- The frame of a payload that leaves room for the two address bytes is accepted and delivered (R185 to R188, R191). -/
theorem Accumulates.step_accepted {C : Config} {r t : State} {dst src : Byte} {p : Bytes} {later : List (Option Byte)}
    {tmo : Word} {t0 : Nat}
    (h : Accumulates (openFrame r) t ((r.codec C).enc (dst :: src :: p)) (some (r.codec C).delim :: later))
    (hpos : 0 < ((r.codec C).enc (dst :: src :: p)).length) (hfits : p.length + 2 ≤ r.cfgM.toNat)
    (hfrm : r.frm.wf = true) (hdst : dst = r.cfgSelf ∨ dst = bcast) (ht : Undisturbed C (.macPhy tmo t0) tmo t0 t) :
    stepWith C t = .next (State.ended p.length (sourceStatus t.cfgSelf src) { (t.checked C).polled with
      sync := false, len := 0, taint := false, frm := t.frm.writeBytes 0 (dst :: src :: p), phySt := .noError
      outbuf := t.outbuf.writeBytes 0 p, outsrc := src, macSt := sourceStatus t.cfgSelf src }) := by
  have hchecked := h.congr (t := t.checked C) {}
  have hself : t.cfgSelf = r.cfgSelf := h.cfgSelf
  rw [← hself] at hdst
  have hread := Memory.readBytes_writeBytes (m := t.frm) (by rw [h.frm]; exact hfrm) 0 (dst :: src :: p)
  refine (macRecv_stepsTo_frame ht.not_asserted ht.run ht.elapsed_le (hchecked.poll_fits_frm hpos hfits)
    ((macOutcome_accepted (dst := dst) (src := src) (payload := p) ?_ ?_ rfl).2 _ _)).1
  exacts [hread, hdst]

/-- A frame of more than `CFG_M` bytes fails with `Oversize` (R141, R184, R191). -/
theorem Accumulates.step_tooLong {C : Config} {r t : State} {p : Bytes} {later : List (Option Byte)}
    {tmo : Word} {t0 : Nat} (h : Accumulates (openFrame r) t ((r.codec C).enc p) (some (r.codec C).delim :: later))
    (hpos : 0 < ((r.codec C).enc p).length) (htoo : r.cfgM.toNat < p.length)
    (ht : Undisturbed C (.macPhy tmo t0) tmo t0 t) :
    stepWith C t = .next (State.ended (-1) .oversize { (t.checked C).polled with
      sync := false, len := 0, taint := false, frm := drawnArray C (frameSize C) t.draws, draws := t.draws + 1
      trace := (t.checked C).polled.trace ++ [.draw (.array (drawnArray C (frameSize C) t.draws))]
      phySt := .oversize, macSt := .oversize }) := by
  obtain ⟨hdelim, hf⟩ := (h.congr (t := t.checked C) {}).endsFrame
  have hpoll := phyPoll_tooLong (C := C) (d := .frm) (s := t.checked C) hdelim h.sync
    (show 0 < t.len by rw [h.len]; exact hpos) h.taint
    (show t.cfgM.toNat < _ by rw [hf, h.cfgM]; exact htoo)
  rw [drawDest_dropFrame_frm] at hpoll
  exact (macRecv_stepsTo_of_poll_fails ht.not_asserted ht.run ht.elapsed_le hpoll rfl).1

/-- Settles O60: the frame is stored in both cases; its destuffed length decides. -/
theorem macFrameRoundTripAndItsLimit : Obligations.MacFrameRoundTripAndItsLimit := by
  unfold Obligations.MacFrameRoundTripAndItsLimit
  intro C s r dst size p e later rest hp he hsize hl hpos hscheme hcfgM hrun hlen hresetIn hwf houtbuf hfrm hdst hhost hsum
  have hcodec : r.codec C = s.codec C := congrArg (schemeCodec C) hscheme
  have hcap : r.cap = s.cap := by rw [State.cap, State.cap, hscheme, hcfgM]
  have hbody : macBody dst size s = dst :: s.cfgSelf :: p := by rw [hp, macBody]
  have henc : (r.codec C).enc (dst :: s.cfgSelf :: p) = e := by rw [hcodec, he]; rfl
  have hplen : p.length = size.toNat := by rw [hp, Memory.readBytes_length]
  refine ⟨_, _, macSend_answers_sent hsize (by rw [hbody, ← hcodec, henc]) hpos hl, rfl, List.append_assoc _ _ _,
    fun hrx => ?_⟩
  rw [sentBytes_frameEvents_finish, ← hcodec, List.map_append, List.append_assoc] at hrx
  subst henc
  obtain ⟨t, ht, hlast, hfull⟩ := runWith_macRecv_frameBody hrun hlen hresetIn hwf ((r.codec C).delim_free _)
    (by rwa [hcap]) hrx hhost hsum
  have hstep : ∀ u, stepWith C t = .next u →
      runWith C (((r.codec C).enc (dst :: s.cfgSelf :: p)).length + 4) r = .next u := fun u hu =>
    (runWith_add _ 1 ht).trans ((runWith_succ 0 hu).trans rfl)
  have hstatus : [Status.readErrorSourceSelf, .readErrorSourceBroadcast, .noError].Perm
      [.noError, .readErrorSourceSelf, .readErrorSourceBroadcast] := by decide
  by_cases hfits : p.length + 2 ≤ r.cfgM.toNat
  · refine ⟨_, hstep _ (hfull.step_accepted hpos hfits hfrm hdst hlast), rfl, (congrArg List.tail hfull.rx :),
      fun _ => ⟨?_, ?_, rfl, hstatus.mem_iff.1 (sourceStatus_mem _ _)⟩, fun htoo => ?_⟩
    · rw [← hplen]
      exact BitVec.ofInt_natCast 32 _
    · rw [← hplen]
      exact Memory.readBytes_writeBytes (by rw [hfull.outbuf]; exact houtbuf) 0 p
    · rw [hcfgM, hplen] at hfits
      omega
  · have htoo : r.cfgM.toNat < (dst :: s.cfgSelf :: p).length := Nat.lt_of_not_le hfits
    refine ⟨_, hstep _ (hfull.step_tooLong hpos htoo hlast), rfl, (congrArg List.tail hfull.rx :), fun hfits' => ?_,
      fun _ => ⟨rfl, rfl, rfl, hfull.outbuf⟩⟩
    rw [hcfgM, hplen] at hfits
    exact absurd hfits' hfits

end Sys2Proof.Machine
end
